-- ==== Sys2Proof/Word.lean ====
section
/-! DEFINITION. Word.lean: the word types of bzip2_block_decompressor (spec/00_scope.md R9, R13). -/

namespace Sys2Proof

/-- A host register is 32 bits wide (spec/00_scope.md R9). -/
abbrev Word := BitVec 32

/-- One byte of the input or the output stream (spec/20_memory.md R70). -/
abbrev Byte := BitVec 8

/-- A sequence of bits in reading order, the first bit read first (spec/40_bitreader.md R110). -/
abbrev Bits := List Bool

end Sys2Proof
end

