-- ==== Sys2Proof/Config.lean ====
section
/-! DEFINITION. Config.lean: the constants the format fixes (spec/00_scope.md R7, R8) and the values the spec leaves
open, each a constant without a body. -/

namespace Sys2Proof.Config

/-- Symbols that share one selector (spec/00_scope.md R8, GROUP_SIZE). -/
def groupSize : Nat := 50

/-- Smallest and largest legal number of Huffman tables (spec/00_scope.md R8, MAX_TABLES). -/
def minTables : Nat := 2
def maxTables : Nat := 6

/-- Largest legal code length (spec/00_scope.md R8, MAX_CODE_LEN; spec/90_conflicts.md C3). -/
def maxCodeLen : Nat := 20

/-- BWT bytes per unit of blockSize100k (spec/00_scope.md R7; spec/90_conflicts.md C2). -/
def capUnit : Nat := 100000

/-- Smallest and largest legal blockSize100k (spec/00_scope.md R7). -/
def minBlockSize : Nat := 1
def maxBlockSize : Nat := 9

/-- The constant of the ID register (spec/10_state.md R21). -/
def idValue : Word := 0x425A4231

/-- The seed of a block CRC (spec/41_crc.md R120). -/
def crcSeed : Word := 0xFFFFFFFF

/-- The CRC polynomial, most significant bit first (spec/41_crc.md R121). -/
def crcPoly : Word := 0x04C11DB7

/-- The "BZh" magic of a stream, the 48-bit block magic and the 48-bit end-of-stream magic (spec/30_encoding.md R94). -/
def streamMagic : BitVec 24 := 0x425A68
def blockMagic : BitVec 48 := 0x314159265359
def eosMagic : BitVec 48 := 0x177245385090

/-- The size of the host register window in bytes (spec/10_state.md R20). -/
def windowBytes : Nat := 0x80

/-- The internal memories whose contents the spec leaves unspecified until they are written (spec/20_memory.md R81),
and the lists that no rule reads out of range (spec/42_mtf.md R131, spec/46_symbol_decode.md R185). -/
inductive MemName where
  | sel | len | minLen | maxLen | base | limit | perm | byteCount | charBase | bwt | bucket
  | symMap | litMtf | selMtf
  deriving DecidableEq, Repr

/-- FREE VALUE. What an entry reads as before anything has written it: spec/93_implementation_defined.md I1, "any
value". Uninterpreted, so no claim can rest on it (log 5, log 18). -/
opaque unwritten : MemName → Nat → Word

/-- FREE VALUE. What a result register reads as while STATUS.BUSY = 1: spec/93_implementation_defined.md I2, "any
value". The argument is State's counter freeCount, so that every such read has a value of its own (log 6). -/
opaque busyRead : Nat → Word

end Sys2Proof.Config
end

