-- ==== Sys2Proof/Syntax.lean ====
section
/-! DEFINITION. Syntax.lean: the 30 rows of spec/opcode_table.json as one inductive, the place an element is read at,
and the three forms of code the table uses. -/

namespace Sys2Proof

/-- The instruction set's two layers (spec/00_scope.md R2): the host's command words, and the elements and symbols of
the bzip2 stream, each with the value its bits carry. Operands are kept at every value the encoding has room for;
WellFormed says which are legal. -/
inductive Instr where
  -- command words, spec/30_encoding.md R91
  | nop
  | softReset
  | clearError
  | readBits (n : BitVec 8)
  | decodeBlock
  | checkStreamCrc
  | clearStreamCrc
  -- stream framing, spec/30_encoding.md R94
  | streamMagic
  | levelDigit (d : BitVec 4)
  | blockMagic
  | eosMagic
  | streamCrc (c : Word)
  -- block body, spec/30_encoding.md R95
  | blkCrcHi (c : BitVec 16)
  | blkCrcLo (c : BitVec 16)
  | randomised (flag : Bool)
  | origPtr (p : BitVec 24)
  | usedRanges (u : BitVec 16)
  | usedSub (u : BitVec 16)
  | nTables (t : BitVec 3)
  | nSelectors (n : BitVec 15)
  | selectorMtf (r : Nat)
  | clStart (l : BitVec 5)
  | clDeltaEnd
  | clDeltaInc
  | clDeltaDec
  | huffmanCodeword (h : Bits)
  -- symbol classes, spec/30_encoding.md R100
  | runA
  | runB
  | lit (s : BitVec 9)
  | eob
  deriving DecidableEq, Repr

/-- What a piece of code is due to be read as: the table is positional ("read by DECODE_BLOCK in the order of R95",
"read by the host in the order of R94"). A slot carries the values already read that its element's extent depends on
(spec/30_encoding.md R102). -/
inductive Slot where
  | command
  | streamMagic | levelDigit | blockOrEosMagic | streamCrc
  | blkCrcHi | blkCrcLo | randomised | origPtr | usedRanges | usedSub | nTables | nSelectors
  | selectorMtf (nTab : Nat)
  | clStart | clDelta
  /-- the table's MINLEN and MAXLEN, and LIMIT indexed by the length (spec/43_huffman.md R137) -/
  | huffmanCodeword (minLen maxLen : Nat) (limits : List Nat)
  /-- usedSymbolCount (spec/30_encoding.md R100) -/
  | symbol (used : Nat)
  deriving DecidableEq, Repr

/-- The three forms of code of spec/opcode_table.json: a command word (CMD32), bits of the stream in reading order
(FRAMING and BLOCK), the value of a decoded Huffman symbol (SYMBOL). -/
inductive Code where
  | word (w : Word)
  | bits (bs : Bits)
  | value (v : BitVec 9)
  deriving DecidableEq, Repr

end Sys2Proof
end

