-- ==== Sys2Proof/WellFormed.lean ====
section
/-! DEFINITION. WellFormed.lean: the operand values that are legal whatever came before (spec/30_encoding.md R92, R94,
R95, R100). A value outside them still has the effect the spec gives it: a rejected command, the host's stop, or the
error of spec/30_encoding.md R101. -/

namespace Sys2Proof

/-- The legal operand values of each instruction, as far as they do not depend on values read before. -/
def Instr.wellFormed : Instr → Bool
  | .readBits n => decide (1 ≤ n.toNat ∧ n.toNat ≤ 32)                 -- R93
  | .levelDigit d => decide (Config.minBlockSize ≤ d.toNat ∧ d.toNat ≤ Config.maxBlockSize)   -- R94
  | .randomised flag => !flag                                             -- R95: 0
  | .nTables t => decide (Config.minTables ≤ t.toNat ∧ t.toNat ≤ Config.maxTables)            -- R95: 2..6
  | .nSelectors n => decide (n ≠ 0)                                       -- R95: 1..32767
  | .selectorMtf r => decide (r < Config.maxTables)                       -- R97: below nTables, at most 6
  | .clStart l => decide (1 ≤ l.toNat ∧ l.toNat ≤ Config.maxCodeLen)     -- R95: 1..20
  | .huffmanCodeword h => decide (1 ≤ h.length ∧ h.length ≤ Config.maxCodeLen)                -- R99, R140
  | .lit s => decide (2 ≤ s.toNat ∧ s.toNat ≤ 256)                       -- R100: 2..usedSymbolCount
  | .nop | .softReset | .clearError | .decodeBlock | .checkStreamCrc | .clearStreamCrc
  | .streamMagic | .blockMagic | .eosMagic | .streamCrc _
  | .blkCrcHi _ | .blkCrcLo _ | .origPtr _ | .usedRanges _ | .usedSub _
  | .clDeltaEnd | .clDeltaInc | .clDeltaDec | .runA | .runB | .eob => true

end Sys2Proof
end

