-- ==== Sys2Proof/Decode.lean ====
section
/-! DEFINITION. Decode.lean: the decoder, total on any word, bits or symbol value and rejecting by name
(spec/30_encoding.md R90 to R100), and after it the encoder written from the same tables. -/

namespace Sys2Proof

/-! ## Bits and fields (spec/30_encoding.md R96, spec/40_bitreader.md R110, R111) -/

/-- The bits of a field in reading order, its most significant bit first. -/
def bitsOf {n : Nat} (v : BitVec n) : Bits := (List.range n).map v.getMsbD

/-- The value of a bit sequence, its first bit the most significant one: the sum of R111. -/
def valOf (bs : Bits) : Nat := bs.foldl (fun v b => 2 * v + b.toNat) 0

/-- The field of n bits that a bit sequence holds. -/
def fieldOf (n : Nat) (bs : Bits) : BitVec n := BitVec.ofNat n (valOf bs)

/-! ## The decoder -/

/-- Why a piece of code is not an instruction. -/
inductive DecodeReject where
  /-- an OPCODE outside R91's table (R92) -/
  | undefinedOpcode
  /-- RSVD of a command word is not 0 (R92) -/
  | reservedNotZero
  /-- N of a command other than READ_BITS is not 0 (R92) -/
  | countNotZero
  /-- the host's framing field is not the element it expects (R94, R262) -/
  | wrongFraming
  /-- the bits read so far are not a whole element yet (R102) -/
  | incomplete
  /-- a word, bits or a value where the slot reads another form of code -/
  | wrongForm
  deriving DecidableEq, Repr

/-- The fields of a command word (R90). -/
def opcodeOf (w : Word) : BitVec 8 := w.extractLsb' 0 8
def countOf (w : Word) : BitVec 8 := w.extractLsb' 8 8
def reservedOf (w : Word) : BitVec 16 := w.extractLsb' 16 16

/-- A command whose N must be 0 (R90). -/
def withoutCount (w : Word) (i : Instr) : Except DecodeReject Instr :=
  if countOf w = 0 then .ok i else .error .countNotZero

/-- The command word table, by the mask and match of each row (R91). READ_BITS takes its N as it stands: an N outside
1..32 makes an ill-formed instruction, which the command's acceptance rejects as R92 and R216 say (log 14). -/
def decodeCommand (w : Word) : Except DecodeReject Instr :=
  if reservedOf w ≠ 0 then .error .reservedNotZero
  else if opcodeOf w = 0x00 then withoutCount w .nop
  else if opcodeOf w = 0x01 then withoutCount w .softReset
  else if opcodeOf w = 0x02 then withoutCount w .clearError
  else if opcodeOf w = 0x10 then .ok (.readBits (countOf w))
  else if opcodeOf w = 0x20 then withoutCount w .decodeBlock
  else if opcodeOf w = 0x30 then withoutCount w .checkStreamCrc
  else if opcodeOf w = 0x31 then withoutCount w .clearStreamCrc
  else .error .undefinedOpcode

/-- A fixed-width element: whole once its n bits have been read (R96). -/
def whole (n : Nat) (bs : Bits) (i : Instr) : Except DecodeReject Instr :=
  if bs.length = n then .ok i else .error .incomplete

/-- SELECTOR_MTF with nTab tables: r one bits and a zero bit; the nTab-th one bit in a row ends the element too, with
the illegal rank nTab (R97). -/
def decodeUnary (nTab : Nat) (bs : Bits) : Except DecodeReject Instr :=
  if bs.getLast? = some false then .ok (.selectorMtf (bs.length - 1))
  else if bs ≠ [] ∧ nTab ≤ bs.length then .ok (.selectorMtf bs.length)
  else .error .incomplete

/-- CL_DELTA (R98). -/
def decodeDelta : Bits → Except DecodeReject Instr
  | [false] => .ok .clDeltaEnd
  | [true, false] => .ok .clDeltaInc
  | [true, true] => .ok .clDeltaDec
  | _ => .error .incomplete

/-- A codeword is whole at the first length L ≥ MINLEN where its value is within LIMIT[L], and at MAXLEN in any case:
no more bits are read there (R99, spec/43_huffman.md R137). -/
def decodeCodeword (minLen maxLen : Nat) (limits : List Nat) (bs : Bits) : Except DecodeReject Instr :=
  if minLen ≤ bs.length ∧ (valOf bs ≤ limits.getD bs.length 0 ∨ maxLen ≤ bs.length) then .ok (.huffmanCodeword bs)
  else .error .incomplete

/-- The class of a symbol value (R100; the literal range is 2..usedSymbolCount, spec/90_conflicts.md C1). -/
def decodeSymbol (used : Nat) (v : BitVec 9) : Instr :=
  if v = 0 then .runA else if v = 1 then .runB else if v.toNat = used + 1 then .eob else .lit v

/-- The element of the stream that stands in a slot. -/
def decodeBits (slot : Slot) (bs : Bits) : Except DecodeReject Instr :=
  match slot with
  | .streamMagic => if bs = bitsOf Config.streamMagic then .ok .streamMagic else .error .wrongFraming
  | .levelDigit =>
    if bs.length = 8 ∧ bs.take 4 = bitsOf (0x3 : BitVec 4) then .ok (.levelDigit (fieldOf 4 (bs.drop 4)))
    else .error .wrongFraming
  | .blockOrEosMagic =>
    if bs = bitsOf Config.blockMagic then .ok .blockMagic
    else if bs = bitsOf Config.eosMagic then .ok .eosMagic else .error .wrongFraming
  | .streamCrc => whole 32 bs (.streamCrc (fieldOf 32 bs))
  | .blkCrcHi => whole 16 bs (.blkCrcHi (fieldOf 16 bs))
  | .blkCrcLo => whole 16 bs (.blkCrcLo (fieldOf 16 bs))
  | .randomised => whole 1 bs (.randomised (valOf bs = 1))
  | .origPtr => whole 24 bs (.origPtr (fieldOf 24 bs))
  | .usedRanges => whole 16 bs (.usedRanges (fieldOf 16 bs))
  | .usedSub => whole 16 bs (.usedSub (fieldOf 16 bs))
  | .nTables => whole 3 bs (.nTables (fieldOf 3 bs))
  | .nSelectors => whole 15 bs (.nSelectors (fieldOf 15 bs))
  | .selectorMtf nTab => decodeUnary nTab bs
  | .clStart => whole 5 bs (.clStart (fieldOf 5 bs))
  | .clDelta => decodeDelta bs
  | .huffmanCodeword mn mx limits => decodeCodeword mn mx limits bs
  | .command | .symbol _ => .error .wrongForm

/-- The instruction that a piece of code is in a slot. -/
def decode (slot : Slot) (code : Code) : Except DecodeReject Instr :=
  match slot, code with
  | .command, .word w => decodeCommand w
  | .symbol used, .value v => .ok (decodeSymbol used v)
  | slot, .bits bs => decodeBits slot bs
  | _, _ => .error .wrongForm

/-! ## The encoder -/

/-- The command word with an OPCODE and a count N (R90). -/
def commandWord (opcode count : BitVec 8) : Word := (0 : BitVec 16) ++ count ++ opcode

/-- The code of an instruction in a slot (R91, R94, R95, R97, R98, R100). -/
def encode (slot : Slot) : Instr → Code
  | .nop => .word (commandWord 0x00 0)
  | .softReset => .word (commandWord 0x01 0)
  | .clearError => .word (commandWord 0x02 0)
  | .readBits n => .word (commandWord 0x10 n)
  | .decodeBlock => .word (commandWord 0x20 0)
  | .checkStreamCrc => .word (commandWord 0x30 0)
  | .clearStreamCrc => .word (commandWord 0x31 0)
  | .streamMagic => .bits (bitsOf (0x425A68 : BitVec 24))
  | .levelDigit d => .bits (bitsOf ((0x3 : BitVec 4) ++ d))
  | .blockMagic => .bits (bitsOf (0x314159265359 : BitVec 48))
  | .eosMagic => .bits (bitsOf (0x177245385090 : BitVec 48))
  | .streamCrc c => .bits (bitsOf c)
  | .blkCrcHi c => .bits (bitsOf c)
  | .blkCrcLo c => .bits (bitsOf c)
  | .randomised flag => .bits [flag]
  | .origPtr p => .bits (bitsOf p)
  | .usedRanges u => .bits (bitsOf u)
  | .usedSub u => .bits (bitsOf u)
  | .nTables t => .bits (bitsOf t)
  | .nSelectors n => .bits (bitsOf n)
  | .selectorMtf r => .bits (List.replicate r true ++ [false])
  | .clStart l => .bits (bitsOf l)
  | .clDeltaEnd => .bits [false]
  | .clDeltaInc => .bits [true, false]
  | .clDeltaDec => .bits [true, true]
  | .huffmanCodeword h => .bits h
  | .runA => .value 0
  | .runB => .value 1
  | .lit s => .value s
  | .eob =>
    match slot with
    | .symbol used => .value (BitVec.ofNat 9 (used + 1))
    | _ => .value 2

/-- The instruction may stand in the slot, with every operand at any value its encoding has room for there. -/
def Slot.admits (slot : Slot) : Instr → Bool
  | .nop | .softReset | .clearError | .readBits _ | .decodeBlock | .checkStreamCrc | .clearStreamCrc =>
    decide (slot = .command)
  | .streamMagic => decide (slot = .streamMagic)
  | .levelDigit _ => decide (slot = .levelDigit)
  | .blockMagic | .eosMagic => decide (slot = .blockOrEosMagic)
  | .streamCrc _ => decide (slot = .streamCrc)
  | .blkCrcHi _ => decide (slot = .blkCrcHi)
  | .blkCrcLo _ => decide (slot = .blkCrcLo)
  | .randomised _ => decide (slot = .randomised)
  | .origPtr _ => decide (slot = .origPtr)
  | .usedRanges _ => decide (slot = .usedRanges)
  | .usedSub _ => decide (slot = .usedSub)
  | .nTables _ => decide (slot = .nTables)
  | .nSelectors _ => decide (slot = .nSelectors)
  | .selectorMtf r => match slot with
    | .selectorMtf nTab => decide (r < nTab)
    | _ => false
  | .clStart _ => decide (slot = .clStart)
  | .clDeltaEnd | .clDeltaInc | .clDeltaDec => decide (slot = .clDelta)
  | .huffmanCodeword h => match slot with
    | .huffmanCodeword mn mx limits =>
      decide (mn ≤ h.length ∧ (valOf h ≤ limits.getD h.length 0 ∨ mx ≤ h.length))
    | _ => false
  | .runA | .runB => match slot with
    | .symbol _ => true
    | _ => false
  | .lit s => match slot with
    | .symbol used => decide (2 ≤ s.toNat ∧ s.toNat ≤ used)
    | _ => false
  | .eob => match slot with
    | .symbol used => decide (1 ≤ used ∧ used ≤ 256)
    | _ => false

/-! ## The opcode table's numbering -/

/-- The instruction this decoder reads from an instruction whose bits are w, bit 0 the least significant bit of the
one number the table's match is. The size tells the form: a command word has 32 bits, LEVEL_DIGIT 8, STREAM_MAGIC 24,
the two 48-bit magics 48. The other rows' elements have no bits of their own that tell them apart (log 19). -/
def decodeTableWord (nbits w : Nat) : Option Instr :=
  match nbits with
  | 32 => (decodeCommand (BitVec.ofNat 32 w)).toOption
  | 8 => (decodeBits .levelDigit (bitsOf (BitVec.ofNat 8 w))).toOption
  | 24 => (decodeBits .streamMagic (bitsOf (BitVec.ofNat 24 w))).toOption
  | 48 => (decodeBits .blockOrEosMagic (bitsOf (BitVec.ofNat 48 w))).toOption
  | _ => none

end Sys2Proof
end

