-- ==== Sys2Proof/Machine/State.lean ====
section
/-! DEFINITION. Machine/State.lean: every piece of state the spec gives the machine (spec/10_state.md R20 to R67), the
position inside a stage (R69), and the other three agents (spec/00_scope.md R11), as plain data; the reset state
(spec/70_reset_and_hazards.md R271). -/

namespace Sys2Proof.Machine

/-! ## Named codes -/

/-- The stages of spec/10_state.md R53 (codes 10..14 are never entered). -/
inductive Stage where
  | idle | readHeader | readSymbolMap | readTables | decodeMtfRle2 | buildBucketArray | emitRle1 | doneCheck
  | readBits | streamOp | error
  deriving DecidableEq, Repr

/-- The error kinds of spec/60_exceptions.md R241. -/
inductive ErrKind where
  | none | endOfStream | corruptStream | unsupportedFeature | blockCrcMismatch | streamCrcMismatch
  deriving DecidableEq, Repr

/-- The CorruptStream causes of spec/60_exceptions.md R242, 0x01 to 0x0A in order; `none` is cause 0. -/
inductive Cause where
  | none | blockSize | emptyMap | tableCount | selectorCount | selectorRank | codeLength | codeword | tooManySymbols
  | bwtOverflow | origPtrRange
  deriving DecidableEq, Repr

/-- Where the core stands in the pseudocode of its stage (spec/10_state.md R69): before the element, or at the step,
of that name. -/
inductive Pos where
  /-- no command runs -/
  | rest
  /-- READ_BITS, CHECK_STREAM_CRC, CLEAR_STREAM_CRC accepted (spec/48_host_commands.md R220, R222, R223) -/
  | readBits | checkStreamCrc | clearStreamCrc
  /-- DECODE_BLOCK accepted, the BLOCKSIZE check comes next (spec/45_block_header.md R165) -/
  | blockEntry
  | blkCrcHi | blkCrcLo | randomised | origPtr | usedRanges | usedSub | nTables | nSelectors | selector | clStart
  /-- the head of the inner loop of spec/44_selectors.md R154, or behind a first delta bit that is 1 -/
  | clDelta
  /-- the head of nextSymbol() (spec/44_selectors.md R157), and inside its huffDecode -/
  | nextSymbol | codeword
  /-- a symbol value is decoded and not yet acted on (spec/46_symbol_decode.md, decodeStage) -/
  | symbolReady
  /-- BUILD_BUCKET_ARRAY (spec/47_bwt_inverse.md R195, R196) -/
  | bucketBuild
  /-- the head of emitStage()'s loop, behind the OutByte of a single byte, the head of the repeat, and behind the
  OutByte of a repeat (spec/47_bwt_inverse.md R200, R202) -/
  | extract | emitted | repeatCopies | repeated
  | doneCheck
  deriving DecidableEq, Repr

/-! ## Ports and host -/

/-- What the source answers (spec/20_memory.md R73). -/
inductive Answer where
  | data (b : Byte)
  | eos
  deriving DecidableEq, Repr

/-- A host access to the register space, of any address and width in bytes (spec/20_memory.md R71). -/
inductive Access where
  | read (addr width : Nat)
  | write (addr width : Nat) (v : Word)
  deriving DecidableEq, Repr

/-- What the hardware answers a host access with (spec/20_memory.md R71; log 12). -/
inductive BusAnswer where
  | none
  | data (v : Word)
  | written
  | busError
  deriving DecidableEq, Repr

/-- The fields the host's stream procedure reads with READ_BITS (spec/70_reset_and_hazards.md R275). -/
inductive HostField where
  | streamMagic | levelDigit | magicHi | magicLo | streamCrc | padding
  deriving DecidableEq, Repr

/-- Why the host's stream procedure stopped: the messages of its EXPECT lines (spec/70_reset_and_hazards.md R275). -/
inductive HostStop where
  | badMagic | badLevel | readError | blockError | streamCrcMismatch
  deriving DecidableEq, Repr

/-- Where the host stands in the stream procedure of spec/70_reset_and_hazards.md R275 (log 8). -/
inductive HostPhase where
  /-- the procedure is not running: only the schedule's accesses reach the window -/
  | off
  /-- READBITS of a field: CMD READ_BITS, then WAIT, then RD RESULT and what is done with it -/
  | issue (f : HostField) | wait (f : HostField) | take (f : HostField)
  /-- behind LEVEL_DIGIT: RD CTRL, then WR CTRL (log 9) -/
  | readCtrl | writeCtrl
  /-- CMD DECODE_BLOCK, then WAIT -/
  | issueDecode | waitDecode
  /-- behind STREAM_CRC: WR ARG (log 9) -/
  | writeArg
  /-- CMD CHECK_STREAM_CRC, then WAIT, then RD BIT_COUNT -/
  | issueCheck | waitCheck | readBitCount
  | stopped (why : HostStop)
  | finished
  deriving DecidableEq, Repr

/-- The host's stream procedure: its position and the variables it keeps (spec/70_reset_and_hazards.md R275). -/
structure HostAgent where
  phase : HostPhase
  /-- a of READ48: the word of its first READBITS, whole (spec/30_encoding.md R104) -/
  hi : Word
  /-- d - 0x30: the level -/
  level : BitVec 4
  /-- ctrl: the CTRL word last read -/
  ctrl : Word
  /-- c: the stream CRC -/
  crc : Word
  /-- s: the STATUS word last read -/
  status : Word
  /-- 8 - b mod 8, the number of padding bits -/
  padBits : BitVec 8
  deriving DecidableEq, Repr

/-- What can happen next (spec/00_scope.md R10, parameters `schedule`, `sourceDelay`, `sinkDelay`; log 1). -/
inductive Event where
  | host (a : Access)
  | hostProcedure
  | core
  | source
  | sink
  | resetAssert
  | resetRelease
  deriving DecidableEq, Repr

/-! ## Registers -/

/-- CTRL (spec/10_state.md R22 to R24). -/
structure Ctrl where
  blockSize : BitVec 4
  strict : Bool
  irqEn : Bool
  deriving DecidableEq, Repr

/-- The STATUS fields that are state of their own (spec/10_state.md R27, R28, R30 to R34). -/
structure Status where
  busy : Bool
  done : Bool
  rejected : Bool
  scrcMismatch : Bool
  inEos : Bool
  inWait : Bool
  outWait : Bool
  deriving DecidableEq, Repr

/-- ERR (spec/10_state.md R37). -/
structure ErrReg where
  kind : ErrKind
  cause : Cause
  stage : Stage
  deriving DecidableEq, Repr

/-- ARG and the result registers (spec/10_state.md R38 to R40, R42 to R49); COMPUTED_CRC and SYM_COUNT are views of
crcAcc and sym.symIdx. -/
structure Regs where
  arg : Word
  result : Word
  expectedCrc : Word
  streamCrc : Word
  origPtr : BitVec 24
  bwtLenReg : BitVec 20
  outCount : Word
  bitCount : Word
  blockCount : Word
  usedSyms : BitVec 9
  nTables : BitVec 3
  nSelectors : BitVec 15
  deriving DecidableEq, Repr

/-- The loop variables of the stages' rules (spec/10_state.md R69; INVENTORY.md names each one's rule; log 13). -/
structure Loop where
  elem : Bits
  hi : BitVec 16
  used16 : BitVec 16
  rangeIdx : Nat
  selIdx : Nat
  table : Nat
  symIdx : Nat
  curr : BitVec 5
  symbol : BitVec 9
  copies : Nat
  emitByte : Byte
  readCount : BitVec 8
  argSample : Word
  deriving DecidableEq, Repr

/-- The symbol-decode registers (spec/10_state.md R62) and the counter bwtLen (R44). -/
structure SymRegs where
  runLen : Word
  runBit : Word
  symIdx : BitVec 21
  bwtLen : BitVec 20
  deriving DecidableEq, Repr

/-- The emission registers (spec/10_state.md R65). -/
structure EmitRegs where
  ptr : Word
  extracted : BitVec 20
  rleRun : BitVec 3
  rleLast : Byte
  deriving DecidableEq, Repr

/-- One internal memory: (index, value) pairs, indexes strictly rising (Machine/Ops.lean, Memory.wf). An index nothing has
written is not listed and reads as a free value (log 5). -/
abbrev Mem (α : Type) := List (Nat × α)

/-- The internal memories (spec/10_state.md R59 to R61, R63, R64; spec/20_memory.md R79, R80). The two-dimensional ones
are indexed by Machine/Ops.lean's symKey and levelKey. -/
structure Mems where
  sel : Mem (BitVec 3)
  len : Mem (BitVec 5)
  minLen : Mem (BitVec 5)
  maxLen : Mem (BitVec 5)
  base : Mem Word
  limit : Mem Word
  perm : Mem (BitVec 9)
  byteCount : Mem (BitVec 20)
  charBase : Mem (BitVec 20)
  bwt : Mem Byte
  bucket : Mem Word
  deriving DecidableEq, Repr

/-! ## The machine -/

/-- The state of the machine: the hardware (spec/10_state.md), its position (R69), and the other agents. -/
structure State where
  ctrl : Ctrl
  status : Status
  err : ErrReg
  regs : Regs
  stage : Stage
  pos : Pos
  loop : Loop
  bitq : Bits
  /-- what the last InByte() returned, until the core uses it (spec/40_bitreader.md R111; log 16) -/
  inAnswer : Option Answer
  outHold : Byte
  crcAcc : Word
  bsLatch : BitVec 4
  cap : BitVec 20
  symMap : List Byte
  used : BitVec 9
  nTab : BitVec 3
  nSel : BitVec 15
  litMtf : List Byte
  selMtf : List Byte
  sym : SymRegs
  emit : EmitRegs
  mem : Mems
  /-- the model's own: between two atomic core steps (spec/00_scope.md R12; log 3) -/
  atCut : Bool
  /-- hardware reset is asserted (spec/70_reset_and_hazards.md R270; log 11) -/
  inReset : Bool
  /-- the answers the source will give, in order (log 2) -/
  source : List Answer
  /-- the bytes the sink has accepted, in order (log 2) -/
  sink : List Byte
  /-- the events still to come, in order (log 1) -/
  schedule : List Event
  host : HostAgent
  bus : BusAnswer
  /-- the model's own: counts the undefined reads (log 6) -/
  freeCount : Nat
  deriving DecidableEq, Repr

/-- Why the machine would stop with a fault: nothing. The spec gives every encoding, every access and every operand an
effect, so no step faults; errors are next states (spec/60_exceptions.md R247), a bus error is an answer to the host
(spec/20_memory.md R71). -/
inductive Fault where
  deriving DecidableEq, Repr

/-- Why an instruction would have no meaning. -/
inductive Refusal where
  /-- raised by an arm of Machine/Dispatch.lean whose instruction has no meaning yet (safe); no arm raises it -/
  | notModelled (mnemonic : String)
  deriving DecidableEq, Repr

/-- The identity permutation of 0..255 (spec/42_mtf.md R130). -/
def identityMtf : List Byte := (List.range 256).map (BitVec.ofNat 8)

/-- No internal memory has been written (spec/20_memory.md R81; log 5). -/
def Mems.unspecified : Mems :=
  { sel := [], len := [], minLen := [], maxLen := [], base := [], limit := [], perm := [], byteCount := [],
    charBase := [], bwt := [], bucket := [] }

/-- The machine right after hardware reset (spec/70_reset_and_hazards.md R271), with nothing placed: no source byte, no
scheduled event, the host's procedure off. -/
def State.reset : State :=
  { ctrl := { blockSize := 0, strict := false, irqEn := false }
    status := { busy := false, done := false, rejected := false, scrcMismatch := false, inEos := false,
                inWait := false, outWait := false }
    err := { kind := .none, cause := .none, stage := .idle }
    regs := { arg := 0, result := 0, expectedCrc := 0, streamCrc := 0, origPtr := 0, bwtLenReg := 0, outCount := 0,
              bitCount := 0, blockCount := 0, usedSyms := 0, nTables := 0, nSelectors := 0 }
    stage := .idle
    pos := .rest
    loop := { elem := [], hi := 0, used16 := 0, rangeIdx := 0, selIdx := 0, table := 0, symIdx := 0, curr := 0,
              symbol := 0, copies := 0, emitByte := 0, readCount := 0, argSample := 0 }
    bitq := []
    inAnswer := .none
    outHold := 0
    crcAcc := 0xFFFFFFFF
    bsLatch := 0
    cap := 0
    symMap := []
    used := 0
    nTab := 0
    nSel := 0
    litMtf := identityMtf
    selMtf := identityMtf
    sym := { runLen := 0, runBit := 1, symIdx := 0, bwtLen := 0 }
    emit := { ptr := 0, extracted := 0, rleRun := 0, rleLast := 0 }
    mem := Mems.unspecified
    atCut := false
    inReset := false
    source := []
    sink := []
    schedule := []
    host := { phase := .off, hi := 0, level := 0, ctrl := 0, crc := 0, status := 0, padBits := 0 }
    bus := .none
    freeCount := 0 }

end Sys2Proof.Machine
end

