-- ==== Sys2Proof/Machine/Ops.lean ====
section
/-! DEFINITION. Machine/Ops.lean: the operations the meanings share: the internal memories, the ports and the bit
reader's state, raising an error and returning from one, completing, accepting and rejecting a command, reset. -/

namespace Sys2Proof.Machine

/-! ## Internal memories (spec/20_memory.md R70(d), R79 to R82) -/

/-- The canonical form of a memory: its indexes strictly rise. -/
abbrev Memory.wf {α : Type} (m : Mem α) : Prop := (m.map Prod.fst).Pairwise (· < ·)

/-- The value last written to an entry, if any. -/
def memRead? {α : Type} : Mem α → Nat → Option α
  | [], _ => none
  | (k, v) :: m, a => if k = a then some v else memRead? m a

/-- The memory with one entry written (R82: each read returns the most recent write). -/
def memWrite {α : Type} : Mem α → Nat → α → Mem α
  | [], a, v => [(a, v)]
  | (k, x) :: m, a, v =>
    if a < k then (a, v) :: (k, x) :: m else if a = k then (a, v) :: m else (k, x) :: memWrite m a v

/-- What an entry reads as: the value last written, and a free value where nothing has been written (R81,
spec/93_implementation_defined.md I1; log 5). -/
def memRead {w : Nat} (name : Config.MemName) (m : Mem (BitVec w)) (a : Nat) : BitVec w :=
  (memRead? m a).getD ((Config.unwritten name a).setWidth w)

/-- The n entries from a on all written with v. -/
def memFill {α : Type} (m : Mem α) (a n : Nat) (v : α) : Mem α :=
  m.filter (fun e => decide (e.1 < a)) ++ (List.range n).map (fun k => (a + k, v))
    ++ m.filter (fun e => decide (a + n ≤ e.1))

/-- The list's values written to the entries from a on. -/
def memWriteList {α : Type} (m : Mem α) (a : Nat) : List α → Mem α
  | [] => m
  | v :: vs => memWriteList (memWrite m a v) (a + 1) vs

/-- The index of entry s of table t (258 symbols a table, spec/10_state.md R60, R61), and of level l of table t. -/
def symKey (t s : Nat) : Nat := 258 * t + s
def levelKey (t l : Nat) : Nat := 32 * t + l

/-! ## Ports (spec/20_memory.md R73, R75) -/

/-- InByte(): raise a request; the core then waits. -/
def requestByte (s : State) : State := { s with status.inWait := true }

/-- The source answers the pending request with the next of its answers; with none left it never answers (log 2). -/
def sourceAnswer (s : State) : State :=
  match s.status.inWait, s.source with
  | true, a :: rest =>
    { s with status.inWait := false, status.inEos := decide (a = .eos), inAnswer := some a, source := rest,
             atCut := true }
  | _, _ => s

/-- OutByte(b): offer a byte; the core then waits. -/
def offerByte (b : Byte) (s : State) : State := { s with outHold := b, status.outWait := true }

/-- The sink accepts the offered byte. -/
def sinkAccept (s : State) : State :=
  match s.status.outWait with
  | true => { s with status.outWait := false, sink := s.sink ++ [s.outHold], atCut := true }
  | false => s

/-! ## The bit reader's state (spec/40_bitreader.md R110, R111, R116) -/

/-- Loading a byte appends its bits, bit 7 first. -/
def loadByte (b : Byte) (s : State) : State := { s with bitq := s.bitq ++ bitsOf b, inAnswer := none }

/-- Consuming n bits removes the first n bits and counts them. -/
def consume (n : Nat) (s : State) : State :=
  { s with bitq := s.bitq.drop n, regs.bitCount := s.regs.bitCount + BitVec.ofNat 32 n }

/-! ## Errors (spec/60_exceptions.md R247) and the return from them (spec/48_host_commands.md R219) -/

/-- `raise K(c)`: the whole record is ERR; the position is not kept, nothing resumes. -/
def raise (k : ErrKind) (c : Cause) (s : State) : State :=
  { s with err := { kind := k, cause := c, stage := s.stage }, stage := .error, status.busy := false,
           status.done := false, pos := .rest }

/-- clearError(): the return from an error (R252). -/
def clearError (s : State) : State :=
  { s with err := { kind := .none, cause := .none, stage := .idle }, status.rejected := false,
           status.scrcMismatch := false, status.done := false, stage := .idle }

/-! ## Commands (spec/48_host_commands.md R215, R216, R224) -/

/-- The condition of READ_BITS, DECODE_BLOCK, CHECK_STREAM_CRC and CLEAR_STREAM_CRC: not busy, not error-locked. -/
def ready (s : State) : Bool := !s.status.busy && decide (s.err.kind = .none)

/-- A rejected word sets REJECTED and changes nothing else. -/
def reject (s : State) : State := { s with status.rejected := true }

/-- The acceptance of a command that takes core steps: DONE, BUSY and STAGE in the same access; the core's first step
comes after a cut. -/
def accept (st : Stage) (p : Pos) (s : State) : State :=
  { s with status.done := false, status.busy := true, stage := st, pos := p, loop.elem := [], atCut := true }

/-- complete(): a command ends without error. -/
def complete (s : State) : State :=
  { s with stage := .idle, status.busy := false, status.done := true, pos := .rest }

/-! ## Reset (spec/70_reset_and_hazards.md R270, R271, R273) -/

/-- Every state element of R271 at its reset value; the source, the sink, the host and the schedule are not the
hardware's and keep theirs. -/
def resetHardware (s : State) : State :=
  { State.reset with inReset := s.inReset, source := s.source, sink := s.sink, schedule := s.schedule,
                     host := s.host, bus := s.bus, freeCount := s.freeCount }

/-- SOFT_RESET: the same, but CTRL and ARG keep their values (R273, spec/48_host_commands.md R218). -/
def softReset (s : State) : State :=
  { resetHardware s with ctrl := s.ctrl, regs.arg := s.regs.arg }

/-- The platform asserts or releases hardware reset (R270; log 11). -/
def resetAssert (s : State) : State := { resetHardware s with inReset := true }
def resetRelease (s : State) : State := { s with inReset := false }

end Sys2Proof.Machine
end

