-- ==== Sys2Proof/Machine/Operands.lean ====
section
/-! DEFINITION. Machine/Operands.lean: the operands the elements work on and the units that compute them: the CRC
accumulator, the move-to-front units, the symbol map, the Huffman tables. -/

namespace Sys2Proof.Machine

/-! ## CRC-32 (spec/41_crc.md) -/

/-- One round of the loop of R121. -/
def crcRound (c : Word) : Word :=
  if c.getLsbD 31 then (c <<< 1) ^^^ Config.crcPoly else c <<< 1

/-- CRC_ROM[i] (R121). -/
def crcRom (i : Byte) : Word := (List.range 8).foldl (fun c _ => crcRound c) (i.setWidth 32 <<< 24)

/-- The recurrence of crcUpdate on the accumulator (R122). -/
def crcStep (acc : Word) (b : Byte) : Word :=
  (acc <<< 8) ^^^ crcRom ((acc >>> 24).setWidth 8 ^^^ b)

/-- crcUpdate(b) (R122). -/
def crcUpdate (b : Byte) (s : State) : State := { s with crcAcc := crcStep s.crcAcc b }

/-- finalize() (R123): what COMPUTED_CRC reads. -/
def computedCrc (s : State) : Word := ~~~s.crcAcc

/-- rotl1 (spec/00_scope.md R13). -/
def rotl1 (x : Word) : Word := (x <<< 1) ||| (x >>> 31)

/-! ## Move-to-front (spec/42_mtf.md) -/

/-- promote(M, idx) on its state (R131): the value at idx, and the state with it moved to the front. Callers keep idx
in range; out of range nothing moves and the value is free (log 18). -/
def promote (name : Config.MemName) (m : List Byte) (idx : Nat) : Byte × List Byte :=
  match m[idx]? with
  | some v => (v, v :: m.eraseIdx idx)
  | none => ((Config.unwritten name idx).setWidth 8, m)

/-- front(M) (R132). -/
def front (name : Config.MemName) (m : List Byte) : Byte := m.head?.getD ((Config.unwritten name 0).setWidth 8)

/-! ## Symbol map (spec/45_block_header.md R169, R170) -/

/-- The byte values range i contributes: bit 15 - j of its USED_SUB, the j-th bit read, stands for 16 i + j. -/
def rangeBytes (i : Nat) (sub : BitVec 16) : List Byte :=
  ((List.range 16).filter sub.getMsbD).map fun j => BitVec.ofNat 8 (16 * i + j)

/-- The first used range from i on: bit 15 - i of USED_RANGES, the i-th bit read, stands for range i. -/
def nextRange (used16 : BitVec 16) (i : Nat) : Option Nat :=
  (List.range 16).find? fun j => decide (i ≤ j) && used16.getMsbD j

/-- SYMMAP[r]; r is in range by R185 (log 18). -/
def symMapAt (s : State) (r : Nat) : Byte := s.symMap[r]?.getD ((Config.unwritten .symMap r).setWidth 8)

/-- alphaSize (spec/45_block_header.md R173). -/
def alphaSize (s : State) : Nat := s.used.toNat + 2

/-! ## Huffman tables (spec/43_huffman.md) -/

/-- The code lengths of table t, in symbol order (R135). -/
def lengthsOf (s : State) (t : Nat) : List Nat :=
  (List.range (alphaSize s)).map fun k => (memRead .len s.mem.len (symKey t k)).toNat

/-- cum[l]: how many symbols have a length from 1 to l - 1 (R136). -/
def cumBelow (lens : List Nat) : Nat → Nat
  | 0 => 0
  | l + 1 => cumBelow lens l + (if l = 0 then 0 else lens.count l)

/-- code on entry to each iteration of R136's loop, over the lengths minLen, minLen + 1, …: the pairs
(length, code_length). -/
def levelCodes (lens : List Nat) : List Nat → Nat → List (Nat × Nat)
  | [], _ => []
  | l :: ls, code => (l, code) :: levelCodes lens ls ((code + lens.count l) * 2)

/-- The lengths MINLEN..MAXLEN. -/
def levels (mn mx : Nat) : List Nat := (List.range (mx + 1 - mn)).map (· + mn)

/-- The symbols sorted by (length, symbol). -/
def sortedSymbols (lens : List Nat) : List Nat :=
  (List.range 32).flatMap fun l => (List.range lens.length).filter fun k => lens[k]? = some l

/-- huffBuild(t) (R136). The lengths are 1..20, so no difference is negative (R139; log 18). -/
def huffBuild (s : State) (t : Nat) : State :=
  let lens := lengthsOf s t
  let mn := lens.min?.getD 0
  let mx := lens.max?.getD 0
  let rows := levelCodes lens (levels mn mx) 0
  { s with
    mem.minLen := memWrite s.mem.minLen t (BitVec.ofNat 5 mn)
    mem.maxLen := memWrite s.mem.maxLen t (BitVec.ofNat 5 mx)
    mem.base := rows.foldl (fun m r => memWrite m (levelKey t r.1) (BitVec.ofNat 32 (r.2 - cumBelow lens r.1)))
      s.mem.base
    mem.limit := rows.foldl (fun m r => memWrite m (levelKey t r.1) (BitVec.ofNat 32 (r.2 + lens.count r.1 - 1)))
      s.mem.limit
    mem.perm := memWriteList s.mem.perm (symKey t 0) ((sortedSymbols lens).map (BitVec.ofNat 9)) }

/-- huffBuild for every table, t = 0..NTAB-1 (spec/44_selectors.md R156). -/
def huffBuildAll (s : State) : State := (List.range s.nTab.toNat).foldl huffBuild s

/-- MINLEN[t], MAXLEN[t], LIMIT[t][l] and BASE[t][l]. -/
def minLenOf (s : State) (t : Nat) : Nat := (memRead .minLen s.mem.minLen t).toNat
def maxLenOf (s : State) (t : Nat) : Nat := (memRead .maxLen s.mem.maxLen t).toNat
def limitOf (s : State) (t l : Nat) : Nat := (memRead .limit s.mem.limit (levelKey t l)).toNat
def baseOf (s : State) (t l : Nat) : Nat := (memRead .base s.mem.base (levelKey t l)).toNat

/-- LIMIT[t] indexed by the length, as a codeword's slot carries it. -/
def limitsOf (s : State) (t : Nat) : List Nat := (List.range 32).map (limitOf s t)

/-- PERM[t][codeBits - BASE[t][L]] (R137). -/
def symbolOf (s : State) (t : Nat) (h : Bits) : BitVec 9 :=
  memRead .perm s.mem.perm (symKey t (valOf h - baseOf s t h.length))

end Sys2Proof.Machine
end

