-- ==== Sys2Proof/Machine/Commands.lean ====
section
/-! DEFINITION. Machine/Commands.lean: the seven command words, as the host's write to CMD (spec/48_host_commands.md
R215 to R223): each is accepted or rejected in the access. The core steps an accepted command then takes are
Machine/CoreRun.lean. -/

namespace Sys2Proof.Machine

open Host (Outcome)

/-- NOP: always accepted, no effect (R217). -/
def execNop (s : State) : Outcome State Fault Refusal := .next s

/-- SOFT_RESET: always accepted; aborts the running command and withdraws its port transactions (R218). -/
def execSoftReset (s : State) : Outcome State Fault Refusal := .next (softReset s)

/-- CLEAR_ERROR: accepted when not busy; takes no core step (R219). -/
def execClearError (s : State) : Outcome State Fault Refusal :=
  .next (if s.status.busy then reject s else clearError s)

/-- READ_BITS n (R220). A count outside 1..32 makes the word undefined: rejected (spec/30_encoding.md R92). -/
def execReadBits (n : BitVec 8) (s : State) : Outcome State Fault Refusal :=
  .next (if ready s && decide (1 ≤ n.toNat ∧ n.toNat ≤ 32) then
    accept .readBits .readBits { s with loop.readCount := n } else reject s)

/-- DECODE_BLOCK (R221): BLOCKSIZE is latched and READ_HEADER entered at acceptance (spec/45_block_header.md R165); the
BLOCKSIZE check is the core's first step (log 15). -/
def execDecodeBlock (s : State) : Outcome State Fault Refusal :=
  .next (if ready s then
    accept .readHeader .blockEntry
      { s with bsLatch := s.ctrl.blockSize, crcAcc := Config.crcSeed, regs.outCount := 0, sym.symIdx := 0,
               sym.bwtLen := 0 }
    else reject s)

/-- CHECK_STREAM_CRC (R222): ARG is sampled at acceptance (R227). -/
def execCheckStreamCrc (s : State) : Outcome State Fault Refusal :=
  .next (if ready s then accept .streamOp .checkStreamCrc { s with loop.argSample := s.regs.arg } else reject s)

/-- CLEAR_STREAM_CRC (R223). -/
def execClearStreamCrc (s : State) : Outcome State Fault Refusal :=
  .next (if ready s then accept .streamOp .clearStreamCrc s else reject s)

end Sys2Proof.Machine
end

