-- ==== Sys2Proof/Machine/Framing.lean ====
section
/-! DEFINITION. Machine/Framing.lean: the five framing elements (spec/30_encoding.md R94). The host decodes them: it has
read the element with READ_BITS and goes on as its stream procedure says (spec/70_reset_and_hazards.md R275; log 8). No
meaning accesses a register: an access that an element leads to is a move of its own, Machine/HostAgent.lean
(spec/20_memory.md R88; log 9). -/

namespace Sys2Proof.Machine

open Host (Outcome)

/-- STREAM_MAGIC: the level digit comes next. -/
def execStreamMagic (s : State) : Outcome State Fault Refusal :=
  .next { s with host.phase := .issue .levelDigit }

/-- LEVEL_DIGIT: EXPECT 0x31 <= d <= 0x39; then RD CTRL and WR CTRL, (ctrl & ~0xF) | (d - 0x30). -/
def execLevelDigit (d : BitVec 4) (s : State) : Outcome State Fault Refusal :=
  if Config.minBlockSize ≤ d.toNat ∧ d.toNat ≤ Config.maxBlockSize then
    .next { s with host.level := d, host.phase := .readCtrl }
  else .next { s with host.phase := .stopped .badLevel }

/-- BLOCK_MAGIC: DECODE_BLOCK comes next. -/
def execBlockMagic (s : State) : Outcome State Fault Refusal :=
  .next { s with host.phase := .issueDecode }

/-- EOS_MAGIC: the stream CRC comes next. -/
def execEosMagic (s : State) : Outcome State Fault Refusal :=
  .next { s with host.phase := .issue .streamCrc }

/-- STREAM_CRC: then WR ARG, c. -/
def execStreamCrc (c : Word) (s : State) : Outcome State Fault Refusal :=
  .next { s with host.crc := c, host.phase := .writeArg }

end Sys2Proof.Machine
end

