-- ==== Sys2Proof/Machine/Header.lean ====
section
/-! DEFINITION. Machine/Header.lean: the elements of READ_HEADER and READ_SYMBOL_MAP (spec/45_block_header.md R166 to
R173). The element's bits have been read and consumed. -/

namespace Sys2Proof.Machine

open Host (Outcome)

/-- BLK_CRC_HI: hi of R166. -/
def execBlkCrcHi (c : BitVec 16) (s : State) : Outcome State Fault Refusal :=
  .next { s with loop.hi := c, pos := .blkCrcLo }

/-- BLK_CRC_LO: EXPECTED_CRC is written once both halves are read (R166). -/
def execBlkCrcLo (c : BitVec 16) (s : State) : Outcome State Fault Refusal :=
  .next { s with regs.expectedCrc := s.loop.hi ++ c, pos := .randomised }

/-- RANDOMISED (R167): a set flag is refused by the hardware with UnsupportedFeature. -/
def execRandomised (flag : Bool) (s : State) : Outcome State Fault Refusal :=
  .next (if flag then raise .unsupportedFeature .none s else { s with pos := .origPtr })

/-- ORIG_PTR (R168): its range is checked only after EOB. -/
def execOrigPtr (p : BitVec 24) (s : State) : Outcome State Fault Refusal :=
  .next { s with regs.origPtr := p, stage := .readSymbolMap, pos := .usedRanges }

/-- The end of READ_SYMBOL_MAP (R170, R172, R173). -/
def endSymbolMap (s : State) : State :=
  let n := BitVec.ofNat 9 s.symMap.length
  let s1 := { s with used := n, regs.usedSyms := n }
  if n = 0 then raise .corruptStream .emptyMap s1 else { s1 with stage := .readTables, pos := .nTables }

/-- The next used range from i on, or the end of the map (R170). -/
def toRange (i : Nat) (s : State) : State :=
  match nextRange s.loop.used16 i with
  | some j => { s with loop.rangeIdx := j, pos := .usedSub }
  | none => endSymbolMap s

/-- USED_RANGES (R169): SYMMAP starts empty. -/
def execUsedRanges (u : BitVec 16) (s : State) : Outcome State Fault Refusal :=
  .next (toRange 0 { s with loop.used16 := u, symMap := [] })

/-- USED_SUB of range i (R170). -/
def execUsedSub (u : BitVec 16) (s : State) : Outcome State Fault Refusal :=
  .next (toRange (s.loop.rangeIdx + 1) { s with symMap := s.symMap ++ rangeBytes s.loop.rangeIdx u })

end Sys2Proof.Machine
end

