-- ==== Sys2Proof/Machine/Symbols.lean ====
section
/-! DEFINITION. Machine/Symbols.lean: HUFFMAN_CODEWORD (spec/43_huffman.md R137, spec/44_selectors.md R157) and the
symbol classes (spec/46_symbol_decode.md R181 to R188). -/

namespace Sys2Proof.Machine

open Host (Outcome)

/-- HUFFMAN_CODEWORD h of table t: the symbol it stands for, counted; or no codeword matches (R137, R157). -/
def execHuffmanCodeword (h : Bits) (s : State) : Outcome State Fault Refusal :=
  .next (if valOf h ≤ limitOf s s.loop.table h.length then
      { s with loop.symbol := symbolOf s s.loop.table h, sym.symIdx := s.sym.symIdx + 1, pos := .symbolReady }
    else raise .corruptStream .codeword s)

/-- A run symbol adds n to the zero-run and doubles RUN_BIT; the run must fit the buffer (R181 to R183). -/
def addRun (n : Word) (s : State) : State :=
  let s1 := { s with sym.runLen := s.sym.runLen + n, sym.runBit := s.sym.runBit <<< 1 }
  if s.cap.toNat < s.sym.bwtLen.toNat + s1.sym.runLen.toNat then raise .corruptStream .bwtOverflow s1
  else { s1 with pos := .nextSymbol }

/-- RUNA (R181). -/
def execRunA (s : State) : Outcome State Fault Refusal := .next (addRun s.sym.runBit s)

/-- RUNB (R182). -/
def execRunB (s : State) : Outcome State Fault Refusal := .next (addRun (s.sym.runBit <<< 1) s)

/-- n more of byte value v in the histogram. -/
def countByte (v : Byte) (n : BitVec 20) (s : State) : State :=
  { s with mem.byteCount := memWrite s.mem.byteCount v.toNat (memRead .byteCount s.mem.byteCount v.toNat + n) }

/-- flushRun() (R184). -/
def flushRun (s : State) : State :=
  if s.sym.runLen = 0 then s
  else
    let v := symMapAt s (front .litMtf s.litMtf).toNat
    let s1 := countByte v (s.sym.runLen.setWidth 20) s
    { s1 with mem.bwt := memFill s.mem.bwt s.sym.bwtLen.toNat s.sym.runLen.toNat v,
              sym.bwtLen := s.sym.bwtLen + s.sym.runLen.setWidth 20, sym.runLen := 0, sym.runBit := 1 }

/-- literal(s) (R185, R186). -/
def literal (v : BitVec 9) (s : State) : State :=
  if s.cap.toNat < s.sym.bwtLen.toNat + 1 then raise .corruptStream .bwtOverflow s
  else
    let (idx, m) := promote .litMtf s.litMtf (v.toNat - 1)
    let b := symMapAt s idx.toNat
    let s1 := countByte b 1 { s with litMtf := m }
    { s1 with mem.bwt := memWrite s.mem.bwt s.sym.bwtLen.toNat b, sym.bwtLen := s.sym.bwtLen + 1, pos := .nextSymbol }

/-- LIT: a pending run is flushed first (R184, R185). -/
def execLit (v : BitVec 9) (s : State) : Outcome State Fault Refusal := .next (literal v (flushRun s))

/-- The end of DECODE_MTF_RLE2: BWT_LEN is written, ORIG_PTR checked (R187, R188). -/
def endDecode (s : State) : State :=
  let s1 := { s with regs.bwtLenReg := s.sym.bwtLen }
  if s.sym.bwtLen.toNat ≤ s.regs.origPtr.toNat then raise .corruptStream .origPtrRange s1
  else { s1 with stage := .buildBucketArray, pos := .bucketBuild }

/-- EOB: a pending run is flushed first (R184, R187). -/
def execEob (s : State) : Outcome State Fault Refusal := .next (endDecode (flushRun s))

end Sys2Proof.Machine
end

