-- ==== Sys2Proof/Machine/Tables.lean ====
section
/-! DEFINITION. Machine/Tables.lean: the elements of READ_TABLES (spec/44_selectors.md R150 to R156). The element's bits
have been read and consumed. -/

namespace Sys2Proof.Machine

open Host (Outcome)

/-- N_TABLES (R150). -/
def execNTables (t : BitVec 3) (s : State) : Outcome State Fault Refusal :=
  let s1 := { s with nTab := t }
  .next (if Config.minTables ≤ t.toNat ∧ t.toNat ≤ Config.maxTables then
      { s1 with regs.nTables := t, pos := .nSelectors }
    else raise .corruptStream .tableCount s1)

/-- N_SELECTORS (R151), and the start of the selector sequence (R152). -/
def execNSelectors (n : BitVec 15) (s : State) : Outcome State Fault Refusal :=
  let s1 := { s with nSel := n }
  .next (if n = 0 then raise .corruptStream .selectorCount s1
    else { s1 with regs.nSelectors := n, selMtf := identityMtf, loop.selIdx := 0, pos := .selector })

/-- SELECTOR_MTF of rank r (R152, R153): selector k, then the next selector or the first table's code lengths. -/
def execSelectorMtf (r : Nat) (s : State) : Outcome State Fault Refusal :=
  if s.nTab.toNat ≤ r then .next (raise .corruptStream .selectorRank s)
  else
    let (v, m) := promote .selMtf s.selMtf r
    let s1 := { s with selMtf := m, mem.sel := memWrite s.mem.sel s.loop.selIdx (v.setWidth 3),
                       loop.selIdx := s.loop.selIdx + 1 }
    .next (if s.loop.selIdx + 1 < s.nSel.toNat then { s1 with pos := .selector }
      else { s1 with loop.table := 0, pos := .clStart })

/-- CL_START of table t (R154); its range is checked before the first delta (R155). -/
def execClStart (l : BitVec 5) (s : State) : Outcome State Fault Refusal :=
  .next { s with loop.curr := l, loop.symIdx := 0, pos := .clDelta }

/-- CL_DELTA "10" (R154, spec/30_encoding.md R98). -/
def execClDeltaInc (s : State) : Outcome State Fault Refusal :=
  .next { s with loop.curr := s.loop.curr + 1, pos := .clDelta }

/-- CL_DELTA "11" (R154, spec/30_encoding.md R98). -/
def execClDeltaDec (s : State) : Outcome State Fault Refusal :=
  .next { s with loop.curr := s.loop.curr - 1, pos := .clDelta }

/-- Entry to DECODE_MTF_RLE2 (spec/46_symbol_decode.md R180). -/
def enterDecode (s : State) : State :=
  { s with litMtf := identityMtf, sym.runLen := 0, sym.runBit := 1, sym.bwtLen := 0,
           mem.byteCount := memFill s.mem.byteCount 0 256 0, stage := .decodeMtfRle2, pos := .nextSymbol }

/-- CL_DELTA "0" ends symbol s of table t (R154): the next symbol keeps curr; behind the last symbol of the last table
the tables are built and READ_TABLES ends (R156). -/
def execClDeltaEnd (s : State) : Outcome State Fault Refusal :=
  let s1 := { s with mem.len := memWrite s.mem.len (symKey s.loop.table s.loop.symIdx) s.loop.curr,
                     loop.symIdx := s.loop.symIdx + 1 }
  .next (if s.loop.symIdx + 1 < alphaSize s then { s1 with pos := .clDelta }
    else if s.loop.table + 1 < s.nTab.toNat then { s1 with loop.table := s.loop.table + 1, pos := .clStart }
    else enterDecode (huffBuildAll s1))

end Sys2Proof.Machine
end

