-- ==== Sys2Proof/Machine/Dispatch.lean ====
section
/-! DEFINITION. Machine/Dispatch.lean: one arm per constructor of Instr. -/

namespace Sys2Proof.Machine

def exec (i : Instr) (s : State) : Host.Outcome State Fault Refusal :=
  match i with
  -- command words, spec/30_encoding.md R91
  | .nop => Sys2Proof.Machine.execNop s
  | .softReset => Sys2Proof.Machine.execSoftReset s
  | .clearError => Sys2Proof.Machine.execClearError s
  | .readBits n => Sys2Proof.Machine.execReadBits n s
  | .decodeBlock => Sys2Proof.Machine.execDecodeBlock s
  | .checkStreamCrc => Sys2Proof.Machine.execCheckStreamCrc s
  | .clearStreamCrc => Sys2Proof.Machine.execClearStreamCrc s
  -- stream framing, spec/30_encoding.md R94
  | .streamMagic => Sys2Proof.Machine.execStreamMagic s
  | .levelDigit d => Sys2Proof.Machine.execLevelDigit d s
  | .blockMagic => Sys2Proof.Machine.execBlockMagic s
  | .eosMagic => Sys2Proof.Machine.execEosMagic s
  | .streamCrc c => Sys2Proof.Machine.execStreamCrc c s
  -- block body, spec/30_encoding.md R95
  | .blkCrcHi c => Sys2Proof.Machine.execBlkCrcHi c s
  | .blkCrcLo c => Sys2Proof.Machine.execBlkCrcLo c s
  | .randomised flag => Sys2Proof.Machine.execRandomised flag s
  | .origPtr p => Sys2Proof.Machine.execOrigPtr p s
  | .usedRanges u => Sys2Proof.Machine.execUsedRanges u s
  | .usedSub u => Sys2Proof.Machine.execUsedSub u s
  | .nTables t => Sys2Proof.Machine.execNTables t s
  | .nSelectors n => Sys2Proof.Machine.execNSelectors n s
  | .selectorMtf r => Sys2Proof.Machine.execSelectorMtf r s
  | .clStart l => Sys2Proof.Machine.execClStart l s
  | .clDeltaEnd => Sys2Proof.Machine.execClDeltaEnd s
  | .clDeltaInc => Sys2Proof.Machine.execClDeltaInc s
  | .clDeltaDec => Sys2Proof.Machine.execClDeltaDec s
  | .huffmanCodeword h => Sys2Proof.Machine.execHuffmanCodeword h s
  -- symbol classes, spec/30_encoding.md R100
  | .runA => Sys2Proof.Machine.execRunA s
  | .runB => Sys2Proof.Machine.execRunB s
  | .lit v => Sys2Proof.Machine.execLit v s
  | .eob => Sys2Proof.Machine.execEob s

end Sys2Proof.Machine
end

