-- ==== Sys2Proof/Machine/Emit.lean ====
section
/-! DEFINITION. Machine/Emit.lean: BUILD_BUCKET_ARRAY, EMIT_RLE1 and DONE_CHECK, the stages of DECODE_BLOCK that read no
element (spec/47_bwt_inverse.md). -/

namespace Sys2Proof.Machine

/-! ## BUILD_BUCKET_ARRAY -/

/-- The exclusive prefix sum of a list of counts (R195). -/
def prefixSums : List (BitVec 20) → BitVec 20 → List (BitVec 20)
  | [], _ => []
  | c :: cs, acc => acc :: prefixSums cs (acc + c)

/-- CHARBASE before the fill (R195). -/
def charBases (s : State) : List (BitVec 20) :=
  prefixSums ((List.range 256).map fun v => memRead .byteCount s.mem.byteCount v) 0

/-- The bucket entry (i << 8) | v, for an index below 2^24 (spec/20_memory.md R80). -/
def bucketEntry (i : Nat) (v : Byte) : Word := BitVec.ofNat 24 i ++ v

/-- One iteration of the fill, over CHARBASE and BUCKET (R196). -/
def fillStep (bwt : Mem Byte) (m : Mem (BitVec 20) × Mem Word) (i : Nat) : Mem (BitVec 20) × Mem Word :=
  let v := memRead .bwt bwt i
  let k := memRead .charBase m.1 v.toNat
  (memWrite m.1 v.toNat (k + 1), memWrite m.2 k.toNat (bucketEntry i v))

/-- The whole fill: CHARBASE and BUCKET behind it (R195, R196). -/
def fillBuckets (s : State) : Mem (BitVec 20) × Mem Word :=
  (List.range s.sym.bwtLen.toNat).foldl (fillStep s.mem.bwt)
    (memWriteList s.mem.charBase 0 (charBases s), s.mem.bucket)

/-- BUILD_BUCKET_ARRAY, and the entry to EMIT_RLE1 (R195, R196, R198). -/
def buildBuckets (s : State) : State :=
  let m := fillBuckets s
  { s with mem.charBase := m.1, mem.bucket := m.2, stage := .emitRle1,
           emit := { ptr := memRead .bucket m.2 s.regs.origPtr.toNat, extracted := 0, rleRun := 0, rleLast := 0 },
           pos := .extract }

/-! ## EMIT_RLE1 -/

/-- extract() (R199): the byte, and the state with PTR moved on. -/
def extractByte (s : State) : Byte × State :=
  (s.emit.ptr.extractLsb' 0 8,
   { s with emit.ptr := memRead .bucket s.mem.bucket (s.emit.ptr >>> 8).toNat,
            emit.extracted := s.emit.extracted + 1 })

/-- The OutByte of emit(x) (R202): the core waits for the sink. -/
def emitByte (x : Byte) (s : State) : State := offerByte x { s with loop.emitByte := x }

/-- The rest of emit(x), once the sink has accepted (R202; log 17). -/
def finishEmit (s : State) : State :=
  let s1 := crcUpdate s.loop.emitByte s
  { s1 with regs.outCount := s1.regs.outCount + 1 }

/-- One turn of emitStage()'s loop up to its OutByte, or its end (R200, R201, R203, R204). -/
def extractTurn (s : State) : State :=
  if s.emit.extracted.toNat < s.sym.bwtLen.toNat then
    let (b, s1) := extractByte s
    if s.emit.rleRun = 4 then { s1 with loop.copies := b.toNat, pos := .repeatCopies }
    else if s.emit.rleRun ≠ 0 ∧ b = s.emit.rleLast then
      emitByte b { s1 with emit.rleRun := s.emit.rleRun + 1, pos := .emitted }
    else emitByte b { s1 with emit.rleLast := b, emit.rleRun := 1, pos := .emitted }
  else { s with stage := .doneCheck, pos := .doneCheck }

/-- One turn of `repeat b times: emit(RLE_LAST)`, or its end (R200, R201). -/
def repeatTurn (s : State) : State :=
  match s.loop.copies with
  | 0 => { s with emit.rleRun := 0, pos := .extract }
  | n + 1 => emitByte s.emit.rleLast { s with loop.copies := n, pos := .repeated }

/-! ## DONE_CHECK -/

/-- DONE_CHECK (R206 to R208). -/
def doneCheck (s : State) : State :=
  if computedCrc s ≠ s.regs.expectedCrc then raise .blockCrcMismatch .none s
  else complete { s with regs.streamCrc := rotl1 s.regs.streamCrc ^^^ computedCrc s,
                         regs.blockCount := s.regs.blockCount + 1 }

end Sys2Proof.Machine
end

