-- ==== Sys2Proof/Machine/CoreRun.lean ====
section
/-! DEFINITION. Machine/CoreRun.lean: the core. It fetches the element its position calls for, bit by bit or field by
field, decodes it and runs it; and it takes the steps of a command that read no element (spec/00_scope.md R12; log 3). -/

namespace Sys2Proof.Machine

open Host (Outcome)

/-- What the core does with the answer of its InByte(): load the byte, or raise EndOfStream, the failed read consuming
nothing (spec/40_bitreader.md R111, R112; log 16). -/
def useAnswer (a : Answer) (s : State) : State :=
  match a with
  | .data b => loadByte b s
  | .eos => raise .endOfStream .none { s with inAnswer := none }

/-- The fetch of a slot's element, n bits a read. With too few bits buffered the core asks for one byte
(spec/40_bitreader.md R115). Otherwise readBits(n) consumes them, and those behind them stay buffered, however many
(log 21); the element is run once it is whole. -/
def fetch (slot : Slot) (n : Nat) (s : State) : Outcome State Fault Refusal :=
  if s.bitq.length < n then .next (requestByte s)
  else
    let bs := s.loop.elem ++ s.bitq.take n
    match decode slot (.bits bs) with
    | .ok i => exec i { consume n s with loop.elem := [] }
    | .error _ => .next { consume n s with loop.elem := bs }

/-- readBitsCmd(n) behind its acceptance (spec/48_host_commands.md R220). Behind a failed read BITQ may hold up to 31 bits,
so more than 7 may stay behind this one, where spec/10_state.md R36 says 0..7 (log 21). -/
def runReadBits (s : State) : State :=
  let n := s.loop.readCount.toNat
  if s.bitq.length < n then requestByte s
  else complete { consume n s with regs.result := BitVec.ofNat 32 (valOf (s.bitq.take n)) }

/-- checkStreamCrc(a) behind its acceptance (spec/48_host_commands.md R222). -/
def runCheckStreamCrc (s : State) : State :=
  if s.loop.argSample ≠ s.regs.streamCrc then
    let s1 := { s with status.scrcMismatch := true }
    if s.ctrl.strict then raise .streamCrcMismatch .none s1 else complete s1
  else complete s

/-- clearStreamCrc() behind its acceptance (spec/48_host_commands.md R223). -/
def runClearStreamCrc (s : State) : State :=
  complete { s with regs.streamCrc := 0, regs.blockCount := 0, status.scrcMismatch := false }

/-- The BLOCKSIZE check, before any bit is read (spec/45_block_header.md R165). -/
def checkBlockSize (s : State) : State :=
  if Config.minBlockSize ≤ s.bsLatch.toNat ∧ s.bsLatch.toNat ≤ Config.maxBlockSize then
    { s with cap := BitVec.ofNat 20 (Config.capUnit * s.bsLatch.toNat), pos := .blkCrcHi }
  else raise .corruptStream .blockSize s

/-- The range check of the running code length, before each delta (spec/44_selectors.md R155). -/
def codeLengthInRange (s : State) : Bool :=
  decide (1 ≤ s.loop.curr.toNat ∧ s.loop.curr.toNat ≤ Config.maxCodeLen)

/-- nextSymbol() up to its huffDecode (spec/44_selectors.md R157, R159). -/
def startSymbol (s : State) : State :=
  let g := s.sym.symIdx.toNat / Config.groupSize
  if s.nSel.toNat ≤ g then raise .corruptStream .tooManySymbols s
  else { s with loop.table := (memRead .sel s.mem.sel g).toNat, loop.elem := [], pos := .codeword }

/-- The slot the core reads at its position, and how many bits one read of it takes: a whole field, or one bit of an
element whose extent its bits tell (spec/30_encoding.md R95, R102; spec/40_bitreader.md R113, R114, R119). None where
the position reads no element; none too where a code length out of range stops the block before its next delta. -/
def dueSlot (s : State) : Option (Slot × Nat) :=
  match s.pos with
  | .blkCrcHi => some (.blkCrcHi, 16)
  | .blkCrcLo => some (.blkCrcLo, 16)
  | .randomised => some (.randomised, 1)
  | .origPtr => some (.origPtr, 24)
  | .usedRanges => some (.usedRanges, 16)
  | .usedSub => some (.usedSub, 16)
  | .nTables => some (.nTables, 3)
  | .nSelectors => some (.nSelectors, 15)
  | .selector => some (.selectorMtf s.nTab.toNat, 1)
  | .clStart => some (.clStart, 5)
  | .clDelta => if s.loop.elem = [] ∧ codeLengthInRange s = false then none else some (.clDelta, 1)
  | .codeword =>
    let t := s.loop.table
    some (.huffmanCodeword (minLenOf s t) (maxLenOf s t) (limitsOf s t), 1)
  | .rest | .readBits | .checkStreamCrc | .clearStreamCrc | .blockEntry | .nextSymbol | .symbolReady | .bucketBuild
  | .extract | .emitted | .repeatCopies | .repeated | .doneCheck => none

/-- The step at a position that reads no element. -/
def runInternal (s : State) : Outcome State Fault Refusal :=
  match s.pos with
  | .readBits => .next (runReadBits s)
  | .checkStreamCrc => .next (runCheckStreamCrc s)
  | .clearStreamCrc => .next (runClearStreamCrc s)
  | .blockEntry => .next (checkBlockSize s)
  | .clDelta => .next (raise .corruptStream .codeLength s)
  | .nextSymbol => .next (startSymbol s)
  | .symbolReady => exec (decodeSymbol s.used.toNat s.loop.symbol) s
  | .bucketBuild => .next (buildBuckets s)
  | .extract => .next (extractTurn s)
  | .emitted => .next { finishEmit s with pos := .extract }
  | .repeatCopies => .next (repeatTurn s)
  | .repeated => .next { finishEmit s with pos := .repeatCopies }
  | .doneCheck => .next (doneCheck s)
  | .rest | .blkCrcHi | .blkCrcLo | .randomised | .origPtr | .usedRanges | .usedSub | .nTables | .nSelectors
  | .selector | .clStart | .codeword => .next s

/-- What stands at the core's position: the next read of the element due there, or a step that reads none. -/
def runPos (s : State) : Outcome State Fault Refusal :=
  match dueSlot s with
  | some (slot, n) => fetch slot n s
  | none => runInternal s

/-- One step of the core. -/
def coreStep (s : State) : Outcome State Fault Refusal :=
  let s1 := { s with atCut := false }
  match s.inAnswer with
  | some a => .next (useAnswer a s1)
  | none => runPos s1

end Sys2Proof.Machine
end

