-- ==== Sys2Proof/Machine/Flags.lean ====
section
/-! DEFINITION. Machine/Flags.lean: the codes of stages, errors and causes, the words that STATUS, ERR, CTRL and
TABLE_INFO read as, and the interrupt output. -/

namespace Sys2Proof.Machine

/-- Stage codes (spec/10_state.md R53). -/
def Stage.code : Stage → BitVec 4
  | .idle => 0
  | .readHeader => 1
  | .readSymbolMap => 2
  | .readTables => 3
  | .decodeMtfRle2 => 4
  | .buildBucketArray => 5
  | .emitRle1 => 6
  | .doneCheck => 7
  | .readBits => 8
  | .streamOp => 9
  | .error => 15

/-- Error kind codes (spec/60_exceptions.md R241). -/
def ErrKind.code : ErrKind → BitVec 4
  | .none => 0
  | .endOfStream => 1
  | .corruptStream => 2
  | .unsupportedFeature => 3
  | .blockCrcMismatch => 4
  | .streamCrcMismatch => 5

/-- CorruptStream cause codes (spec/60_exceptions.md R242). -/
def Cause.code : Cause → BitVec 8
  | .none => 0x00
  | .blockSize => 0x01
  | .emptyMap => 0x02
  | .tableCount => 0x03
  | .selectorCount => 0x04
  | .selectorRank => 0x05
  | .codeLength => 0x06
  | .codeword => 0x07
  | .tooManySymbols => 0x08
  | .bwtOverflow => 0x09
  | .origPtrRange => 0x0A

/-- STATUS.ERR (spec/10_state.md R29): a view of ERR.KIND. -/
def errFlag (s : State) : Bool := decide (s.err.kind ≠ .none)

/-- STATUS (spec/10_state.md R27 to R36). -/
def statusWord (s : State) : Word :=
  (0 : BitVec 15) ++ BitVec.ofNat 5 s.bitq.length ++ s.stage.code ++ BitVec.ofBool s.status.outWait
    ++ BitVec.ofBool s.status.inWait ++ BitVec.ofBool s.status.inEos ++ BitVec.ofBool s.status.scrcMismatch
    ++ BitVec.ofBool s.status.rejected ++ BitVec.ofBool (errFlag s) ++ BitVec.ofBool s.status.done
    ++ BitVec.ofBool s.status.busy

/-- ERR (spec/10_state.md R37). -/
def errWord (s : State) : Word :=
  (0 : BitVec 12) ++ s.err.stage.code ++ s.err.cause.code ++ (0 : BitVec 4) ++ s.err.kind.code

/-- CTRL (spec/10_state.md R22 to R25). -/
def ctrlWord (s : State) : Word :=
  (0 : BitVec 26) ++ BitVec.ofBool s.ctrl.irqEn ++ BitVec.ofBool s.ctrl.strict ++ s.ctrl.blockSize

/-- TABLE_INFO (spec/10_state.md R48). -/
def tableInfoWord (s : State) : Word :=
  (0 : BitVec 13) ++ s.regs.nTables ++ (0 : BitVec 7) ++ s.regs.usedSyms

/-- The interrupt output, a level (spec/60_exceptions.md R254). -/
def irq (s : State) : Bool := s.ctrl.irqEn && (s.status.done || errFlag s)

end Sys2Proof.Machine
end

