-- ==== Sys2Proof/Machine/Registers.lean ====
section
/-! DEFINITION. Machine/Registers.lean: the host register window (spec/10_state.md R20, spec/20_memory.md R71, R72,
R78): which register an address reaches, what it reads as, what a write does. A write to CMD is
Machine/HostAgent.lean. -/

namespace Sys2Proof.Machine

/-- The registers of the window (spec/10_state.md R20). -/
inductive Reg where
  | id | ctrl | cmd | status | err | arg | result | expectedCrc | computedCrc | streamCrc | origPtr | bwtLen | outCount
  | bitCount | blockCount | tableInfo | nSelectors | symCount | reserved
  deriving DecidableEq, Repr

/-- The register at an offset (spec/10_state.md R20, R51). -/
def regAt (addr : Nat) : Reg :=
  match addr with
  | 0x00 => .id
  | 0x04 => .ctrl
  | 0x08 => .cmd
  | 0x0C => .status
  | 0x10 => .err
  | 0x14 => .arg
  | 0x18 => .result
  | 0x1C => .expectedCrc
  | 0x20 => .computedCrc
  | 0x24 => .streamCrc
  | 0x28 => .origPtr
  | 0x2C => .bwtLen
  | 0x30 => .outCount
  | 0x34 => .bitCount
  | 0x38 => .blockCount
  | 0x3C => .tableInfo
  | 0x40 => .nSelectors
  | 0x44 => .symCount
  | _ => .reserved

/-- A legal access: 4 bytes, aligned, inside the window (spec/20_memory.md R71). -/
def legalAccess (addr width : Nat) : Bool := decide (width = 4 ∧ addr % 4 = 0 ∧ addr < Config.windowBytes)

/-- The word a register holds (spec/10_state.md R21 to R51). -/
def regWord (s : State) : Reg → Word
  | .id => Config.idValue
  | .ctrl => ctrlWord s
  | .cmd => 0
  | .status => statusWord s
  | .err => errWord s
  | .arg => s.regs.arg
  | .result => s.regs.result
  | .expectedCrc => s.regs.expectedCrc
  | .computedCrc => computedCrc s
  | .streamCrc => s.regs.streamCrc
  | .origPtr => s.regs.origPtr.setWidth 32
  | .bwtLen => s.regs.bwtLenReg.setWidth 32
  | .outCount => s.regs.outCount
  | .bitCount => s.regs.bitCount
  | .blockCount => s.regs.blockCount
  | .tableInfo => tableInfoWord s
  | .nSelectors => s.regs.nSelectors.setWidth 32
  | .symCount => s.sym.symIdx.setWidth 32
  | .reserved => 0

/-- The registers that read as any value while BUSY = 1 (spec/10_state.md R52). -/
def undefinedWhileBusy : Reg → Bool
  | .result | .expectedCrc | .computedCrc | .streamCrc | .origPtr | .bwtLen | .outCount | .bitCount | .blockCount
  | .tableInfo | .nSelectors | .symCount => true
  | .id | .ctrl | .cmd | .status | .err | .arg | .reserved => false

/-- A read of the register gives a free value: a result register while busy (spec/10_state.md R52; log 6). While
reset is asserted every read gives 0 (spec/70_reset_and_hazards.md R270). -/
def readsFree (r : Reg) (s : State) : Bool := s.status.busy && undefinedWhileBusy r && !s.inReset

/-- The word a legal read returns. -/
def readValue (r : Reg) (s : State) : Word :=
  if s.inReset then 0 else if readsFree r s then Config.busyRead s.freeCount else regWord s r

/-- MemRead(addr, width) by the host (spec/20_memory.md R71, R72). -/
def hostRead (addr width : Nat) (s : State) : State :=
  if legalAccess addr width then
    { s with bus := .data (readValue (regAt addr) s),
             freeCount := s.freeCount + (readsFree (regAt addr) s).toNat }
  else { s with bus := .busError }

/-- The word the last host access returned. -/
def busWord (s : State) : Word :=
  match s.bus with
  | .data v => v
  | _ => 0

/-- A write to CTRL (spec/10_state.md R22 to R25). -/
def writeCtrl (v : Word) (s : State) : State :=
  { s with ctrl := { blockSize := v.extractLsb' 0 4, strict := v.getLsbD 4, irqEn := v.getLsbD 5 } }

/-- A write to ARG (spec/10_state.md R38). -/
def writeArg (v : Word) (s : State) : State := { s with regs.arg := v }

/-- A legal write to any register but CMD: it has an effect at CTRL and ARG only (spec/20_memory.md R72); none at all
while reset is asserted (spec/70_reset_and_hazards.md R270). -/
def writePlainReg (r : Reg) (v : Word) (s : State) : State :=
  if s.inReset then s
  else match r with
    | .ctrl => writeCtrl v s
    | .arg => writeArg v s
    | .id | .cmd | .status | .err | .result | .expectedCrc | .computedCrc | .streamCrc | .origPtr | .bwtLen | .outCount
    | .bitCount | .blockCount | .tableInfo | .nSelectors | .symCount | .reserved => s

/-- Byte lane k of a register on a byte-addressed bus, k = 0..3 (spec/20_memory.md R78). -/
def byteLane (v : Word) (k : Nat) : Byte := v.extractLsb' (8 * k) 8

end Sys2Proof.Machine
end

