-- ==== Sys2Proof/Machine/HostAgent.lean ====
section
/-! DEFINITION. Machine/HostAgent.lean: the host's accesses to the register window (spec/20_memory.md R71, R72), a
command word among them (spec/48_host_commands.md R215, R216), and the host's stream procedure
(spec/70_reset_and_hazards.md R275; log 8). -/

namespace Sys2Proof.Machine

open Host (Outcome)

/-- A command word offered to the core: a defined one runs, any other is rejected (spec/48_host_commands.md R215,
R216). -/
def offerCommand (w : Word) (s : State) : Outcome State Fault Refusal :=
  match decode .command (.word w) with
  | .ok i => exec i s
  | .error _ => .next (reject s)

/-- MemWrite(addr, width, v) by the host (spec/20_memory.md R71, R72; spec/70_reset_and_hazards.md R270). -/
def hostWrite (addr width : Nat) (v : Word) (s : State) : Outcome State Fault Refusal :=
  if legalAccess addr width then
    if regAt addr = .cmd ∧ s.inReset = false then offerCommand v { s with bus := .written }
    else .next { writePlainReg (regAt addr) v s with bus := .written }
  else .next { s with bus := .busError }

/-- A host access. -/
def hostAccess (a : Access) (s : State) : Outcome State Fault Refusal :=
  match a with
  | .read addr width => .next (hostRead addr width s)
  | .write addr width v => hostWrite addr width v s

/-! ## The stream procedure (spec/70_reset_and_hazards.md R275) -/

/-- Offsets the procedure uses (spec/10_state.md R20). -/
def offCtrl : Nat := 0x04
def offCmd : Nat := 0x08
def offStatus : Nat := 0x0C
def offArg : Nat := 0x14
def offResult : Nat := 0x18
def offBitCount : Nat := 0x34

/-- How many bits each field has. -/
def fieldBits (h : HostAgent) : HostField → BitVec 8
  | .streamMagic => 24
  | .levelDigit => 8
  | .magicHi => 24
  | .magicLo => 24
  | .streamCrc => 32
  | .padding => h.padBits

/-- READ48's value a << 24 | b, exact: each of a and b is a whole word (spec/30_encoding.md R104; log 8). -/
def read48 (a b : Word) : BitVec 56 := (a.setWidth 56 <<< 24) ||| b.setWidth 56

/-- The n bits of a value, or all its bits where it has a 1 above them. An EXPECT line tests the whole value
(spec/70_reset_and_hazards.md R275), and bits that are too many are no element. -/
def elementBits {w : Nat} (n : Nat) (v : BitVec w) : Bits :=
  if v.toNat < 2 ^ n then bitsOf (v.setWidth n) else bitsOf v

/-- The slot of the element that a field completes, and the bits of the value read. -/
def fieldCode (h : HostAgent) (f : HostField) (v : Word) : Slot × Bits :=
  match f with
  | .streamMagic => (.streamMagic, elementBits 24 v)
  | .levelDigit => (.levelDigit, elementBits 8 v)
  | .magicHi | .magicLo => (.blockOrEosMagic, elementBits 48 (read48 h.hi v))
  | .streamCrc | .padding => (.streamCrc, bitsOf v)

/-- The message of the EXPECT line that a wrong field fails. -/
def fieldStop : HostField → HostStop
  | .levelDigit => .badLevel
  | .streamMagic | .magicHi | .magicLo | .streamCrc | .padding => .badMagic

/-- WAIT -> s, then EXPECT s[2] == 0: poll STATUS until BUSY is 0. -/
def pollStatus (stop : HostStop) (next : HostPhase) (s : State) : State :=
  let s1 := hostRead offStatus 4 s
  let w := busWord s1
  let s2 := { s1 with host.status := w }
  if w.getLsbD 0 then s2
  else if w.getLsbD 2 then { s2 with host.phase := .stopped stop }
  else { s2 with host.phase := next }

/-- RD RESULT -> v, and what the procedure does with v: a half magic is kept, padding is dropped, a whole element is
decoded and run; a field that is no element stops the procedure (spec/60_exceptions.md R262). -/
def takeField (f : HostField) (s : State) : Outcome State Fault Refusal :=
  let s1 := hostRead offResult 4 s
  let v := busWord s1
  match f with
  | .magicHi => .next { s1 with host.hi := v, host.phase := .issue .magicLo }
  | .padding => .next { s1 with host.phase := .finished }
  | .streamMagic | .levelDigit | .magicLo | .streamCrc =>
    let (slot, bs) := fieldCode s.host f v
    match decode slot (.bits bs) with
    | .ok i => exec i s1
    | .error _ => .next { s1 with host.phase := .stopped (fieldStop f) }

/-- RD BIT_COUNT -> b: the padding to the next byte, if any. -/
def readBitCount (s : State) : State :=
  let s1 := hostRead offBitCount 4 s
  let r := (busWord s1).toNat % 8
  if r = 0 then { s1 with host.phase := .finished }
  else { s1 with host.padBits := BitVec.ofNat 8 (8 - r), host.phase := .issue .padding }

/-- RD CTRL -> ctrl. Another host access may come between this read and the write of levelWord (spec/20_memory.md
R88). -/
def readCtrl (s : State) : State :=
  let s1 := hostRead offCtrl 4 s
  { s1 with host.ctrl := busWord s1, host.phase := .writeCtrl }

/-- The word of WR CTRL, (ctrl & ~0xF) | (d - 0x30). -/
def levelWord (h : HostAgent) : Word := (h.ctrl &&& ~~~0xF#32) ||| h.level.setWidth 32

/-- One access of the stream procedure. -/
def hostProcedure (s : State) : Outcome State Fault Refusal :=
  match s.host.phase with
  | .off | .stopped _ | .finished => .next s
  | .issue f => hostWrite offCmd 4 (commandWord 0x10 (fieldBits s.host f)) { s with host.phase := .wait f }
  | .wait f => .next (pollStatus .readError (.take f) s)
  | .take f => takeField f s
  | .readCtrl => .next (readCtrl s)
  | .writeCtrl => hostWrite offCtrl 4 (levelWord s.host) { s with host.phase := .issue .magicHi }
  | .issueDecode => hostWrite offCmd 4 (commandWord 0x20 0) { s with host.phase := .waitDecode }
  | .waitDecode => .next (pollStatus .blockError (.issue .magicHi) s)
  | .writeArg => hostWrite offArg 4 s.host.crc { s with host.phase := .issueCheck }
  | .issueCheck => hostWrite offCmd 4 (commandWord 0x30 0) { s with host.phase := .waitCheck }
  | .waitCheck => .next (pollStatus .streamCrcMismatch .readBitCount s)
  | .readBitCount => .next (readBitCount s)

/-! ## Placing one instruction as the next one (log 10) -/

/-- A command word as the next event, the core at a cut. -/
def placeCommand (w : Word) (s : State) : State :=
  { s with schedule := .host (.write offCmd 4 w) :: s.schedule, atCut := true, inReset := false }

/-- A framing field as what the host is about to take from RESULT. -/
def placeField (f : HostField) (hi v : Word) (s : State) : State :=
  { s with schedule := .hostProcedure :: s.schedule, atCut := true, inReset := false, status.busy := false,
           regs.result := v, host.phase := .take f, host.hi := hi }

end Sys2Proof.Machine
end

