-- ==== Sys2Proof/Machine/Schedule.lean ====
section
/-! DEFINITION. Machine/Schedule.lean: which agent moves next (spec/00_scope.md R10 to R12,
spec/70_reset_and_hazards.md R270, R284; log 1, log 3). -/

namespace Sys2Proof.Machine

open Host (Outcome)

/-- The core can take a step: a command runs, no port answer is awaited, reset is not asserted. -/
def coreCanStep (s : State) : Bool := s.status.busy && !s.status.inWait && !s.status.outWait && !s.inReset

/-- The core is inside an atomic core step (spec/00_scope.md R12): nothing else may move. -/
def inCoreStep (s : State) : Bool := coreCanStep s && !s.atCut

/-- One event of the schedule. An event that its agent cannot take passes without effect (log 20). -/
def runEvent (e : Event) (s : State) : Outcome State Fault Refusal :=
  match e with
  | .host a => hostAccess a s
  | .hostProcedure => hostProcedure s
  | .core => if coreCanStep s then coreStep s else .next s
  | .source => .next (if s.inReset then s else sourceAnswer s)
  | .sink => .next (if s.inReset then s else sinkAccept s)
  | .resetAssert => .next (resetAssert s)
  | .resetRelease => .next (resetRelease s)

/-- With nothing scheduled every agent moves as soon as it can: the ports answer at once, the core runs, and the host's
procedure goes on when no command runs. -/
def runEager (s : State) : Outcome State Fault Refusal :=
  if s.inReset then .next s
  else if s.status.inWait then .next (sourceAnswer s)
  else if s.status.outWait then .next (sinkAccept s)
  else if s.status.busy then coreStep s
  else hostProcedure s

/-- The next event, or the eager move. -/
def runNext (s : State) : Outcome State Fault Refusal :=
  match s.schedule with
  | e :: rest => runEvent e { s with schedule := rest }
  | [] => runEager s

end Sys2Proof.Machine
end

