-- ==== Sys2Proof/Machine/Step.lean ====
section
/-! DEFINITION. Machine/Step.lean: one step of the machine, and the placing of one instruction as the next one. -/

namespace Sys2Proof.Machine

/-- One step: the core goes on inside its atomic step, else the next event happens. -/
def step (s : State) : Host.Outcome State Fault Refusal :=
  if inCoreStep s then coreStep s else runNext s

/-- The state with the instruction of nbits bits and value w (spec/opcode_table.json's numbering) where the next step
takes its instruction from: a command word as the host's next write to CMD, a framing element as the field the host's
procedure takes next (log 10, log 19). -/
def State.withFetchWord (s : State) (nbits w : Nat) : State :=
  match nbits with
  | 32 => placeCommand (BitVec.ofNat 32 w) s
  | 8 => placeField .levelDigit s.host.hi (BitVec.ofNat 32 w) s
  | 24 => placeField .streamMagic s.host.hi (BitVec.ofNat 32 w) s
  | 48 => placeField .magicLo (BitVec.ofNat 32 (w / 2 ^ 24)) (BitVec.ofNat 32 (w % 2 ^ 24)) s
  | _ => s

end Sys2Proof.Machine
end

