-- ==== Sys2Proof/Safety.lean ====
section
/-! DEFINITION. Safety.lean: what a legal state is, in the terms claims use (each predicate names the rule whose promise
it is), and the functions the block's output is compared with. -/

namespace Sys2Proof.Machine

/-! ## Control (spec/10_state.md R27, R28, R33 to R35, R37, R52, R53) -/

/-- The stage of the core while it stands at a position of a running command (spec/10_state.md R53). -/
def Pos.stage : Pos → Stage
  | .rest => .idle
  | .readBits => .readBits
  | .checkStreamCrc | .clearStreamCrc => .streamOp
  | .blockEntry | .blkCrcHi | .blkCrcLo | .randomised | .origPtr => .readHeader
  | .usedRanges | .usedSub => .readSymbolMap
  | .nTables | .nSelectors | .selector | .clStart | .clDelta => .readTables
  | .nextSymbol | .codeword | .symbolReady => .decodeMtfRle2
  | .bucketBuild => .buildBucketArray
  | .extract | .emitted | .repeatCopies | .repeated => .emitRle1
  | .doneCheck => .doneCheck

/-- BUSY, DONE, STAGE, ERR and the port flags agree: while a command runs STAGE is the stage of its position, no error
is recorded and DONE is 0; when none runs STAGE is IDLE, or ERROR with the error recorded, and no port transaction is
open; at most one port is waited on; a cause is recorded for CorruptStream only. -/
structure ControlLegal (s : State) : Prop where
  busy_pos : s.status.busy = true → s.pos ≠ .rest ∧ s.stage = s.pos.stage
  busy_clear : s.status.busy = true → s.err.kind = .none ∧ s.status.done = false
  idle_pos : s.status.busy = false → s.pos = .rest
  idle_stage : s.status.busy = false →
    (s.err.kind = .none ∧ s.stage = .idle) ∨ (s.err.kind ≠ .none ∧ s.stage = .error ∧ s.status.done = false)
  idle_ports : s.status.busy = false → s.status.inWait = false ∧ s.status.outWait = false ∧ s.inAnswer = none
  one_port : s.status.inWait = true → s.status.outWait = false
  cause_kind : s.err.kind ≠ .corruptStream → s.err.cause = .none
  reset_idle : s.inReset = true → s.status.busy = false

/-! ## Memories (spec/20_memory.md R79 to R82) -/

/-- Every internal memory has its canonical form. -/
structure MemoriesCanonical (m : Mems) : Prop where
  sel : Memory.wf m.sel
  len : Memory.wf m.len
  minLen : Memory.wf m.minLen
  maxLen : Memory.wf m.maxLen
  base : Memory.wf m.base
  limit : Memory.wf m.limit
  perm : Memory.wf m.perm
  byteCount : Memory.wf m.byteCount
  charBase : Memory.wf m.charBase
  bwt : Memory.wf m.bwt
  bucket : Memory.wf m.bucket

/-! ## Move-to-front, symbol map, runs -/

/-- LIT_MTF and SEL_MTF hold permutations of 0..255 (spec/10_state.md R58). -/
def MtfPermutations (s : State) : Prop := s.litMtf.Perm identityMtf ∧ s.selMtf.Perm identityMtf

/-- SYMMAP is strictly ascending; while a range is being read, every value so far lies below it (spec/10_state.md R57,
spec/45_block_header.md R171). -/
def SymMapAscending (s : State) : Prop :=
  s.symMap.Pairwise (· < ·)
    ∧ (s.pos = .usedSub → s.loop.rangeIdx < 16 ∧ ∀ b ∈ s.symMap, b.toNat < 16 * s.loop.rangeIdx)

/-- The positions at which a block's symbols are being decoded. -/
def decodingSymbols (p : Pos) : Bool := decide (p = .nextSymbol ∨ p = .codeword ∨ p = .symbolReady)

/-- The bounds of spec/46_symbol_decode.md R183 and spec/10_state.md R56, R62: CAP is at most 900000; while symbols are
decoded the pending run fits the buffer and RUN_BIT is at most RUN_LEN + 1. -/
def RunsLegal (s : State) : Prop :=
  s.cap.toNat ≤ 900000
    ∧ (decodingSymbols s.pos = true →
        s.sym.bwtLen.toNat + s.sym.runLen.toNat ≤ s.cap.toNat ∧ s.sym.runBit.toNat ≤ s.sym.runLen.toNat + 1)

/-! ## The bit reader (spec/10_state.md R36, R54; spec/40_bitreader.md R112, R115) -/

/-- How many bits the next read at the core's position needs. -/
def bitsNeeded (s : State) : Nat :=
  match s.pos with
  | .readBits => s.loop.readCount.toNat
  | .rest | .checkStreamCrc | .clearStreamCrc | .blockEntry | .nextSymbol | .symbolReady | .bucketBuild | .extract
  | .emitted | .repeatCopies | .repeated | .doneCheck => 0
  | .blkCrcHi | .blkCrcLo | .usedRanges | .usedSub => 16
  | .randomised | .selector | .clDelta | .codeword => 1
  | .origPtr => 24
  | .nTables => 3
  | .nSelectors => 15
  | .clStart => 5

/-- A byte is asked for only when the current read needs more bits than BITQ holds (R115), READ_BITS counts 1..32, and
BITQ never holds more than 39 bits, more than 31 only inside a core step that is about to consume all but at most 7 of
them (R54, R112). That a successful read leaves at most 7 bits (R36) does not hold behind a failed one (log 21). -/
structure BitqLegal (s : State) : Prop where
  count : s.pos = .readBits → 1 ≤ s.loop.readCount.toNat ∧ s.loop.readCount.toNat ≤ 32
  lazy : s.status.inWait = true ∨ s.inAnswer ≠ none → s.bitq.length < bitsNeeded s
  bound : s.bitq.length ≤ 39
  settled : s.bitq.length ≤ 31 ∨ (inCoreStep s = true ∧ s.inAnswer = none ∧ bitsNeeded s ≤ s.bitq.length
    ∧ s.bitq.length ≤ bitsNeeded s + 7)

/-! ## The histogram (spec/46_symbol_decode.md R190) -/

/-- How many of the first n BWT entries hold the byte v. -/
def bwtCount (s : State) (n : Nat) (v : Byte) : Nat :=
  ((List.range n).filter fun i => decide (memRead? s.mem.bwt i = some v)).length

/-- BYTECOUNT counts the bytes of the BWT buffer, every one of whose entries has been written. -/
def HistogramRight (s : State) : Prop :=
  (∀ i < s.sym.bwtLen.toNat, (memRead? s.mem.bwt i).isSome)
    ∧ ∀ v : Byte, ∃ c, memRead? s.mem.byteCount v.toNat = some c ∧ c.toNat = bwtCount s s.sym.bwtLen.toNat v

/-- The positions behind DECODE_MTF_RLE2. -/
def behindSymbols (p : Pos) : Bool :=
  decide (p.stage = .buildBucketArray ∨ p.stage = .emitRle1 ∨ p.stage = .doneCheck)

/-- The block's buffer: while its symbols are decoded, and behind that, it fits CAP and the histogram is right; behind
the symbols ORIG_PTR lies inside it and BWT_LEN is its length (spec/46_symbol_decode.md R183, R187, R188, R190). -/
structure BufferLegal (s : State) : Prop where
  runs : RunsLegal s
  histogram : decodingSymbols s.pos = true ∨ behindSymbols s.pos = true → HistogramRight s
  fits : behindSymbols s.pos = true → s.sym.bwtLen.toNat ≤ s.cap.toNat
  closed : behindSymbols s.pos = true →
    s.regs.origPtr.toNat < s.sym.bwtLen.toNat ∧ s.regs.bwtLenReg = s.sym.bwtLen

/-! ## The block's output (spec/47_bwt_inverse.md R199 to R202) -/

/-- The bytes of n extractions from a bucket entry on: each gives its byte, and its index gives the next entry
(R199). -/
def walk (bucket : Mem Word) : Nat → Word → List Byte
  | 0, _ => []
  | n + 1, ptr => ptr.extractLsb' 0 8 :: walk bucket n (memRead .bucket bucket (ptr >>> 8).toNat)

/-- RLE1 expansion from the run state (run, last): after four equal bytes the next byte is a count (R200, R201). -/
def expandRle1 : List Byte → Nat → Byte → List Byte
  | [], _, _ => []
  | b :: bs, run, last =>
    if run = 4 then List.replicate b.toNat last ++ expandRle1 bs 0 last
    else if run ≠ 0 ∧ b = last then b :: expandRle1 bs (run + 1) last
    else b :: expandRle1 bs 1 b

/-! ## Reset (spec/70_reset_and_hazards.md R271) -/

/-- Every element of R271 that has a reset value holds it, but CTRL and ARG, which SOFT_RESET keeps; no port
transaction is open, an answer the core has not used yet included (log 16). Elements that are views of others (STATUS.ERR, STATUS.STATE, COMPUTED_CRC, SYM_COUNT, irq) follow
from these. -/
structure AtResetValues (t : State) : Prop where
  status : t.status = { busy := false, done := false, rejected := false, scrcMismatch := false, inEos := false,
                        inWait := false, outWait := false }
  err : t.err = { kind := .none, cause := .none, stage := .idle }
  stage : t.stage = .idle
  bitq : t.bitq = []
  results : { t.regs with arg := 0 } =
    { arg := 0, result := 0, expectedCrc := 0, streamCrc := 0, origPtr := 0, bwtLenReg := 0, outCount := 0,
      bitCount := 0, blockCount := 0, usedSyms := 0, nTables := 0, nSelectors := 0 }
  crcAcc : t.crcAcc = 0xFFFFFFFF
  latches : t.bsLatch = 0 ∧ t.cap = 0
  map : t.symMap = [] ∧ t.used = 0 ∧ t.nTab = 0 ∧ t.nSel = 0
  mtf : t.litMtf = identityMtf ∧ t.selMtf = identityMtf
  sym : t.sym = { runLen := 0, runBit := 1, symIdx := 0, bwtLen := 0 }
  emit : t.emit = { ptr := 0, extracted := 0, rleRun := 0, rleLast := 0 }
  outHold : t.outHold = 0
  inAnswer : t.inAnswer = none

/-- The next step is a reset: hardware reset is asserted, or the host writes the word of SOFT_RESET to CMD while it is
not asserted (spec/48_host_commands.md R218, spec/70_reset_and_hazards.md R270, R273). -/
def resetsNext (s : State) : Prop :=
  inCoreStep s = false ∧ (s.schedule.head? = some .resetAssert
    ∨ (s.inReset = false ∧ s.schedule.head? = some (.host (.write 0x08 4 0x00000001))))

/-! ## Schedules (spec/70_reset_and_hazards.md R284; log 1) -/

/-- Only the core, the source and the sink move by this schedule, in any order. -/
def portEvents (es : List Event) : Prop := ∀ e ∈ es, e = .core ∨ e = .source ∨ e = .sink

/-! ## Run numerals (spec/46_symbol_decode.md R189) -/

/-- The length that the run symbols d_0 d_1 … spell: the sum of (d_i + 1) 2^i, RUNA as false and RUNB as true. -/
def runValue : List Bool → Nat
  | [] => 0
  | d :: ds => d.toNat + 1 + 2 * runValue ds

/-- The instruction of a run symbol. -/
def runInstr (d : Bool) : Instr := if d then .runB else .runA

/-- The instructions one after another. -/
def execAll : List Instr → State → Host.Outcome State Fault Refusal
  | [], s => .next s
  | i :: is, s =>
    match exec i s with
    | .next t => execAll is t
    | .fault r => .fault r
    | .refused r => .refused r

/-! ## Canonical codes (spec/43_huffman.md R136, R142) -/

/-- The first codeword of length l: every shorter codeword, extended to l bits, comes before it. -/
def firstCode (lens : List Nat) (l : Nat) : Nat :=
  ((List.range l).map fun j => if j = 0 then 0 else lens.count j * 2 ^ (l - j)).sum

/-- How many symbols have a length from 1 to l - 1. -/
def shorterCount (lens : List Nat) (l : Nat) : Nat :=
  ((List.range l).map fun j => if j = 0 then 0 else lens.count j).sum

/-- How many symbols before symbol k have its length. -/
def rankOf (lens : List Nat) (k : Nat) : Nat := (lens.take k).count (lens.getD k 0)

/-- The l bits of a codeword's value, the most significant first. -/
def codewordBits (l code : Nat) : Bits := bitsOf (BitVec.ofNat l code)

/-- The Kraft sum, in units of 2^-20, is at most 1. -/
def kraft (lens : List Nat) : Prop := (lens.map fun l => 2 ^ (20 - l)).sum ≤ 2 ^ 20

/-- The lengths are the input of a table: 1 to 258 symbols, each of length 1..20 (spec/43_huffman.md R135). -/
def tableLengths (lens : List Nat) : Prop := lens ≠ [] ∧ lens.length ≤ 258 ∧ ∀ l ∈ lens, 1 ≤ l ∧ l ≤ 20

/-! ## The sorted block (spec/47_bwt_inverse.md R195 to R197) -/

/-- The indexes below n, sorted by the byte the BWT buffer holds there, equal bytes in the order of their indexes. -/
def sortedIndexes (bwt : Mem Byte) (n : Nat) : List Nat :=
  (List.range 256).flatMap fun v => (List.range n).filter fun i => decide (memRead? bwt i = some (BitVec.ofNat 8 v))

/-! ## The core's order of stages (spec/10_state.md R53) -/

/-- The stages that may follow a stage in one step, beside itself, IDLE and ERROR. -/
def stageFollows : Stage → Stage → Bool
  | .idle, .readHeader | .idle, .readBits | .idle, .streamOp | .readHeader, .readSymbolMap
  | .readSymbolMap, .readTables | .readTables, .decodeMtfRle2 | .decodeMtfRle2, .buildBucketArray
  | .buildBucketArray, .emitRle1 | .emitRle1, .doneCheck => true
  | _, _ => false

/-- The position an element of the block body or a symbol class stands at (spec/30_encoding.md R95, R100); none for the
host's instructions. -/
def standing : Instr → Option Pos
  | .blkCrcHi _ => some .blkCrcHi
  | .blkCrcLo _ => some .blkCrcLo
  | .randomised _ => some .randomised
  | .origPtr _ => some .origPtr
  | .usedRanges _ => some .usedRanges
  | .usedSub _ => some .usedSub
  | .nTables _ => some .nTables
  | .nSelectors _ => some .nSelectors
  | .selectorMtf _ => some .selector
  | .clStart _ => some .clStart
  | .clDeltaEnd | .clDeltaInc | .clDeltaDec => some .clDelta
  | .huffmanCodeword _ => some .codeword
  | .runA | .runB | .lit _ | .eob => some .symbolReady
  | .nop | .softReset | .clearError | .readBits _ | .decodeBlock | .checkStreamCrc | .clearStreamCrc | .streamMagic
  | .levelDigit _ | .blockMagic | .eosMagic | .streamCrc _ => none

/-- The instruction is one that stands at the position. -/
def standsAt (p : Pos) (i : Instr) : Bool := decide (standing i = some p)

end Sys2Proof.Machine
end

