-- ==== Sys2Proof/Certificates/Slice0/Obligations.lean ====
section
/-! DEFINITION. Certificates/Slice0/Obligations.lean: the statements for the provers. Each docstring names the rule of
spec/ it formalises, or says what is the model's own. The quantifiers range over every state unless a premise says
otherwise; a premise that is an invariant of Safety.lean is stated to be kept by every step in a statement of its own. -/

open Sys2Proof Sys2Proof.Machine

/-! ## Command words (spec/30_encoding.md R90 to R93, spec/48_host_commands.md) -/

/-- R217: NOP changes nothing, in any state. -/
def Obligations.NopKeepsEverything : Prop := ∀ s : State, exec .nop s = .next s

/-- R218, R273: SOFT_RESET, in any state, gives every element of R271 its reset value but CTRL and ARG, the ports' "no
request pending" and "no byte offered" among them, so the command's port transactions are withdrawn; the source and
the sink keep theirs. The internal memories, which R271 leaves unspecified, are not spoken of. That an answer given
and not yet used by the core is withdrawn too (inAnswer = none) is the model's own clause: the held answer is its form
(log 16). -/
def Obligations.SoftResetKeepsOnlyCtrlAndArg : Prop :=
  ∀ s : State, ∃ t, exec .softReset s = .next t ∧ AtResetValues t ∧ t.ctrl = s.ctrl ∧ t.regs.arg = s.regs.arg
    ∧ t.source = s.source ∧ t.sink = s.sink

/-- R219: CLEAR_ERROR, when accepted (BUSY = 0), clears ERR, REJECTED, SCRC_MISMATCH and DONE and returns to IDLE;
nothing else changes. -/
def Obligations.ClearErrorReturnsToIdle : Prop :=
  ∀ s : State, s.status.busy = false →
    exec .clearError s = .next { s with
      err := { kind := .none, cause := .none, stage := .idle }, stage := .idle, status.rejected := false,
      status.scrcMismatch := false, status.done := false }

/-- R92, R216 and R215's table: an undefined word (RSVD ≠ 0, an OPCODE outside the table, N ≠ 0 for an opcode other
than READ_BITS, or READ_BITS with N = 0 or N > 32) in any state, and a defined command whose condition fails
(CLEAR_ERROR while busy; READ_BITS, DECODE_BLOCK, CHECK_STREAM_CRC and CLEAR_STREAM_CRC while busy or error-locked),
set REJECTED and change nothing else. For an undefined word so does the host's write of it to CMD while reset is not
asserted (the answer to the access aside); for a defined one StepRunsTheDecodedInstruction links the write to its
meaning. -/
def Obligations.RejectedWordsOnlySetRejected : Prop :=
  (∀ (w : Word) (s : State),
    (w.extractLsb' 16 16 ≠ 0
      ∨ w.extractLsb' 0 8 ∉ [0x00#8, 0x01#8, 0x02#8, 0x10#8, 0x20#8, 0x30#8, 0x31#8]
      ∨ (w.extractLsb' 8 8 ≠ 0 ∧ w.extractLsb' 0 8 ≠ 0x10)
      ∨ (w.extractLsb' 0 8 = 0x10 ∧ ((w.extractLsb' 8 8).toNat = 0 ∨ 32 < (w.extractLsb' 8 8).toNat))) →
    offerCommand w s = .next { s with status.rejected := true }
    ∧ (s.inReset = false → ∃ b, hostAccess (.write 0x08 4 w) s = .next { s with status.rejected := true, bus := b }))
  ∧ ∀ (s : State) (n : BitVec 8),
    (s.status.busy = true → exec .clearError s = .next { s with status.rejected := true })
    ∧ (s.status.busy = true ∨ s.err.kind ≠ .none →
        exec (.readBits n) s = .next { s with status.rejected := true }
        ∧ exec .decodeBlock s = .next { s with status.rejected := true }
        ∧ exec .checkStreamCrc s = .next { s with status.rejected := true }
        ∧ exec .clearStreamCrc s = .next { s with status.rejected := true })

/-- R215, R220, R222, R223: what the acceptance of READ_BITS, CHECK_STREAM_CRC and CLEAR_STREAM_CRC does in the host's
access: DONE = 0, BUSY = 1, STAGE the command's first stage, the operand sampled; nothing else of the hardware. The
position, the loop variables and the cut are the model's own form of the core's position (log 3, log 13). -/
def Obligations.AcceptedCommandsStart : Prop :=
  ∀ (s : State) (n : BitVec 8), s.status.busy = false → s.err.kind = .none → 1 ≤ n.toNat → n.toNat ≤ 32 →
    exec (.readBits n) s = .next { s with
      status.done := false, status.busy := true, stage := .readBits, pos := .readBits,
      loop.elem := [], loop.readCount := n, atCut := true }
    ∧ exec .checkStreamCrc s = .next { s with
      status.done := false, status.busy := true, stage := .streamOp, pos := .checkStreamCrc,
      loop.elem := [], loop.argSample := s.regs.arg, atCut := true }
    ∧ exec .clearStreamCrc s = .next { s with
      status.done := false, status.busy := true, stage := .streamOp, pos := .clearStreamCrc,
      loop.elem := [], atCut := true }

/-- R165, R215: DECODE_BLOCK latches BLOCKSIZE, seeds the CRC, clears OUT_COUNT, SYM_IDX and bwtLen and checks the
latch before any bit is read: 1..9 gives CAP = 100000 * BS_LATCH, any other value raises CorruptStream(0x01) in
READ_HEADER. That the assignments belong to the acceptance and the check to the core's first step, so that BUSY = 1
shows between them even for a bad BLOCKSIZE, is the model's reading of R165 and R215 (log 15), no rule of the spec.
The position and the cut are the model's form (log 3, log 13). -/
def Obligations.DecodeBlockEntersReadHeader : Prop :=
  ∀ s : State, s.status.busy = false → s.err.kind = .none → s.inAnswer = none → ∃ t u,
    exec .decodeBlock s = .next t
    ∧ t = { s with
        status.done := false, status.busy := true, stage := .readHeader, bsLatch := s.ctrl.blockSize,
        crcAcc := 0xFFFFFFFF, regs.outCount := 0, sym.symIdx := 0, sym.bwtLen := 0, pos := .blockEntry,
        loop.elem := [], atCut := true }
    ∧ coreStep t = .next u
    ∧ (1 ≤ s.ctrl.blockSize.toNat ∧ s.ctrl.blockSize.toNat ≤ 9 →
        u = { t with cap := BitVec.ofNat 20 (100000 * s.ctrl.blockSize.toNat), pos := .blkCrcHi, atCut := false })
    ∧ (¬ (1 ≤ s.ctrl.blockSize.toNat ∧ s.ctrl.blockSize.toNat ≤ 9) →
        u = { t with
          err := { kind := .corruptStream, cause := .blockSize, stage := .readHeader }, stage := .error,
          status.busy := false, status.done := false, pos := .rest, atCut := false })

/-- R220 with R111 and R115: READ_BITS n, from a state where it is accepted and with a source that answers the bytes
it needs: exactly those bytes are taken, RESULT is the value of the next n bits of the stream, the first the most
significant, BIT_COUNT counts them, the bits behind them stay in BITQ (more than 7 where a failed read left them, log
21), and the command completes; nothing else of the hardware changes. `bytes` are the bytes the read needs, none if
BITQ holds n bits. The core, the source and the sink move in any order that the schedule gives, and behind it in the
order of the model's eager default (log 1); an event that its agent cannot take passes (log 20). -/
def Obligations.ReadBitsDeliversTheField : Prop :=
  ∀ (n : BitVec 8) (bytes : List Byte) (rest : List Answer) (s : State),
    s.status.busy = false → s.err.kind = .none → s.status.inWait = false → s.status.outWait = false →
    s.inAnswer = none → s.inReset = false → portEvents s.schedule → 1 ≤ n.toNat → n.toNat ≤ 32 →
    s.source = bytes.map Answer.data ++ rest →
    n.toNat ≤ s.bitq.length + 8 * bytes.length → (bytes = [] ∨ s.bitq.length + 8 * (bytes.length - 1) < n.toNat) →
    ∃ u k es, exec (.readBits n) s = .next u ∧ es <:+ s.schedule
      ∧ core.run k u = .next { s with
          regs.result := BitVec.ofNat 32 (valOf ((s.bitq ++ bytes.flatMap bitsOf).take n.toNat)),
          regs.bitCount := s.regs.bitCount + BitVec.ofNat 32 n.toNat,
          bitq := (s.bitq ++ bytes.flatMap bitsOf).drop n.toNat, source := rest, stage := .idle,
          status.done := true, status.inEos := if bytes = [] then s.status.inEos else false,
          pos := .rest, loop.elem := [], loop.readCount := n, atCut := false, schedule := es }

/-- R220, R243, R112: READ_BITS n when the source answers EOS before n bits are buffered: EndOfStream in READ_BITS,
RESULT and BIT_COUNT unchanged, the bytes loaded stay in BITQ. The core, the source and the sink move in any order that
the schedule gives, and behind it in the order of the model's eager default (log 1); an event that its agent cannot take
passes (log 20). -/
def Obligations.TruncatedReadBitsRaisesEndOfStream : Prop :=
  ∀ (n : BitVec 8) (bytes : List Byte) (rest : List Answer) (s : State),
    s.status.busy = false → s.err.kind = .none → s.status.inWait = false → s.status.outWait = false →
    s.inAnswer = none → s.inReset = false → portEvents s.schedule → 1 ≤ n.toNat → n.toNat ≤ 32 →
    s.source = bytes.map Answer.data ++ Answer.eos :: rest → s.bitq.length + 8 * bytes.length < n.toNat →
    ∃ u k es, exec (.readBits n) s = .next u ∧ es <:+ s.schedule
      ∧ core.run k u = .next { s with
          bitq := s.bitq ++ bytes.flatMap bitsOf, source := rest, stage := .error,
          err := { kind := .endOfStream, cause := .none, stage := .readBits },
          status.done := false, status.inEos := true,
          pos := .rest, loop.elem := [], loop.readCount := n, atCut := false, schedule := es }

/-- R112, R243, R247: when the answer to a request is EOS, whatever the stage, EndOfStream is raised in that stage: the
failed read consumes nothing, the bits loaded so far stay in BITQ, BIT_COUNT and every result register are unchanged. -/
def Obligations.EndOfStreamConsumesNothing : Prop :=
  ∀ s : State, s.inAnswer = some .eos → coreStep s = .next { s with
    err := { kind := .endOfStream, cause := .none, stage := s.stage }, stage := .error, status.busy := false,
    status.done := false, pos := .rest, inAnswer := none, atCut := false }

/-- R222, R227: CHECK_STREAM_CRC compares ARG, as it stands at the acceptance, with STREAM_CRC: a match completes; a
mismatch sets SCRC_MISMATCH and completes with STRICT = 0, and raises StreamCRCMismatch in STREAM_OP with STRICT = 1.
Nothing else of the hardware changes. -/
def Obligations.CheckStreamCrcComparesArg : Prop :=
  ∀ s : State, s.status.busy = false → s.err.kind = .none → s.inAnswer = none → ∃ t u,
    exec .checkStreamCrc s = .next t ∧ t.status = { s.status with done := false, busy := true } ∧ t.stage = .streamOp
    ∧ (∀ v, coreStep { t with regs.arg := v } = .next { u with regs.arg := v })
    ∧ (s.regs.arg = s.regs.streamCrc → u = { t with
        stage := .idle, status.busy := false, status.done := true, pos := .rest, atCut := false })
    ∧ (s.regs.arg ≠ s.regs.streamCrc → s.ctrl.strict = false → u = { t with
        stage := .idle, status.busy := false, status.done := true, status.scrcMismatch := true, pos := .rest,
        atCut := false })
    ∧ (s.regs.arg ≠ s.regs.streamCrc → s.ctrl.strict = true → u = { t with
        err := { kind := .streamCrcMismatch, cause := .none, stage := .streamOp }, stage := .error,
        status.busy := false, status.done := false, status.scrcMismatch := true, pos := .rest, atCut := false })

/-- R223: CLEAR_STREAM_CRC clears STREAM_CRC, BLOCK_COUNT and SCRC_MISMATCH and completes; BITQ, BIT_COUNT and the other
result registers are unchanged. -/
def Obligations.ClearStreamCrcClears : Prop :=
  ∀ s : State, s.status.busy = false → s.err.kind = .none → s.inAnswer = none → ∃ t,
    exec .clearStreamCrc s = .next t ∧ t.stage = .streamOp
    ∧ coreStep t = .next { s with
        regs.streamCrc := 0, regs.blockCount := 0, stage := .idle, status.busy := false, status.done := true,
        status.scrcMismatch := false, pos := .rest, loop.elem := [], atCut := false }

/-! ## The register window (spec/10_state.md section 1, spec/20_memory.md section 1) -/

/-- R71: an access that is not 4 bytes wide, not aligned or not below 0x80 gets a bus error and changes nothing else.
That it does so while hardware reset is asserted as well is the model's choice (log 11): R270 says that accesses read
0 then. The bus answer is the model's form of what the host is told (log 12). -/
def Obligations.IllegalAccessGetsBusError : Prop :=
  ∀ (addr width : Nat) (v : Word) (s : State), ¬ (width = 4 ∧ addr % 4 = 0 ∧ addr < 0x80) →
    hostAccess (.read addr width) s = .next { s with bus := .busError }
    ∧ hostAccess (.write addr width v) s = .next { s with bus := .busError }

/-- R20, R21, R26, R39 to R52: what a legal read of each offset of the window returns while reset is not asserted. ID,
CTRL, CMD, STATUS, ERR, ARG and the reserved offsets read the same whether or not a command runs; every other register
reads its value while none runs and some value, which nothing says, while one does. That STATUS.STATE shows the
current STAGE while a command runs is the model's choice (log 7): R52 only says that it holds a stage the command is
passing through. Nothing but the bus answer changes, and with a value that nothing says the model's counter of such
reads (log 6). -/
def Obligations.RegisterWindowReads : Prop :=
  ∀ s : State, s.inReset = false →
    (∀ a v, (a, v) ∈ ([(0x00, 0x425A4231), (0x04, ctrlWord s), (0x08, 0), (0x0C, statusWord s), (0x10, errWord s),
        (0x14, s.regs.arg)] : List (Nat × Word)) →
      hostAccess (.read a 4) s = .next { s with bus := .data v })
    ∧ (∀ a, 0x48 ≤ a → a ≤ 0x7C → a % 4 = 0 → hostAccess (.read a 4) s = .next { s with bus := .data 0 })
    ∧ ∀ a v, (a, v) ∈ ([(0x18, s.regs.result), (0x1C, s.regs.expectedCrc), (0x20, ~~~s.crcAcc),
        (0x24, s.regs.streamCrc), (0x28, s.regs.origPtr.setWidth 32), (0x2C, s.regs.bwtLenReg.setWidth 32),
        (0x30, s.regs.outCount), (0x34, s.regs.bitCount), (0x38, s.regs.blockCount),
        (0x3C, (0 : BitVec 13) ++ s.regs.nTables ++ (0 : BitVec 7) ++ s.regs.usedSyms),
        (0x40, s.regs.nSelectors.setWidth 32), (0x44, s.sym.symIdx.setWidth 32)] : List (Nat × Word)) →
      (s.status.busy = false → hostAccess (.read a 4) s = .next { s with bus := .data v })
      ∧ (s.status.busy = true → ∃ w, hostAccess (.read a 4) s =
        .next { s with bus := .data w, freeCount := s.freeCount + 1 })

/-- R27 to R37, R53, R241, R242: the fields of STATUS and ERR, bit by bit, with the codes of the stages, the error
kinds and the CorruptStream causes as their tables give them. -/
def Obligations.StatusAndErrFields : Prop :=
  ∀ (s : State) (stages : List (Stage × BitVec 4)) (kinds : List (ErrKind × BitVec 4))
    (causes : List (Cause × BitVec 8)),
    stages = [(.idle, 0), (.readHeader, 1), (.readSymbolMap, 2), (.readTables, 3), (.decodeMtfRle2, 4),
      (.buildBucketArray, 5), (.emitRle1, 6), (.doneCheck, 7), (.readBits, 8), (.streamOp, 9), (.error, 15)] →
    kinds = [(.none, 0), (.endOfStream, 1), (.corruptStream, 2), (.unsupportedFeature, 3), (.blockCrcMismatch, 4),
      (.streamCrcMismatch, 5)] →
    causes = [(.none, 0x00), (.blockSize, 0x01), (.emptyMap, 0x02), (.tableCount, 0x03), (.selectorCount, 0x04),
      (.selectorRank, 0x05), (.codeLength, 0x06), (.codeword, 0x07), (.tooManySymbols, 0x08), (.bwtOverflow, 0x09),
      (.origPtrRange, 0x0A)] →
    (statusWord s).getLsbD 0 = s.status.busy ∧ (statusWord s).getLsbD 1 = s.status.done
    ∧ (statusWord s).getLsbD 2 = decide (s.err.kind ≠ .none) ∧ (statusWord s).getLsbD 3 = s.status.rejected
    ∧ (statusWord s).getLsbD 4 = s.status.scrcMismatch ∧ (statusWord s).getLsbD 5 = s.status.inEos
    ∧ (statusWord s).getLsbD 6 = s.status.inWait ∧ (statusWord s).getLsbD 7 = s.status.outWait
    ∧ (s.stage, (statusWord s).extractLsb' 8 4) ∈ stages
    ∧ (s.bitq.length ≤ 31 → ((statusWord s).extractLsb' 12 5).toNat = s.bitq.length)
    ∧ (statusWord s).extractLsb' 17 15 = 0
    ∧ (s.err.kind, (errWord s).extractLsb' 0 4) ∈ kinds ∧ (errWord s).extractLsb' 4 4 = 0
    ∧ (s.err.cause, (errWord s).extractLsb' 8 8) ∈ causes ∧ (s.err.stage, (errWord s).extractLsb' 16 4) ∈ stages
    ∧ (errWord s).extractLsb' 20 12 = 0

/-- R22 to R25, R38: a write to CTRL takes effect in the access, busy or not: it reads back with [31:6] zero; a write to
ARG reads back whole. Nothing else changes. -/
def Obligations.CtrlAndArgWritesReadBack : Prop :=
  ∀ (v : Word) (s : State), s.inReset = false → ∃ t u,
    hostAccess (.write 0x04 4 v) s = .next t ∧ t = { s with ctrl := t.ctrl, bus := .written }
    ∧ t.ctrl.blockSize = v.extractLsb' 0 4 ∧ t.ctrl.strict = v.getLsbD 4 ∧ t.ctrl.irqEn = v.getLsbD 5
    ∧ hostAccess (.read 0x04 4) t = .next { t with bus := .data (v &&& 0x3F) }
    ∧ hostAccess (.write 0x14 4 v) s = .next u ∧ u = { s with regs.arg := v, bus := .written }
    ∧ hostAccess (.read 0x14 4) u = .next { u with bus := .data v }

/-- R72, R51: a read changes no state of the hardware (the bus answer and the model's counter of undefined reads aside);
a write anywhere but at CTRL, CMD and ARG changes none either. -/
def Obligations.OnlyThreeWritesHaveEffect : Prop :=
  ∀ (a width : Nat) (v : Word) (s : State),
    (∃ b f, hostAccess (.read a width) s = .next { s with bus := b, freeCount := f })
    ∧ (a ≠ 0x04 → a ≠ 0x08 → a ≠ 0x14 → ∃ b, hostAccess (.write a width v) s = .next { s with bus := b })

/-- R254, R255: irq = IRQ_EN & (DONE | ERR), and it follows its inputs: it rises in the step that completes a command or
raises an error with IRQ_EN set, and an accepted CLEAR_ERROR drops it. -/
def Obligations.IrqFollowsDoneAndErr : Prop :=
  ∀ s : State, irq s = (s.ctrl.irqEn && (s.status.done || decide (s.err.kind ≠ .none)))
    ∧ irq (complete s) = s.ctrl.irqEn
    ∧ (∀ k c, k ≠ .none → irq (raise k c s) = s.ctrl.irqEn)
    ∧ (s.status.busy = false → ∃ t, exec .clearError s = .next t ∧ irq t = false)

/-! ## Reset (spec/70_reset_and_hazards.md section 1) -/

/-- R271: every element with a reset value holds it after hardware reset, CTRL and ARG among them; irq is 0. -/
def Obligations.ResetLeavesTheResetValues : Prop :=
  AtResetValues State.reset ∧ State.reset.ctrl = { blockSize := 0, strict := false, irqEn := false }
    ∧ State.reset.regs.arg = 0 ∧ computedCrc State.reset = 0 ∧ irq State.reset = false

/-- R270, R273: while hardware reset is asserted the core takes no step, the ports carry nothing and host accesses have
no effect and read 0: a step that neither asserts nor releases reset changes only the host's own fields and the
schedule. Behind reset every element is at its reset value, CTRL and ARG included, the source and the sink keeping
theirs: R270 says so of the release; that the elements take the values at the assertion, and the release changes none of
them, is the model's choice (log 11). -/
def Obligations.AssertedResetStopsEverything : Prop :=
  ∀ s : State,
    (s.inReset = true → s.schedule.head? ≠ some .resetAssert → s.schedule.head? ≠ some .resetRelease →
      ∃ es h b f, step s = .next { s with schedule := es, host := h, bus := b, freeCount := f })
    ∧ (s.inReset = true → ∀ a, a % 4 = 0 → a < 0x80 →
        hostAccess (.read a 4) s = .next { s with bus := .data 0 })
    ∧ AtResetValues (resetAssert s)
    ∧ (resetAssert s).ctrl = { blockSize := 0, strict := false, irqEn := false } ∧ (resetAssert s).regs.arg = 0
    ∧ (resetAssert s).source = s.source ∧ (resetAssert s).sink = s.sink
    ∧ resetRelease (resetAssert s) = { resetAssert s with inReset := false }

/-! ## Stream framing (spec/30_encoding.md R94, spec/70_reset_and_hazards.md R275) -/

/-- R275, R104, R94, R88: what the host does with the word it reads for each field of the procedure while no command
runs, and with each framing element. A word other than 0x425A68 stops it with "bad magic", one outside 0x31..0x39 with
"bad level", and READ48's a << 24 | b, of two whole words, with "bad magic" unless it is one of the two 48-bit magics:
the EXPECT lines test the whole value. Each right one is the element, and the read is the only access of the move.
Behind the stream's end RD BIT_COUNT -> b asks for 8 - b mod 8 bits of padding, or finishes the procedure if b mod 8 =
0; the padding is dropped, whatever it is, and the procedure is finished. The magics move the host on to the level
digit, to DECODE_BLOCK and to the stream CRC. LEVEL_DIGIT d in 1..9 moves it on to two accesses, each a move of its
own that another host access may precede (log 9): RD CTRL, which keeps the word read and changes no state of the
hardware, and WR CTRL, which gives CTRL.BLOCKSIZE the value d and CTRL's other fields those of the word read, so a
CTRL nobody has written in between keeps them. Any other d stops the host with "bad level". STREAM_CRC c moves it on
to one access, WR ARG, which writes c. Nothing else of the hardware changes. The host's phases and variables are the
model's own form of the procedure (log 8). -/
def Obligations.FramingElementsActAsTheProcedure : Prop :=
  ∀ (s : State) (d : BitVec 4) (c : Word), s.inReset = false →
    exec .streamMagic s = .next { s with host.phase := .issue .levelDigit }
    ∧ exec .blockMagic s = .next { s with host.phase := .issueDecode }
    ∧ exec .eosMagic s = .next { s with host.phase := .issue .streamCrc }
    ∧ (1 ≤ d.toNat ∧ d.toNat ≤ 9 → exec (.levelDigit d) s =
      .next { s with host.level := d, host.phase := .readCtrl })
    ∧ (¬ (1 ≤ d.toNat ∧ d.toNat ≤ 9) → exec (.levelDigit d) s =
      .next { s with host.phase := .stopped .badLevel })
    ∧ (s.host.phase = .readCtrl → hostProcedure s = .next { s with
        bus := .data (ctrlWord s), host.ctrl := ctrlWord s, host.phase := .writeCtrl })
    ∧ (s.host.phase = .writeCtrl → hostProcedure s = .next { s with
        ctrl := { blockSize := s.host.level, strict := s.host.ctrl.getLsbD 4, irqEn := s.host.ctrl.getLsbD 5 }
        bus := .written, host.phase := .issue .magicHi })
    ∧ (s.host.phase = .writeCtrl → s.host.ctrl = ctrlWord s → ∃ t, hostProcedure s = .next t
        ∧ t.ctrl = { s.ctrl with blockSize := s.host.level })
    ∧ exec (.streamCrc c) s = .next { s with host.crc := c, host.phase := .writeArg }
    ∧ (s.host.phase = .writeArg → hostProcedure s = .next { s with
        regs.arg := s.host.crc, bus := .written, host.phase := .issueCheck })
    ∧ (s.status.busy = false →
      (s.host.phase = .take .streamMagic → hostProcedure s = .next { s with
        bus := .data s.regs.result
        host.phase := if s.regs.result = 0x425A68 then .issue .levelDigit else .stopped .badMagic })
      ∧ (s.host.phase = .take .levelDigit → 0x31 ≤ s.regs.result.toNat ∧ s.regs.result.toNat ≤ 0x39 →
        hostProcedure s = .next { s with
          bus := .data s.regs.result, host.level := BitVec.ofNat 4 (s.regs.result.toNat - 0x30)
          host.phase := .readCtrl })
      ∧ (s.host.phase = .take .levelDigit → ¬ (0x31 ≤ s.regs.result.toNat ∧ s.regs.result.toNat ≤ 0x39) →
        hostProcedure s = .next { s with bus := .data s.regs.result, host.phase := .stopped .badLevel })
      ∧ (s.host.phase = .take .magicHi → hostProcedure s = .next { s with
        bus := .data s.regs.result, host.hi := s.regs.result, host.phase := .issue .magicLo })
      ∧ (∀ k, k = s.host.hi.toNat <<< 24 ||| s.regs.result.toNat → s.host.phase = .take .magicLo →
        hostProcedure s = .next { s with
          bus := .data s.regs.result
          host.phase := if k = 0x177245385090 then .issue .streamCrc
            else if k = 0x314159265359 then .issueDecode else .stopped .badMagic })
      ∧ (s.host.phase = .take .streamCrc → hostProcedure s = .next { s with
        bus := .data s.regs.result, host.crc := s.regs.result, host.phase := .writeArg })
      ∧ (s.host.phase = .take .padding → hostProcedure s = .next { s with
        bus := .data s.regs.result, host.phase := .finished })
      ∧ (∀ r, r = s.regs.bitCount.toNat % 8 → s.host.phase = .readBitCount →
        (r = 0 → hostProcedure s = .next { s with bus := .data s.regs.bitCount, host.phase := .finished })
        ∧ (r ≠ 0 → hostProcedure s = .next { s with
          bus := .data s.regs.bitCount, host.padBits := BitVec.ofNat 8 (8 - r), host.phase := .issue .padding })))

/-! ## Block header and symbol map (spec/45_block_header.md) -/

/-- R166, R167, R168: the header's elements in order: EXPECTED_CRC = hi || lo once both halves are read; RANDOMISED = 0
goes on and RANDOMISED = 1 raises UnsupportedFeature; ORIG_PTR is written and READ_SYMBOL_MAP entered. Nothing else
changes (the half CRC and the position are the model's form of the rule's local variables, log 13). -/
def Obligations.HeaderFieldsAreTaken : Prop :=
  ∀ (s : State) (hi lo : BitVec 16) (p : BitVec 24),
    (∃ t, exec (.blkCrcHi hi) s = .next t ∧ t = { s with loop.hi := hi, pos := .blkCrcLo }
      ∧ exec (.blkCrcLo lo) t = .next { s with
          regs.expectedCrc := BitVec.ofNat 32 (hi.toNat * 65536 + lo.toNat), loop.hi := hi, pos := .randomised })
    ∧ exec (.blkCrcLo lo) s = .next { s with regs.expectedCrc := s.loop.hi ++ lo, pos := .randomised }
    ∧ exec (.randomised false) s = .next { s with pos := .origPtr }
    ∧ exec (.randomised true) s = .next { s with
        err := { kind := .unsupportedFeature, cause := .none, stage := s.stage }, stage := .error,
        status.busy := false, status.done := false, pos := .rest }
    ∧ exec (.origPtr p) s = .next { s with regs.origPtr := p, stage := .readSymbolMap, pos := .usedRanges }

/-- R169, R170, R172, R173: USED_RANGES starts an empty SYMMAP and USED_SUB of range i appends 16 i + j for each j whose
bit 15 - j is set, in increasing order. If a range behind is used the first such comes next; else USED and USED_SYMS are
the map's size, and an empty map raises CorruptStream(0x02), any other enters READ_TABLES. Nothing else changes. -/
def Obligations.SymbolMapIsCollected : Prop :=
  ∀ (s : State) (u : BitVec 16),
    -- the state that has taken the element, and the first range to look at
    ∀ (t0 : State) (l : List Byte) (i : Nat) (ins : Instr),
      (ins = .usedRanges u ∧ t0 = { s with loop.used16 := u, symMap := [] } ∧ l = [] ∧ i = 0)
      ∨ (ins = .usedSub u ∧ s.loop.rangeIdx < 16 ∧ t0 = s ∧ i = s.loop.rangeIdx + 1 ∧ l.Pairwise (· < ·)
          ∧ ∀ b : Byte, b ∈ l ↔ ∃ j < 16, u.getLsbD (15 - j) = true ∧ b.toNat = 16 * s.loop.rangeIdx + j) →
      (∀ j, i ≤ j → j < 16 → t0.loop.used16.getLsbD (15 - j) = true →
        (∀ k, i ≤ k → k < j → t0.loop.used16.getLsbD (15 - k) = false) →
        exec ins s = .next { t0 with symMap := t0.symMap ++ l, loop.rangeIdx := j, pos := .usedSub })
      ∧ ((∀ j, i ≤ j → j < 16 → t0.loop.used16.getLsbD (15 - j) = false) → (t0.symMap ++ l).length ≤ 256 →
        (t0.symMap ++ l ≠ [] → exec ins s = .next { t0 with
          symMap := t0.symMap ++ l, used := BitVec.ofNat 9 (t0.symMap ++ l).length,
          regs.usedSyms := BitVec.ofNat 9 (t0.symMap ++ l).length, stage := .readTables, pos := .nTables })
        ∧ (t0.symMap ++ l = [] → exec ins s = .next { t0 with
          symMap := [], used := 0, regs.usedSyms := 0,
          err := { kind := .corruptStream, cause := .emptyMap, stage := s.stage }, stage := .error,
          status.busy := false, status.done := false, pos := .rest }))

/-! ## Tables (spec/44_selectors.md, spec/43_huffman.md) -/

/-- R150, R151: N_TABLES 2..6 and N_SELECTORS 1..32767 are latched and shown; N_TABLES 0, 1 or 7 raises
CorruptStream(0x03) and N_SELECTORS = 0 CorruptStream(0x04), the latch written, the register not. Behind N_SELECTORS the
selector sequence starts with SEL_MTF the identity (R152). Nothing else changes. -/
def Obligations.TableAndSelectorCounts : Prop :=
  ∀ (s : State) (t : BitVec 3) (n : BitVec 15),
    (2 ≤ t.toNat ∧ t.toNat ≤ 6 → exec (.nTables t) s = .next { s with
      nTab := t, regs.nTables := t, pos := .nSelectors })
    ∧ (¬ (2 ≤ t.toNat ∧ t.toNat ≤ 6) → exec (.nTables t) s = .next { s with
      nTab := t, err := { kind := .corruptStream, cause := .tableCount, stage := s.stage }, stage := .error,
      status.busy := false, status.done := false, pos := .rest })
    ∧ (1 ≤ n.toNat → exec (.nSelectors n) s = .next { s with
      nSel := n, regs.nSelectors := n, selMtf := (List.range 256).map (BitVec.ofNat 8), loop.selIdx := 0,
      pos := .selector })
    ∧ (n = 0 → exec (.nSelectors n) s = .next { s with
      nSel := n, err := { kind := .corruptStream, cause := .selectorCount, stage := s.stage }, stage := .error,
      status.busy := false, status.done := false, pos := .rest })

/-- R152, R153: a SELECTOR_MTF of rank r below NTAB stores the promoted value as selector k and no other; then the
next selector, or the first table's code lengths. A rank of NTAB raises CorruptStream(0x05), storing nothing. `v` is
the value SEL_MTF holds at r. -/
def Obligations.SelectorIsPromotedAndStored : Prop :=
  ∀ (s : State) (r : Nat) (v : Byte), s.selMtf[r]? = some v →
    (r < s.nTab.toNat → ∃ t, exec (.selectorMtf r) s = .next t
      ∧ (∀ a, memRead? t.mem.sel a = if a = s.loop.selIdx then some (v.setWidth 3) else memRead? s.mem.sel a)
      ∧ t = { s with
          selMtf := (promote .selMtf s.selMtf r).2, mem.sel := t.mem.sel, loop.selIdx := s.loop.selIdx + 1,
          loop.table := if s.loop.selIdx + 1 < s.nSel.toNat then s.loop.table else 0,
          pos := if s.loop.selIdx + 1 < s.nSel.toNat then .selector else .clStart })
    ∧ (s.nTab.toNat ≤ r → exec (.selectorMtf r) s = .next { s with
        err := { kind := .corruptStream, cause := .selectorRank, stage := s.stage }, stage := .error,
        status.busy := false, status.done := false, pos := .rest })

/-- R154, R98: CL_START sets the running length and starts at symbol 0; "10" adds one to it and "11" takes one off, in
the width of CL_START's field. Nothing else changes. -/
def Obligations.CodeLengthDeltas : Prop :=
  ∀ (s : State) (l : BitVec 5),
    exec (.clStart l) s = .next { s with loop.curr := l, loop.symIdx := 0, pos := .clDelta }
    ∧ exec .clDeltaInc s = .next { s with loop.curr := s.loop.curr + 1, pos := .clDelta }
    ∧ exec .clDeltaDec s = .next { s with loop.curr := s.loop.curr - 1, pos := .clDelta }

/-- R155: a running length outside 1..20 raises CorruptStream(0x06) before the next delta is read: no bit is consumed
and no byte asked for. -/
def Obligations.CodeLengthIsCheckedBeforeEachDelta : Prop :=
  ∀ s : State, s.pos = .clDelta → s.loop.elem = [] → s.inAnswer = none →
    ¬ (1 ≤ s.loop.curr.toNat ∧ s.loop.curr.toNat ≤ 20) →
    coreStep s = .next { s with
      err := { kind := .corruptStream, cause := .codeLength, stage := s.stage }, stage := .error,
      status.busy := false, status.done := false, pos := .rest, atCut := false }

/-- R154, R156, R180: the delta "0" stores the running length as LEN[t][s] and no other entry; the next symbol keeps it,
the next table starts behind the last symbol. Behind the last symbol of the last table the tables are built (their
contents: HuffmanTablesAreBuilt) and DECODE_MTF_RLE2 is entered: LIT_MTF the identity, RUN_LEN 0, RUN_BIT 1, bwtLen 0,
every BYTECOUNT[v] 0, SEL, BWT, CHARBASE and BUCKET untouched. -/
def Obligations.CodeLengthIsStored : Prop :=
  ∀ s : State, ∃ t, exec .clDeltaEnd s = .next t
    ∧ (∀ a, memRead? t.mem.len a =
        if a = 258 * s.loop.table + s.loop.symIdx then some s.loop.curr else memRead? s.mem.len a)
    ∧ (s.loop.symIdx + 1 < s.used.toNat + 2 → t = { s with
        mem.len := t.mem.len, loop.symIdx := s.loop.symIdx + 1, pos := .clDelta })
    ∧ (s.used.toNat + 2 ≤ s.loop.symIdx + 1 → s.loop.table + 1 < s.nTab.toNat → t = { s with
        mem.len := t.mem.len, loop.symIdx := s.loop.symIdx + 1, loop.table := s.loop.table + 1, pos := .clStart })
    ∧ (s.used.toNat + 2 ≤ s.loop.symIdx + 1 → s.nTab.toNat ≤ s.loop.table + 1 → ∀ u : State,
        u = (List.range s.nTab.toNat).foldl huffBuild
          { s with mem.len := t.mem.len, loop.symIdx := s.loop.symIdx + 1 } →
        t = { s with
          litMtf := (List.range 256).map (BitVec.ofNat 8), sym.runLen := 0, sym.runBit := 1, sym.bwtLen := 0,
          loop.symIdx := s.loop.symIdx + 1, stage := .decodeMtfRle2, pos := .nextSymbol,
          mem := { u.mem with byteCount := t.mem.byteCount } }
        ∧ (∀ v < 256, memRead? t.mem.byteCount v = some 0)
        ∧ t.mem.sel = s.mem.sel ∧ t.mem.charBase = s.mem.charBase ∧ t.mem.bwt = s.mem.bwt
        ∧ t.mem.bucket = s.mem.bucket)

/-- R136: the tables built from the code lengths of table t: MINLEN and MAXLEN are their least and greatest; for each
length between, LIMIT is the last codeword of that length (the first one less one where no symbol has it) and BASE the
first codeword less the number of shorter symbols; PERM lists the symbols by (length, symbol). Entries of other tables
are untouched, and so is every other field. -/
def Obligations.HuffmanTablesAreBuilt : Prop :=
  ∀ (s : State) (t : Nat) (lens : List Nat), lens = lengthsOf s t → tableLengths lens →
    ∃ u mn mx, huffBuild s t = u ∧ minLenOf u t = mn ∧ maxLenOf u t = mx
    ∧ mn ∈ lens ∧ mx ∈ lens ∧ (∀ l ∈ lens, mn ≤ l ∧ l ≤ mx)
    ∧ (∀ l, mn ≤ l → l ≤ mx → limitOf u t l = firstCode lens l + lens.count l - 1
        ∧ baseOf u t l = firstCode lens l - shorterCount lens l ∧ shorterCount lens l ≤ firstCode lens l)
    ∧ (∃ perm : List Nat, perm.Perm (List.range lens.length)
        ∧ perm.Pairwise (fun a b => lens.getD a 0 < lens.getD b 0 ∨ (lens.getD a 0 = lens.getD b 0 ∧ a < b))
        ∧ ∀ j < lens.length, memRead? u.mem.perm (258 * t + j) = (perm[j]?).map (BitVec.ofNat 9))
    ∧ u = { s with mem := { s.mem with
        minLen := u.mem.minLen, maxLen := u.mem.maxLen, base := u.mem.base, limit := u.mem.limit,
        perm := u.mem.perm } }
    ∧ (∀ a, a ≠ t → memRead? u.mem.minLen a = memRead? s.mem.minLen a ∧ memRead? u.mem.maxLen a = memRead? s.mem.maxLen a)
    ∧ (∀ a, a < 32 * t ∨ 32 * t + 32 ≤ a →
        memRead? u.mem.base a = memRead? s.mem.base a ∧ memRead? u.mem.limit a = memRead? s.mem.limit a)
    ∧ (∀ a, a < 258 * t ∨ 258 * t + 258 ≤ a → memRead? u.mem.perm a = memRead? s.mem.perm a)

/-- R142: for lengths that satisfy Kraft's inequality, the codeword of every symbol (the first of its length plus the
symbol's rank among those of its length), fed bit by bit into the decoder of the table built from them, is recognised at
its last bit and not before, and stands for that symbol. -/
def Obligations.CanonicalCodewordsDecode : Prop :=
  ∀ (s : State) (t : Nat) (lens : List Nat), lens = lengthsOf s t → tableLengths lens → kraft lens →
    ∀ k < lens.length, ∀ (u : State) (l : Nat) (h : Bits) (slot : Slot), u = huffBuild s t → l = lens.getD k 0 →
      h = codewordBits l (firstCode lens l + rankOf lens k) →
      slot = .huffmanCodeword (minLenOf u t) (maxLenOf u t) (limitsOf u t) →
      decode slot (.bits h) = .ok (.huffmanCodeword h)
      ∧ (∀ n < l, decode slot (.bits (h.take n)) = .error .incomplete)
      ∧ valOf h ≤ limitOf u t h.length ∧ symbolOf u t h = BitVec.ofNat 9 k

/-- R157, R159: with SYM_IDX div 50 below NSEL the next codeword is read with the table that selector gives; else
CorruptStream(0x08) is raised before any bit is read. `v` is the selector's value. -/
def Obligations.SelectorChoosesTheTable : Prop :=
  ∀ (s : State) (v : BitVec 3), s.pos = .nextSymbol → s.inAnswer = none →
    (s.sym.symIdx.toNat / 50 < s.nSel.toNat → memRead? s.mem.sel (s.sym.symIdx.toNat / 50) = some v →
      coreStep s = .next { s with loop.table := v.toNat, loop.elem := [], pos := .codeword, atCut := false })
    ∧ (s.nSel.toNat ≤ s.sym.symIdx.toNat / 50 → coreStep s = .next { s with
        err := { kind := .corruptStream, cause := .tooManySymbols, stage := s.stage }, stage := .error,
        status.busy := false, status.done := false, pos := .rest, atCut := false })

/-- R137, R157, R158: a codeword within its length's limit gives the symbol PERM[t][codeBits - BASE[t][L]] and counts
it, whatever its class; one that is not (at MAXLEN) raises CorruptStream(0x07) and counts nothing. Nothing else
changes. -/
def Obligations.CodewordGivesItsSymbol : Prop :=
  ∀ (s : State) (h : Bits) (lim base : Word) (v : BitVec 9),
    memRead? s.mem.limit (32 * s.loop.table + h.length) = some lim →
    (valOf h ≤ lim.toNat → memRead? s.mem.base (32 * s.loop.table + h.length) = some base →
      memRead? s.mem.perm (258 * s.loop.table + (valOf h - base.toNat)) = some v →
      exec (.huffmanCodeword h) s = .next { s with
        loop.symbol := v, sym.symIdx := s.sym.symIdx + 1, pos := .symbolReady })
    ∧ (lim.toNat < valOf h → exec (.huffmanCodeword h) s = .next { s with
        err := { kind := .corruptStream, cause := .codeword, stage := s.stage }, stage := .error,
        status.busy := false, status.done := false, pos := .rest })

/-! ## Symbols (spec/46_symbol_decode.md) -/

/-- R181, R182, R183: RUNA adds RUN_BIT to RUN_LEN and RUNB twice RUN_BIT; RUN_BIT doubles; a run that no longer fits
the buffer raises CorruptStream(0x09), the two registers updated. Nothing else changes. -/
def Obligations.RunSymbolsExtendTheRun : Prop :=
  ∀ (s : State) (i : Instr) (n : Word), (i = .runA ∧ n = s.sym.runBit) ∨ (i = .runB ∧ n = s.sym.runBit <<< 1) →
    (s.sym.bwtLen.toNat + (s.sym.runLen + n).toNat ≤ s.cap.toNat → exec i s = .next { s with
      sym.runLen := s.sym.runLen + n, sym.runBit := s.sym.runBit <<< 1, pos := .nextSymbol })
    ∧ (s.cap.toNat < s.sym.bwtLen.toNat + (s.sym.runLen + n).toNat → exec i s = .next { s with
      sym.runLen := s.sym.runLen + n, sym.runBit := s.sym.runBit <<< 1,
      err := { kind := .corruptStream, cause := .bwtOverflow, stage := s.stage }, stage := .error,
      status.busy := false, status.done := false, pos := .rest })

/-- R189: run symbols d_0 … d_(k-1), from an empty run and within the buffer, give a run of length Σ (d_i + 1) 2^i; and
every length n has exactly one such spelling. -/
def Obligations.RunsAreBijectiveNumerals : Prop :=
  (∀ (ds : List Bool) (s : State), s.pos = .nextSymbol → s.sym.runLen = 0 → s.sym.runBit = 1 →
      s.cap.toNat ≤ 900000 → s.sym.bwtLen.toNat + runValue ds ≤ s.cap.toNat →
      execAll (ds.map runInstr) s = .next { s with
        sym.runLen := BitVec.ofNat 32 (runValue ds), sym.runBit := BitVec.ofNat 32 (2 ^ ds.length) })
    ∧ ∀ n, ∃ ds, runValue ds = n ∧ ∀ ds', runValue ds' = n → ds' = ds

/-- R184, R185, R186, R131: LIT s: a pending run of n bytes v0 (SYMMAP[front]) is stored first and counted, and reset.
With room behind it the byte v = SYMMAP[LIT_MTF[s - 1]] is stored and counted and LIT_MTF promoted at s - 1. Without
room CorruptStream(0x09) is raised before the byte is written, LIT_MTF not promoted. Every other BWT and BYTECOUNT entry
reads as before and nothing else changes. -/
def Obligations.LiteralIsStoredBehindTheRun : Prop :=
  ∀ (s : State) (sym : BitVec 9) (r r0 v v0 : Byte) (n len : Nat) (c c0 : BitVec 20),
    n = s.sym.runLen.toNat → len = s.sym.bwtLen.toNat → s.cap.toNat ≤ 900000 → len + n ≤ s.cap.toNat →
    2 ≤ sym.toNat → sym.toNat ≤ s.used.toNat → s.litMtf[sym.toNat - 1]? = some r → s.symMap[r.toNat]? = some v →
    s.litMtf[0]? = some r0 → s.symMap[r0.toNat]? = some v0 →
    memRead? s.mem.byteCount v.toNat = some c → memRead? s.mem.byteCount v0.toNat = some c0 →
    ∃ t, exec (.lit sym) s = .next t
      ∧ (∀ a, a ≠ v.toNat → a ≠ v0.toNat → memRead? t.mem.byteCount a = memRead? s.mem.byteCount a)
      ∧ (v ≠ v0 → memRead? t.mem.byteCount v0.toNat = some (c0 + BitVec.ofNat 20 n))
      ∧ (len + n + 1 ≤ s.cap.toNat →
        (∀ a, memRead? t.mem.bwt a =
          if a = len + n then some v else if len ≤ a ∧ a < len + n then some v0 else memRead? s.mem.bwt a)
        ∧ memRead? t.mem.byteCount v.toNat = some (c + BitVec.ofNat 20 ((if v = v0 then n else 0) + 1))
        ∧ t = { s with
          litMtf := r :: s.litMtf.eraseIdx (sym.toNat - 1),
          sym.bwtLen := BitVec.ofNat 20 (len + n + 1), sym.runLen := 0,
          sym.runBit := if n = 0 then s.sym.runBit else 1, pos := .nextSymbol,
          mem := { s.mem with bwt := t.mem.bwt, byteCount := t.mem.byteCount } })
      ∧ (s.cap.toNat < len + n + 1 →
        (∀ a, memRead? t.mem.bwt a = if len ≤ a ∧ a < len + n then some v0 else memRead? s.mem.bwt a)
        ∧ memRead? t.mem.byteCount v.toNat = some (c + BitVec.ofNat 20 (if v = v0 then n else 0))
        ∧ t = { s with
          sym.bwtLen := BitVec.ofNat 20 (len + n), sym.runLen := 0,
          sym.runBit := if n = 0 then s.sym.runBit else 1,
          err := { kind := .corruptStream, cause := .bwtOverflow, stage := s.stage }, stage := .error,
          status.busy := false, status.done := false, pos := .rest,
          mem := { s.mem with bwt := t.mem.bwt, byteCount := t.mem.byteCount } })

/-- R184, R187, R188: EOB flushes the pending run of n bytes v0, writes BWT_LEN, and enters BUILD_BUCKET_ARRAY if
ORIG_PTR lies below bwtLen, else raises CorruptStream(0x0A). Every BWT entry outside the run and every BYTECOUNT entry
but v0's reads as before and nothing else changes. -/
def Obligations.EndOfBlockClosesTheBuffer : Prop :=
  ∀ (s : State) (r0 v0 : Byte) (n len : Nat) (c0 : BitVec 20),
    n = s.sym.runLen.toNat → len = s.sym.bwtLen.toNat → s.cap.toNat ≤ 900000 → len + n ≤ s.cap.toNat →
    s.litMtf[0]? = some r0 → s.symMap[r0.toNat]? = some v0 → memRead? s.mem.byteCount v0.toNat = some c0 →
    ∃ t, exec .eob s = .next t
      ∧ (∀ a, memRead? t.mem.bwt a = if len ≤ a ∧ a < len + n then some v0 else memRead? s.mem.bwt a)
      ∧ (∀ a, memRead? t.mem.byteCount a =
          if a = v0.toNat then some (c0 + BitVec.ofNat 20 n) else memRead? s.mem.byteCount a)
      ∧ (s.regs.origPtr.toNat < len + n → t = { s with
          regs.bwtLenReg := BitVec.ofNat 20 (len + n), sym.bwtLen := BitVec.ofNat 20 (len + n), sym.runLen := 0,
          sym.runBit := if n = 0 then s.sym.runBit else 1, stage := .buildBucketArray, pos := .bucketBuild,
          mem := { s.mem with bwt := t.mem.bwt, byteCount := t.mem.byteCount } })
      ∧ (len + n ≤ s.regs.origPtr.toNat → t = { s with
          regs.bwtLenReg := BitVec.ofNat 20 (len + n), sym.bwtLen := BitVec.ofNat 20 (len + n), sym.runLen := 0,
          sym.runBit := if n = 0 then s.sym.runBit else 1,
          err := { kind := .corruptStream, cause := .origPtrRange, stage := s.stage }, stage := .error,
          status.busy := false, status.done := false, pos := .rest,
          mem := { s.mem with bwt := t.mem.bwt, byteCount := t.mem.byteCount } })

/-! ## Move-to-front and CRC (spec/42_mtf.md, spec/41_crc.md) -/

/-- R131: promote returns the entry at idx, puts it in front, shifts the entries before it by one and leaves those
behind it alone. -/
def Obligations.PromoteMovesToFront : Prop :=
  ∀ (name : Config.MemName) (m : List Byte) (idx : Nat) (v : Byte), m[idx]? = some v →
    (promote name m idx).1 = v
    ∧ ∀ k, (promote name m idx).2[k]? = if k = 0 then some v else if k ≤ idx then m[k - 1]? else m[k]?

/-- R133: promotes at indexes below k, from the identity, leave a permutation of 0..k-1 in front and the identity
behind, so every value they yield is below k. -/
def Obligations.PromotesBelowKStayBelowK : Prop :=
  ∀ (name : Config.MemName) (k : Nat) (idxs : List Nat), k ≤ 256 → (∀ i ∈ idxs, i < k) →
    ∀ m, m = idxs.foldl (fun m i => (promote name m i).2) identityMtf →
      (m.take k).Perm ((List.range k).map (BitVec.ofNat 8)) ∧ m.drop k = identityMtf.drop k
      ∧ ∀ i < k, (promote name m i).1.toNat < k

/-- R121, R122, R123, R129: the check values: a few entries of CRC_ROM, and the CRC of "", "a" and "123456789". -/
def Obligations.CrcCheckValues : Prop :=
  crcRom 0 = 0x00000000 ∧ crcRom 1 = 0x04C11DB7 ∧ crcRom 4 = 0x130476DC ∧ crcRom 0x80 = 0x690CE0EE
    ∧ crcRom 0xFF = 0xB1F740B4 ∧ crcStep 0xFFFFFFFF 0x61 = 0xE66C6494
    ∧ ~~~(0xFFFFFFFF : Word) = 0x00000000
    ∧ ~~~([0x31, 0x32, 0x33, 0x34, 0x35, 0x36, 0x37, 0x38, 0x39].foldl crcStep 0xFFFFFFFF) = 0xFC891918

/-! ## The BWT inverse (spec/47_bwt_inverse.md) -/

/-- R195 to R198: BUILD_BUCKET_ARRAY writes BUCKET[k], for k below bwtLen, with the index and the byte of the k-th entry
of the BWT buffer sorted by byte, stably; the indexes are a permutation of 0..bwtLen-1; EMIT_RLE1 is entered with PTR =
BUCKET[ORIG_PTR] and an empty run. No other BUCKET entry and nothing else but CHARBASE changes. Premise: the buffer's
invariants, which every step keeps (BufferLegalIsKept). -/
def Obligations.BucketsAreTheSortedBlock : Prop :=
  ∀ s : State, s.pos = .bucketBuild → s.inAnswer = none → BufferLegal s → ∃ t,
    coreStep s = .next t
    ∧ (∀ k < s.sym.bwtLen.toNat, ∃ i v, (sortedIndexes s.mem.bwt s.sym.bwtLen.toNat)[k]? = some i
        ∧ memRead? s.mem.bwt i = some v ∧ memRead? t.mem.bucket k = some (BitVec.ofNat 32 (256 * i + v.toNat)))
    ∧ (sortedIndexes s.mem.bwt s.sym.bwtLen.toNat).Perm (List.range s.sym.bwtLen.toNat)
    ∧ (∀ k, s.sym.bwtLen.toNat ≤ k → memRead? t.mem.bucket k = memRead? s.mem.bucket k)
    ∧ memRead? t.mem.bucket s.regs.origPtr.toNat = some t.emit.ptr
    ∧ t = { s with
        emit := { ptr := t.emit.ptr, extracted := 0, rleRun := 0, rleLast := 0 }, stage := .emitRle1, pos := .extract,
        mem := { s.mem with charBase := t.mem.charBase, bucket := t.mem.bucket }, atCut := false }

/-- R199 to R203: EMIT_RLE1, from its head and with a sink that accepts, delivers exactly the RLE1 expansion of the
bytes of the remaining extractions, each byte delivered folded into the CRC and counted, the counts neither; it ends
in DONE_CHECK after exactly bwtLen extractions, and changes none of the other registers and no memory. The core, the
source and the sink move in any order that the schedule gives, and behind it in the order of the model's eager default
(log 1); an event that its agent cannot take passes (log 20). -/
def Obligations.EmissionDeliversTheExpansion : Prop :=
  ∀ (s : State) (out : List Byte), s.pos = .extract → s.stage = .emitRle1 → s.status.busy = true →
    s.status.inWait = false → s.status.outWait = false → s.inAnswer = none → s.inReset = false →
    portEvents s.schedule → s.emit.rleRun.toNat ≤ 4 → s.emit.extracted.toNat ≤ s.sym.bwtLen.toNat →
    out = expandRle1 (walk s.mem.bucket (s.sym.bwtLen.toNat - s.emit.extracted.toNat) s.emit.ptr) s.emit.rleRun.toNat
      s.emit.rleLast →
    ∃ k t, core.run k s = .next t ∧ t.sink = s.sink ++ out ∧ t.crcAcc = out.foldl crcStep s.crcAcc
      ∧ t.regs = { s.regs with outCount := s.regs.outCount + BitVec.ofNat 32 out.length }
      ∧ t.emit.extracted = s.sym.bwtLen ∧ t.pos = .doneCheck ∧ t.stage = .doneCheck
      ∧ t.schedule <:+ s.schedule
      ∧ t = { s with
          sink := t.sink, schedule := t.schedule, crcAcc := t.crcAcc, regs := t.regs, emit := t.emit, pos := t.pos,
          stage := t.stage, loop := t.loop, outHold := t.outHold, atCut := t.atCut }

/-- R206 to R208, R224, R125: DONE_CHECK: with ~CRC_ACC = EXPECTED_CRC, STREAM_CRC becomes rotl1(STREAM_CRC) ^ ~CRC_ACC,
BLOCK_COUNT counts the block and the command completes; else BlockCRCMismatch is raised, STREAM_CRC and BLOCK_COUNT
unchanged. Nothing else changes. -/
def Obligations.DoneCheckComparesTheCrc : Prop :=
  ∀ s : State, s.pos = .doneCheck → s.inAnswer = none →
    (~~~s.crcAcc = s.regs.expectedCrc → coreStep s = .next { s with
      regs.streamCrc := s.regs.streamCrc.rotateLeft 1 ^^^ ~~~s.crcAcc, regs.blockCount := s.regs.blockCount + 1,
      stage := .idle, status.busy := false, status.done := true, pos := .rest, atCut := false })
    ∧ (~~~s.crcAcc ≠ s.regs.expectedCrc → coreStep s = .next { s with
      err := { kind := .blockCrcMismatch, cause := .none, stage := s.stage }, stage := .error, status.busy := false,
      status.done := false, pos := .rest, atCut := false })

/-! ## The step -/

/-- A step runs the decoded instruction. (R26, R215) When the next event is a write of a word to CMD and the host may
move, the step is the decoded command's meaning, the event gone and the access answered. (R12, R95, R96, R110) Inside
a core step, when the element due at the position is whole with the bits this read takes, the step is that element's
meaning at the state that has consumed them; when a symbol's value is decoded, it is the meaning of the value's class.
(R275, R94) When the next event is the host's procedure taking a field from RESULT, no command runs and the field
completes an element, the step is that element's meaning behind the read. The rules say what is run and in which
order; that a core step is cut into these steps is the model's own form (log 3), and so is that the host's procedure
is an agent whose step is the read of RESULT with what the host makes of the field, and no further access (log 8, log
9). -/
def Obligations.StepRunsTheDecodedInstruction : Prop :=
  ∀ (s : State) (i : Instr),
    (∀ (w : Word) (es : List Event), inCoreStep s = false → s.inReset = false →
      s.schedule = .host (.write 0x08 4 w) :: es → decode .command (.word w) = .ok i →
      step s = exec i { s with schedule := es, bus := .written })
    ∧ (∀ (slot : Slot) (n : Nat), inCoreStep s = true → s.inAnswer = none → dueSlot s = some (slot, n) →
      n ≤ s.bitq.length → decode slot (.bits (s.loop.elem ++ s.bitq.take n)) = .ok i →
      step s = exec i { s with
        bitq := s.bitq.drop n, regs.bitCount := s.regs.bitCount + BitVec.ofNat 32 n, loop.elem := [],
        atCut := false })
    ∧ (inCoreStep s = true → s.inAnswer = none → s.pos = .symbolReady →
      decode (.symbol s.used.toNat) (.value s.loop.symbol) = .ok i → step s = exec i { s with atCut := false })
    ∧ (∀ (f : HostField) (es : List Event), s.status.busy = false → s.inReset = false →
      s.schedule = .hostProcedure :: es → s.host.phase = .take f → f ≠ .magicHi → f ≠ .padding →
      decode (fieldCode s.host f s.regs.result).1 (.bits (fieldCode s.host f s.regs.result).2) = .ok i →
      step s = exec i { s with schedule := es, bus := .data s.regs.result })

/-- R91, R94, R97, R98, R99, R100: words and bits written out from the encoding tables decode to their instructions. -/
def Obligations.WordsDecodeAsTheTablesSay : Prop :=
  decode .command (.word 0x00000000) = .ok .nop ∧ decode .command (.word 0x00001810) = .ok (.readBits 24)
    ∧ decode .command (.word 0x00000020) = .ok .decodeBlock
    ∧ decode .command (.word 0x00000120) = .error .countNotZero
    ∧ decode .levelDigit (.bits [false, false, true, true, true, false, false, true]) = .ok (.levelDigit 9)
    ∧ decode (.selectorMtf 3) (.bits [true, true, false]) = .ok (.selectorMtf 2)
    ∧ decode .clDelta (.bits [true, true]) = .ok .clDeltaDec
    ∧ decode .nTables (.bits [false, true, false]) = .ok (.nTables 2)
    ∧ decode (.symbol 5) (.value 6) = .ok .eob ∧ decode (.symbol 5) (.value 5) = .ok (.lit 5)

/-- R90 to R100: in every slot that admits an instruction, at every operand value the slot has room for, the decoder
gives the instruction back from what the encoder writes; and every well-formed instruction has a slot that admits
it. -/
def Obligations.EncodingRoundTrips : Prop :=
  (∀ (i : Instr) (slot : Slot), slot.admits i = true → decode slot (encode slot i) = .ok i)
    ∧ ∀ i : Instr, i.wellFormed = true → ∃ slot, Slot.admits slot i = true

/-! ## Invariants that every step keeps -/

/-- The invariants hold after reset. -/
def Obligations.InvariantsHoldAtReset : Prop :=
  MemoriesCanonical State.reset.mem ∧ ControlLegal State.reset ∧ BitqLegal State.reset ∧ MtfPermutations State.reset
    ∧ SymMapAscending State.reset ∧ BufferLegal State.reset

/-- The canonical form of every internal memory is kept (the model's own form of memory, log 5). -/
def Obligations.CanonicalMemoriesAreKept : Prop :=
  ∀ s s' : State, MemoriesCanonical s.mem → step s = .next s' → MemoriesCanonical s'.mem

/-- R27, R28, R33, R34, R35, R37, R52, R53, R247, R252: BUSY, DONE, STAGE, ERR and the port flags stay in agreement. -/
def Obligations.ControlLegalIsKept : Prop :=
  ∀ s s' : State, ControlLegal s → step s = .next s' → ControlLegal s'

/-- R54, R112, R115: BITQ holds at most 39 bits, at most 31 wherever the host can look, and a byte is asked for only
when the read needs it. R36's 0..7 after any successful read is not stated: behind a failed read more may stay (log
21). -/
def Obligations.BitqLegalIsKept : Prop :=
  ∀ s s' : State, ControlLegal s → BitqLegal s → step s = .next s' → BitqLegal s'

/-- R58: LIT_MTF and SEL_MTF stay permutations of 0..255. -/
def Obligations.MtfPermutationsAreKept : Prop :=
  ∀ s s' : State, MtfPermutations s → step s = .next s' → MtfPermutations s'

/-- R57, R171: SYMMAP stays strictly ascending. -/
def Obligations.SymMapStaysAscending : Prop :=
  ∀ s s' : State, SymMapAscending s → step s = .next s' → SymMapAscending s'

/-- R183, R188, R190: while symbols are decoded and behind them, the run and the buffer fit CAP, BYTECOUNT is the
histogram of the buffer, and behind EOB ORIG_PTR lies inside it. -/
def Obligations.BufferLegalIsKept : Prop :=
  ∀ s s' : State, BufferLegal s → step s = .next s' → BufferLegal s'

/-! ## Rules about the whole machine -/

/-- No state stops the machine: every step answers a next state (R228, R240: errors are next states; R285: host accesses
never stall). -/
def Obligations.EveryStepAnswersNext : Prop := ∀ s : State, ∃ s', step s = .next s'

/-- R110, R116, R117 (a CLEAR_ERROR or a completion does not empty BITQ): in one step BITQ and BIT_COUNT both stay; or
a running command loads the byte that the source answered, which is appended, and BIT_COUNT stays; or its read
consumes the n bits it needs, which are removed from the head, and BIT_COUNT counts them; or the step is a reset,
hardware reset asserted or a SOFT_RESET written to CMD, behind which every element is at its reset value: BITQ is
empty and BIT_COUNT 0. That hardware reset does so at its assertion is the model's choice (log 11). -/
def Obligations.BitCursorMovesOnlySo : Prop :=
  ∀ s s' : State, step s = .next s' →
    (s'.bitq = s.bitq ∧ s'.regs.bitCount = s.regs.bitCount)
    ∨ (∃ b, s.status.busy = true ∧ s.inAnswer = some (.data b) ∧ s'.bitq = s.bitq ++ bitsOf b
        ∧ s'.regs.bitCount = s.regs.bitCount)
    ∨ (∃ n, s.status.busy = true ∧ n = bitsNeeded s ∧ n ≤ s.bitq.length ∧ s'.bitq = s.bitq.drop n
        ∧ s'.regs.bitCount = s.regs.bitCount + BitVec.ofNat 32 n)
    ∨ (resetsNext s ∧ AtResetValues s')

/-- R115: a step raises an input request only when BITQ holds fewer bits than the read at the core's position needs, and
only one request is open at a time. -/
def Obligations.BytesAreRequestedOnlyWhenNeeded : Prop :=
  ∀ s s' : State, step s = .next s' → s.status.inWait = false → s'.status.inWait = true →
    s.bitq.length < bitsNeeded s ∧ s'.bitq = s.bitq ∧ s.status.busy = true ∧ s.inAnswer = none

/-- R73, R75, R86, R282, R283: the ports' queues: a step takes at most one answer from the source, and only while a
request is open, which it ends; it gives the sink at most one byte, the one offered, and only while it is offered. -/
def Obligations.PortsMoveOneByteAtATime : Prop :=
  ∀ s s' : State, step s = .next s' →
    (s'.source = s.source ∨ ∃ a, s.source = a :: s'.source ∧ s.status.inWait = true ∧ s'.status.inWait = false
      ∧ s'.inAnswer = some a ∧ s'.status.inEos = decide (a = .eos))
    ∧ (s'.sink = s.sink ∨ (s'.sink = s.sink ++ [s.outHold] ∧ s.status.outWait = true ∧ s'.status.outWait = false))

/-- R247: a step in which an error appears records in ERR.STAGE the stage the step found, enters ERROR and clears BUSY
and DONE; only a running command raises one. -/
def Obligations.ErrorEntryRecordsTheStage : Prop :=
  ∀ s s' : State, step s = .next s' → s.err.kind = .none → s'.err.kind ≠ .none →
    s.status.busy = true ∧ s'.err.stage = s.stage ∧ s'.stage = .error ∧ s'.status.busy = false
    ∧ s'.status.done = false ∧ (s'.err.kind ≠ .corruptStream → s'.err.cause = .none)

/-- R253: an error recorded is never overwritten by another: a step leaves ERR as it is or clears it. -/
def Obligations.ErrorsDoNotNest : Prop :=
  ∀ s s' : State, ControlLegal s → step s = .next s' → s.err.kind ≠ .none →
    s'.err = s.err ∨ s'.err = { kind := .none, cause := .none, stage := .idle }

/-- R53: STAGE moves along the sequence of stages, to IDLE or to ERROR, and nowhere else. -/
def Obligations.StagesFollowInOrder : Prop :=
  ∀ s s' : State, ControlLegal s → step s = .next s' →
    s'.stage = s.stage ∨ s'.stage = .idle ∨ s'.stage = .error ∨ stageFollows s.stage s'.stage = true

/-- R12, R83: inside a core step no other agent moves: the step is the core's, whatever is scheduled, and it leaves
CTRL, ARG, the source, the sink, the schedule and the host alone. -/
def Obligations.CoreStepsAreAtomic : Prop :=
  ∀ s : State, inCoreStep s = true → ∃ t, step s = .next t
    ∧ (∀ es, step { s with schedule := es } = .next { t with schedule := es })
    ∧ t.ctrl = s.ctrl ∧ t.regs.arg = s.regs.arg ∧ t.source = s.source ∧ t.sink = s.sink ∧ t.schedule = s.schedule
    ∧ t.host = s.host ∧ t.bus = s.bus ∧ t.status.rejected = s.status.rejected

/-- R225, R207, R125, R47, R223: in one step STREAM_CRC and BLOCK_COUNT both stay, or the step is DONE_CHECK's and a
block whose CRC matched is folded in and counted, or the step is CLEAR_STREAM_CRC's and both are cleared, or the step
is a reset, hardware reset asserted or a SOFT_RESET written to CMD, behind which every element is at its reset value:
both are 0. That hardware reset does so at its assertion is the model's choice (log 11). -/
def Obligations.StreamCrcMovesOnlySo : Prop :=
  ∀ s s' : State, step s = .next s' →
    (s'.regs.streamCrc = s.regs.streamCrc ∧ s'.regs.blockCount = s.regs.blockCount)
    ∨ (s.status.busy = true ∧ s.pos = .doneCheck ∧ ~~~s.crcAcc = s.regs.expectedCrc
        ∧ s'.regs.streamCrc = s.regs.streamCrc.rotateLeft 1 ^^^ ~~~s.crcAcc
        ∧ s'.regs.blockCount = s.regs.blockCount + 1)
    ∨ (s.status.busy = true ∧ s.pos = .clearStreamCrc ∧ s'.regs.streamCrc = 0 ∧ s'.regs.blockCount = 0)
    ∨ (resetsNext s ∧ AtResetValues s')
end

