-- ==== Sys2Proof/Laws/Bits.lean ====
section
/-! SUPPORT. Laws/Bits.lean: bit sequences and the fields they hold; command words and their fields. -/

namespace Sys2Proof

@[simp] theorem length_bitsOf {n : Nat} (v : BitVec n) : (bitsOf v).length = n := by simp [bitsOf]

@[simp] theorem valOf_nil : valOf [] = 0 := rfl

/-- One more bit doubles the value and adds the bit (spec/43_huffman.md R137: `(codeBits << 1) | readBit()`). -/
theorem valOf_concat (bs : Bits) (b : Bool) : valOf (bs ++ [b]) = 2 * valOf bs + b.toNat := by
  simp [valOf, List.foldl_append]

/-- The value of n bits is below 2^n. -/
theorem valOf_lt (bs : Bits) : valOf bs < 2 ^ bs.length := by
  induction bs using List.reverseRecOn with
  | nil => simp
  | append_singleton bs b ih =>
    rw [valOf_concat, List.length_append, List.length_singleton, pow_succ]
    cases b <;> simp <;> omega

theorem valOf_take_bitsOf {n : Nat} (v : BitVec n) (k : Nat) (hk : k ≤ n) :
    valOf ((List.range k).map v.getMsbD) = v.toNat >>> (n - k) := by
  induction k with
  | zero =>
    simp only [List.range_zero, List.map_nil, valOf_nil, Nat.sub_zero]
    rw [Nat.shiftRight_eq_div_pow, Nat.div_eq_of_lt v.isLt]
  | succ k ih =>
    rw [List.range_succ, List.map_append, List.map_singleton, valOf_concat, ih (by omega)]
    have hbit : v.getMsbD k = v.toNat.testBit (n - (k + 1)) := by
      rw [BitVec.getMsbD, BitVec.getLsbD, show n - 1 - k = n - (k + 1) by omega]
      simp; omega
    have hs : v.toNat >>> (n - k) = v.toNat >>> (n - (k + 1)) / 2 := by
      rw [show n - k = (n - (k + 1)) + 1 by omega, Nat.shiftRight_succ]
    rw [hbit, hs, Nat.testBit_eq_decide_div_mod_eq, Nat.shiftRight_eq_div_pow]
    have := Nat.div_add_mod (v.toNat / 2 ^ (n - (k + 1))) 2
    rcases Nat.mod_two_eq_zero_or_one (v.toNat / 2 ^ (n - (k + 1))) with h | h <;> simp [h] <;> omega

/-- A field's bits have the field's value (spec/40_bitreader.md R111). -/
@[simp] theorem valOf_bitsOf {n : Nat} (v : BitVec n) : valOf (bitsOf v) = v.toNat := by
  have := valOf_take_bitsOf v n le_rfl
  simpa [bitsOf] using this

@[simp] theorem fieldOf_bitsOf {n : Nat} (v : BitVec n) : fieldOf n (bitsOf v) = v := by
  simp [fieldOf]

theorem bitsOf_injective {n : Nat} {v w : BitVec n} (h : bitsOf v = bitsOf w) : v = w := by
  rw [← fieldOf_bitsOf v, h, fieldOf_bitsOf]

theorem bitsOf_append {m n : Nat} (v : BitVec m) (w : BitVec n) : bitsOf (v ++ w) = bitsOf v ++ bitsOf w := by
  unfold bitsOf
  apply List.ext_getElem
  · simp
  · intro i h₁ h₂
    simp only [List.getElem_map, List.getElem_range, List.getElem_append, List.length_map, List.length_range]
    rw [BitVec.getMsbD_append]
    by_cases h : i < m
    · simp [h]
    · simp [h, (by omega : m ≤ i)]

/-! ## Command words (spec/30_encoding.md R90) -/

theorem commandWord_toNat (o n : BitVec 8) : (commandWord o n).toNat = 256 * n.toNat + o.toNat := by
  have ho := o.isLt
  have hn := n.isLt
  simp only [commandWord, BitVec.toNat_append, Nat.shiftLeft_eq]
  rw [← Nat.shiftLeft_eq, ← Nat.shiftLeft_add_eq_or_of_lt ho, Nat.shiftLeft_eq]
  simp; omega

theorem opcodeOf_commandWord (o n : BitVec 8) : opcodeOf (commandWord o n) = o := by
  apply BitVec.eq_of_toNat_eq
  have ho := o.isLt
  simp [opcodeOf, BitVec.extractLsb'_toNat, commandWord_toNat]
  omega

theorem countOf_commandWord (o n : BitVec 8) : countOf (commandWord o n) = n := by
  apply BitVec.eq_of_toNat_eq
  have ho := o.isLt
  have hn := n.isLt
  simp [countOf, BitVec.extractLsb'_toNat, commandWord_toNat, Nat.shiftRight_eq_div_pow]
  omega

theorem reservedOf_commandWord (o n : BitVec 8) : reservedOf (commandWord o n) = 0 := by
  apply BitVec.eq_of_toNat_eq
  have ho := o.isLt
  have hn := n.isLt
  simp [reservedOf, BitVec.extractLsb'_toNat, commandWord_toNat, Nat.shiftRight_eq_div_pow]
  omega

/-- A command word is its OPCODE, N and RSVD (spec/30_encoding.md R90). -/
theorem eq_commandWord {w : Word} {o n : BitVec 8} (hr : reservedOf w = 0) (ho : opcodeOf w = o) (hn : countOf w = n) :
    w = commandWord o n := by
  apply BitVec.eq_of_toNat_eq
  have hr : (reservedOf w).toNat = 0 := congrArg BitVec.toNat hr
  subst ho hn
  simp only [reservedOf, BitVec.extractLsb'_toNat, Nat.shiftRight_eq_div_pow] at hr
  simp only [commandWord_toNat, opcodeOf, countOf, BitVec.extractLsb'_toNat, Nat.shiftRight_eq_div_pow]
  have := w.isLt
  omega

end Sys2Proof
end

