-- ==== Sys2Proof/Laws/Step.lean ====
section
/-! SUPPORT. Laws/Step.lean: everything a step can do, said once: what a host move can do, what the core can do at each
position, and what a step can do. -/

namespace Sys2Proof.Machine

open Host (Outcome)

/-! ## The host -/

/-- What a move of the host does: only its own fields change, or one of the command words `words` is offered, or CTRL or
ARG is written. One move makes one access at most (spec/20_memory.md R88). -/
inductive HostMove (words : Word → Prop) (s : State) : State → Prop where
  | quiet (h : HostAgent) (b : BusAnswer) (f : Nat) : HostMove words s { s with host := h, bus := b, freeCount := f }
  | command (h : HostAgent) (b : BusAnswer) (w : Word) (s' : State) (hr : s.inReset = false) (hw : words w)
      (ho : offerCommand w { s with host := h, bus := b } = .next s') : HostMove words s s'
  | ctrl (h : HostAgent) (b : BusAnswer) (f : Nat) (v : Word) (hr : s.inReset = false) :
      HostMove words s (writeCtrl v { s with host := h, bus := b, freeCount := f })
  | arg (h : HostAgent) (b : BusAnswer) (f : Nat) (v : Word) (hr : s.inReset = false) :
      HostMove words s (writeArg v { s with host := h, bus := b, freeCount := f })

/-- A read changes only the bus answer and the model's counter (spec/20_memory.md R72). -/
theorem hostRead_eq (addr width : Nat) (s : State) :
    ∃ b f, hostRead addr width s = { s with bus := b, freeCount := f } := by
  unfold hostRead
  split
  · exact ⟨_, _, rfl⟩
  · exact ⟨_, s.freeCount, rfl⟩

/-- A legal write to a register other than CMD: nothing, or CTRL, or ARG (spec/20_memory.md R72). -/
theorem writePlainReg_cases (r : Reg) (v : Word) (s : State) :
    writePlainReg r v s = s ∨ (s.inReset = false ∧ r = .ctrl ∧ writePlainReg r v s = writeCtrl v s)
      ∨ (s.inReset = false ∧ r = .arg ∧ writePlainReg r v s = writeArg v s) := by
  unfold writePlainReg
  split
  · exact .inl rfl
  · next h =>
    have h' : s.inReset = false := by simpa using h
    cases r <;> first | exact .inl rfl | exact .inr (.inl ⟨h', rfl, rfl⟩) | exact .inr (.inr ⟨h', rfl, rfl⟩)

/-- CMD is at offset 0x08 and nowhere else (spec/10_state.md R20). -/
theorem regAt_eq_cmd {addr : Nat} (h : regAt addr = .cmd) : addr = 0x08 := by
  unfold regAt at h
  split at h <;> first | rfl | cases h

/-- A write is a host move, and offers a command word only as an aligned word at CMD (spec/20_memory.md R71). -/
theorem hostWrite_move {words : Word → Prop} (h : HostAgent) (addr width : Nat) (v : Word) (s s' : State)
    (hw : addr = 0x08 → width = 4 → words v) (e : hostWrite addr width v { s with host := h } = .next s') :
    HostMove words s s' := by
  unfold hostWrite at e
  split at e
  · next hl =>
    split at e
    · next hc =>
      simp only [legalAccess, decide_eq_true_eq] at hl
      exact .command h .written v s' hc.2 (hw (regAt_eq_cmd hc.1) hl.1) e
    · injection e with e
      subst e
      rcases writePlainReg_cases (regAt addr) v { s with host := h } with hw | ⟨hr, -, hw⟩ | ⟨hr, -, hw⟩
      · rw [hw]; exact .quiet h .written s.freeCount
      · rw [hw]; exact .ctrl h .written s.freeCount v hr
      · rw [hw]; exact .arg h .written s.freeCount v hr
  · injection e with e
    subst e
    exact .quiet h .busError s.freeCount

/-- A host access is a host move, and offers the word it writes to CMD. -/
theorem hostAccess_move {a : Access} {s s' : State} (e : hostAccess a s = .next s') :
    HostMove (fun w => a = .write 0x08 4 w) s s' := by
  cases a with
  | read addr width =>
    injection e with e
    obtain ⟨b, f, h⟩ := hostRead_eq addr width s
    rw [← e, h]
    exact .quiet s.host b f
  | write addr width v => exact hostWrite_move s.host addr width v s s' (fun ha hw => by rw [ha, hw]) e

/-- The words that the stream procedure writes to CMD: never SOFT_RESET's (spec/70_reset_and_hazards.md R275). -/
def procedureWord (w : Word) : Prop := w ≠ 0x00000001

theorem pollStatus_move (stop : HostStop) (next : HostPhase) (s : State) :
    HostMove procedureWord s (pollStatus stop next s) := by
  obtain ⟨b, f, h⟩ := hostRead_eq offStatus 4 s
  unfold pollStatus
  simp only [h]
  split
  · exact .quiet _ b f
  · split <;> exact .quiet _ b f

theorem readCtrl_move (s : State) : HostMove procedureWord s (readCtrl s) := by
  obtain ⟨b, f, h⟩ := hostRead_eq offCtrl 4 s
  unfold readCtrl
  simp only [h]
  exact .quiet _ b f

theorem readBitCount_move (s : State) : HostMove procedureWord s (readBitCount s) := by
  obtain ⟨b, f, h⟩ := hostRead_eq offBitCount 4 s
  unfold readBitCount
  simp only [h]
  split <;> exact .quiet _ b f

/-- The framing elements move only the host's own fields: no meaning of theirs accesses a register
(spec/70_reset_and_hazards.md R275, spec/20_memory.md R88). -/
theorem framing_host {slot : Slot} {bs : Bits} {i : Instr} {s s' : State}
    (hs : slot = .streamMagic ∨ slot = .levelDigit ∨ slot = .blockOrEosMagic ∨ slot = .streamCrc)
    (hd : decodeBits slot bs = .ok i) (e : exec i s = .next s') : ∃ h, s' = { s with host := h } := by
  rcases hs with rfl | rfl | rfl | rfl <;> simp only [decodeBits, whole] at hd <;> split at hd
  · injection hd with hd; subst hd; injection e with e; exact ⟨_, e.symm⟩
  · cases hd
  · injection hd with hd
    subst hd
    simp only [exec, execLevelDigit] at e
    split at e <;> (injection e with e; exact ⟨_, e.symm⟩)
  · cases hd
  · injection hd with hd; subst hd; injection e with e; exact ⟨_, e.symm⟩
  · split at hd
    · injection hd with hd; subst hd; injection e with e; exact ⟨_, e.symm⟩
    · cases hd
  · injection hd with hd; subst hd; injection e with e; exact ⟨_, e.symm⟩
  · cases hd

theorem takeField_move {fld : HostField} {s s' : State} (e : takeField fld s = .next s') :
    HostMove procedureWord s s' := by
  obtain ⟨b, f, h⟩ := hostRead_eq offResult 4 s
  unfold takeField at e
  simp only [h] at e
  cases fld
  case magicHi => injection e with e; subst e; exact .quiet _ b f
  case padding => injection e with e; subst e; exact .quiet _ b f
  all_goals
    simp only [fieldCode, decode] at e
    split at e
    · next i hd =>
      obtain ⟨h', e⟩ := framing_host (by simp) hd e
      subst e
      exact .quiet h' b f
    · injection e with e; subst e; exact .quiet _ b f

/-- A command word of the procedure is not SOFT_RESET's. -/
theorem commandWord_ne {op n : BitVec 8} (h : op ≠ 0x01) : procedureWord (commandWord op n) := by
  intro e
  have ho := congrArg opcodeOf e
  rw [opcodeOf_commandWord] at ho
  exact h ho

/-- One access of the stream procedure is a host move. -/
theorem hostProcedure_move {s s' : State} (e : hostProcedure s = .next s') : HostMove procedureWord s s' := by
  have quiet : HostMove procedureWord s s := .quiet s.host s.bus s.freeCount
  unfold hostProcedure at e
  split at e
  · injection e with e; subst e; exact quiet
  · injection e with e; subst e; exact quiet
  · injection e with e; subst e; exact quiet
  · exact hostWrite_move _ _ _ _ _ _ (fun _ _ => commandWord_ne (by decide)) e
  · injection e with e; subst e; exact pollStatus_move _ _ _
  · exact takeField_move e
  · injection e with e; subst e; exact readCtrl_move _
  · exact hostWrite_move _ _ _ _ _ _ (fun h => absurd h (by decide)) e
  · exact hostWrite_move _ _ _ _ _ _ (fun _ _ => commandWord_ne (by decide)) e
  · injection e with e; subst e; exact pollStatus_move _ _ _
  · exact hostWrite_move _ _ _ _ _ _ (fun h => absurd h (by decide)) e
  · exact hostWrite_move _ _ _ _ _ _ (fun _ _ => commandWord_ne (by decide)) e
  · injection e with e; subst e; exact pollStatus_move _ _ _
  · injection e with e; subst e; exact readBitCount_move _

/-! ## The core -/

/-- What a fetch does: it asks for a byte, or keeps the bits of an unfinished element, or runs the whole element. -/
theorem fetch_cases {slot : Slot} {n : Nat} {s s' : State} (e : fetch slot n s = .next s') :
    (s.bitq.length < n ∧ s' = requestByte s)
    ∨ (n ≤ s.bitq.length ∧ ∃ i, decode slot (.bits (s.loop.elem ++ s.bitq.take n)) = .ok i
        ∧ exec i { consume n s with loop.elem := [] } = .next s')
    ∨ (n ≤ s.bitq.length ∧ s' = { consume n s with loop.elem := s.loop.elem ++ s.bitq.take n }
        ∧ ∃ r, decode slot (.bits (s.loop.elem ++ s.bitq.take n)) = .error r) := by
  unfold fetch at e
  split at e
  · next h => injection e with e; exact .inl ⟨h, e.symm⟩
  · next h =>
    simp only at e
    split at e
    · next i hd => exact .inr (.inl ⟨by omega, i, hd, e⟩)
    · next r hd => injection e with e; exact .inr (.inr ⟨by omega, e.symm, r, hd⟩)

/-! ## The step -/

/-- What a step does: the core moves, the host makes a scheduled access or a move of its procedure, a port answers,
hardware reset, or nothing but the passing of an event. `r` is the schedule behind the step. -/
inductive Move (s : State) : State → Prop where
  | pass (r : List Event) : Move s { s with schedule := r }
  | core (r : List Event) (s' : State) (hc : coreCanStep s = true) (h : coreStep { s with schedule := r } = .next s') :
      Move s s'
  | access (a : Access) (r : List Event) (s' : State) (hq : inCoreStep s = false) (hs : s.schedule = .host a :: r)
      (h : HostMove (fun w => a = .write 0x08 4 w) { s with schedule := r } s') : Move s s'
  | procedure (r : List Event) (s' : State) (hq : inCoreStep s = false)
      (h : HostMove procedureWord { s with schedule := r } s') : Move s s'
  | source (r : List Event) (hr : s.inReset = false) (hw : s.status.inWait = true) :
      Move s (sourceAnswer { s with schedule := r })
  | sink (r : List Event) (hr : s.inReset = false) (hw : s.status.outWait = true) :
      Move s (sinkAccept { s with schedule := r })
  | resetAssert (r : List Event) (hq : inCoreStep s = false) (hs : s.schedule = .resetAssert :: r) :
      Move s (resetAssert { s with schedule := r })
  | resetRelease (r : List Event) (hq : inCoreStep s = false) (hs : s.schedule = .resetRelease :: r) :
      Move s (resetRelease { s with schedule := r })

theorem sourceAnswer_of_not {s : State} (h : s.status.inWait = false) : sourceAnswer s = s := by
  unfold sourceAnswer; rw [h]

theorem sinkAccept_of_not {s : State} (h : s.status.outWait = false) : sinkAccept s = s := by
  unfold sinkAccept; rw [h]

theorem runEvent_move {ev : Event} {r : List Event} {s s' : State} (hq : inCoreStep s = false)
    (hs : s.schedule = ev :: r) (e : runEvent ev { s with schedule := r } = .next s') : Move s s' := by
  cases ev with
  | host a => exact .access a r s' hq hs (hostAccess_move e)
  | hostProcedure => exact .procedure r s' hq (hostProcedure_move e)
  | core =>
    simp only [runEvent] at e
    split at e
    · next hc => exact .core r s' hc e
    · injection e with e; subst e; exact .pass r
  | source =>
    simp only [runEvent] at e
    injection e with e
    subst e
    split
    · exact .pass r
    · next hr =>
      cases hw : s.status.inWait
      · rw [sourceAnswer_of_not (by exact hw)]; exact .pass r
      · exact .source r (by simpa using hr) hw
  | sink =>
    simp only [runEvent] at e
    injection e with e
    subst e
    split
    · exact .pass r
    · next hr =>
      cases hw : s.status.outWait
      · rw [sinkAccept_of_not (by exact hw)]; exact .pass r
      · exact .sink r (by simpa using hr) hw
  | resetAssert => injection e with e; subst e; exact .resetAssert r hq hs
  | resetRelease => injection e with e; subst e; exact .resetRelease r hq hs

theorem runEager_move {s s' : State} (hq : inCoreStep s = false) (e : runEager s = .next s') : Move s s' := by
  have same : Move s s := .pass s.schedule
  unfold runEager at e
  split at e
  · injection e with e; subst e; exact same
  · next hr =>
    have hr' : s.inReset = false := by simpa using hr
    split at e
    · next hw => injection e with e; subst e; exact .source s.schedule hr' hw
    · next hi =>
      split at e
      · next hw => injection e with e; subst e; exact .sink s.schedule hr' hw
      · next ho =>
        split at e
        · next hb => exact .core s.schedule s' (by simp [coreCanStep, hb, hi, ho, hr']) e
        · exact .procedure s.schedule s' hq (hostProcedure_move e)

/-- Everything a step can do. -/
theorem step_move {s s' : State} (e : step s = .next s') : Move s s' := by
  unfold step at e
  split at e
  · next hc =>
    have : coreCanStep s = true := by
      simp only [inCoreStep, Bool.and_eq_true] at hc; exact hc.1
    exact .core s.schedule s' this e
  · next hq =>
    have hq' : inCoreStep s = false := by simpa using hq
    unfold runNext at e
    split at e
    · next hs => exact runEvent_move hq' hs e
    · exact runEager_move hq' e

end Sys2Proof.Machine
end

