-- ==== Sys2Proof/Laws/Command.lean ====
section
/-! SUPPORT. Laws/Command.lean: everything an offered command word can do, said once (spec/48_host_commands.md R215 to
R223). -/

namespace Sys2Proof.Machine

/-- What a word written to CMD does: it is rejected, or one of the seven commands is accepted. Only the word 0x00000001
is a SOFT_RESET. -/
inductive CommandMove (w : Word) (s : State) : State → Prop where
  | reject : CommandMove w s (reject s)
  | nop : CommandMove w s s
  | softReset (hw : w = 0x00000001) : CommandMove w s (softReset s)
  | clearError (hb : s.status.busy = false) : CommandMove w s (clearError s)
  | readBits (n : BitVec 8) (hr : ready s = true) (hn : 1 ≤ n.toNat ∧ n.toNat ≤ 32) :
      CommandMove w s (accept .readBits .readBits { s with loop.readCount := n })
  | decodeBlock (hr : ready s = true) :
      CommandMove w s (accept .readHeader .blockEntry
        { s with bsLatch := s.ctrl.blockSize, crcAcc := Config.crcSeed, regs.outCount := 0, sym.symIdx := 0,
                 sym.bwtLen := 0 })
  | checkStreamCrc (hr : ready s = true) :
      CommandMove w s (accept .streamOp .checkStreamCrc { s with loop.argSample := s.regs.arg })
  | clearStreamCrc (hr : ready s = true) : CommandMove w s (accept .streamOp .clearStreamCrc s)

/-- The words of the command table, and what their fields hold (spec/30_encoding.md R90, R91). -/
theorem decodeCommand_ok {w : Word} {i : Instr} (h : decodeCommand w = .ok i) :
    reservedOf w = 0 ∧ ((opcodeOf w = 0x00 ∧ countOf w = 0 ∧ i = .nop)
      ∨ (opcodeOf w = 0x01 ∧ countOf w = 0 ∧ i = .softReset) ∨ (opcodeOf w = 0x02 ∧ countOf w = 0 ∧ i = .clearError)
      ∨ (opcodeOf w = 0x10 ∧ i = .readBits (countOf w)) ∨ (opcodeOf w = 0x20 ∧ countOf w = 0 ∧ i = .decodeBlock)
      ∨ (opcodeOf w = 0x30 ∧ countOf w = 0 ∧ i = .checkStreamCrc)
      ∨ (opcodeOf w = 0x31 ∧ countOf w = 0 ∧ i = .clearStreamCrc)) := by
  have noCount {j : Instr} (e : withoutCount w j = .ok i) : countOf w = 0 ∧ i = j := by
    unfold withoutCount at e
    split at e
    · next hc => injection e with e; exact ⟨hc, e.symm⟩
    · cases e
  unfold decodeCommand at h
  split at h
  · cases h
  next hr =>
  refine ⟨by simpa using hr, ?_⟩
  split at h
  · next ho => exact .inl ⟨ho, noCount h⟩
  split at h
  · next ho => exact .inr (.inl ⟨ho, noCount h⟩)
  split at h
  · next ho => exact .inr (.inr (.inl ⟨ho, noCount h⟩))
  split at h
  · next ho => injection h with h; exact .inr (.inr (.inr (.inl ⟨ho, h.symm⟩)))
  split at h
  · next ho => exact .inr (.inr (.inr (.inr (.inl ⟨ho, noCount h⟩))))
  split at h
  · next ho => exact .inr (.inr (.inr (.inr (.inr (.inl ⟨ho, noCount h⟩)))))
  split at h
  · next ho => exact .inr (.inr (.inr (.inr (.inr (.inr ⟨ho, noCount h⟩)))))
  · cases h

theorem offerCommand_move {w : Word} {s s' : State} (e : offerCommand w s = .next s') : CommandMove w s s' := by
  unfold offerCommand decode at e
  simp only at e
  split at e
  · next i hd =>
    obtain ⟨hr, hc⟩ := decodeCommand_ok hd
    rcases hc with ⟨-, -, rfl⟩ | ⟨ho, hn, rfl⟩ | ⟨-, -, rfl⟩ | ⟨-, rfl⟩ | ⟨-, -, rfl⟩ | ⟨-, -, rfl⟩
      | ⟨-, -, rfl⟩
    · injection e with e; subst e; exact .nop
    · injection e with e; subst e; exact .softReset (eq_commandWord hr ho hn)
    · injection e with e; subst e
      split
      · exact .reject
      · next h => exact .clearError (by simpa using h)
    · injection e with e; subst e
      split
      · next h =>
        simp only [Bool.and_eq_true, decide_eq_true_eq] at h
        exact .readBits _ h.1 h.2
      · exact .reject
    · injection e with e; subst e
      split
      · next h => exact .decodeBlock h
      · exact .reject
    · injection e with e; subst e
      split
      · next h => exact .checkStreamCrc h
      · exact .reject
    · injection e with e; subst e
      split
      · next h => exact .clearStreamCrc h
      · exact .reject
  · injection e with e; subst e; exact .reject

/-- A ready core runs nothing and records no error. -/
theorem ready_iff (s : State) : ready s = true ↔ s.status.busy = false ∧ s.err.kind = .none := by
  simp [ready]

end Sys2Proof.Machine
end

