-- ==== Sys2Proof/Laws/State.lean ====
section
/-! SUPPORT. Laws/State.lean: what every field of State is behind each shared update: one lemma a field, true by
unfolding, so that no later proof unfolds a record update. -/

namespace Sys2Proof.Machine

/-! requestByte (spec/20_memory.md R73) -/

@[simp] theorem requestByte_ctrl (s : State) : (requestByte s).ctrl = s.ctrl := rfl
@[simp] theorem requestByte_status (s : State) : (requestByte s).status = { s.status with inWait := true } := rfl
@[simp] theorem requestByte_err (s : State) : (requestByte s).err = s.err := rfl
@[simp] theorem requestByte_regs (s : State) : (requestByte s).regs = s.regs := rfl
@[simp] theorem requestByte_stage (s : State) : (requestByte s).stage = s.stage := rfl
@[simp] theorem requestByte_pos (s : State) : (requestByte s).pos = s.pos := rfl
@[simp] theorem requestByte_loop (s : State) : (requestByte s).loop = s.loop := rfl
@[simp] theorem requestByte_bitq (s : State) : (requestByte s).bitq = s.bitq := rfl
@[simp] theorem requestByte_inAnswer (s : State) : (requestByte s).inAnswer = s.inAnswer := rfl
@[simp] theorem requestByte_outHold (s : State) : (requestByte s).outHold = s.outHold := rfl
@[simp] theorem requestByte_crcAcc (s : State) : (requestByte s).crcAcc = s.crcAcc := rfl
@[simp] theorem requestByte_bsLatch (s : State) : (requestByte s).bsLatch = s.bsLatch := rfl
@[simp] theorem requestByte_cap (s : State) : (requestByte s).cap = s.cap := rfl
@[simp] theorem requestByte_symMap (s : State) : (requestByte s).symMap = s.symMap := rfl
@[simp] theorem requestByte_used (s : State) : (requestByte s).used = s.used := rfl
@[simp] theorem requestByte_nTab (s : State) : (requestByte s).nTab = s.nTab := rfl
@[simp] theorem requestByte_nSel (s : State) : (requestByte s).nSel = s.nSel := rfl
@[simp] theorem requestByte_litMtf (s : State) : (requestByte s).litMtf = s.litMtf := rfl
@[simp] theorem requestByte_selMtf (s : State) : (requestByte s).selMtf = s.selMtf := rfl
@[simp] theorem requestByte_sym (s : State) : (requestByte s).sym = s.sym := rfl
@[simp] theorem requestByte_emit (s : State) : (requestByte s).emit = s.emit := rfl
@[simp] theorem requestByte_mem (s : State) : (requestByte s).mem = s.mem := rfl
@[simp] theorem requestByte_atCut (s : State) : (requestByte s).atCut = s.atCut := rfl
@[simp] theorem requestByte_inReset (s : State) : (requestByte s).inReset = s.inReset := rfl
@[simp] theorem requestByte_source (s : State) : (requestByte s).source = s.source := rfl
@[simp] theorem requestByte_sink (s : State) : (requestByte s).sink = s.sink := rfl
@[simp] theorem requestByte_schedule (s : State) : (requestByte s).schedule = s.schedule := rfl
@[simp] theorem requestByte_host (s : State) : (requestByte s).host = s.host := rfl
@[simp] theorem requestByte_bus (s : State) : (requestByte s).bus = s.bus := rfl
@[simp] theorem requestByte_freeCount (s : State) : (requestByte s).freeCount = s.freeCount := rfl

/-! offerByte (spec/20_memory.md R75) -/

@[simp] theorem offerByte_ctrl (b : Byte) (s : State) : (offerByte b s).ctrl = s.ctrl := rfl
@[simp] theorem offerByte_status (b : Byte) (s : State) : (offerByte b s).status = { s.status with outWait := true } := rfl
@[simp] theorem offerByte_err (b : Byte) (s : State) : (offerByte b s).err = s.err := rfl
@[simp] theorem offerByte_regs (b : Byte) (s : State) : (offerByte b s).regs = s.regs := rfl
@[simp] theorem offerByte_stage (b : Byte) (s : State) : (offerByte b s).stage = s.stage := rfl
@[simp] theorem offerByte_pos (b : Byte) (s : State) : (offerByte b s).pos = s.pos := rfl
@[simp] theorem offerByte_loop (b : Byte) (s : State) : (offerByte b s).loop = s.loop := rfl
@[simp] theorem offerByte_bitq (b : Byte) (s : State) : (offerByte b s).bitq = s.bitq := rfl
@[simp] theorem offerByte_inAnswer (b : Byte) (s : State) : (offerByte b s).inAnswer = s.inAnswer := rfl
@[simp] theorem offerByte_outHold (b : Byte) (s : State) : (offerByte b s).outHold = b := rfl
@[simp] theorem offerByte_crcAcc (b : Byte) (s : State) : (offerByte b s).crcAcc = s.crcAcc := rfl
@[simp] theorem offerByte_bsLatch (b : Byte) (s : State) : (offerByte b s).bsLatch = s.bsLatch := rfl
@[simp] theorem offerByte_cap (b : Byte) (s : State) : (offerByte b s).cap = s.cap := rfl
@[simp] theorem offerByte_symMap (b : Byte) (s : State) : (offerByte b s).symMap = s.symMap := rfl
@[simp] theorem offerByte_used (b : Byte) (s : State) : (offerByte b s).used = s.used := rfl
@[simp] theorem offerByte_nTab (b : Byte) (s : State) : (offerByte b s).nTab = s.nTab := rfl
@[simp] theorem offerByte_nSel (b : Byte) (s : State) : (offerByte b s).nSel = s.nSel := rfl
@[simp] theorem offerByte_litMtf (b : Byte) (s : State) : (offerByte b s).litMtf = s.litMtf := rfl
@[simp] theorem offerByte_selMtf (b : Byte) (s : State) : (offerByte b s).selMtf = s.selMtf := rfl
@[simp] theorem offerByte_sym (b : Byte) (s : State) : (offerByte b s).sym = s.sym := rfl
@[simp] theorem offerByte_emit (b : Byte) (s : State) : (offerByte b s).emit = s.emit := rfl
@[simp] theorem offerByte_mem (b : Byte) (s : State) : (offerByte b s).mem = s.mem := rfl
@[simp] theorem offerByte_atCut (b : Byte) (s : State) : (offerByte b s).atCut = s.atCut := rfl
@[simp] theorem offerByte_inReset (b : Byte) (s : State) : (offerByte b s).inReset = s.inReset := rfl
@[simp] theorem offerByte_source (b : Byte) (s : State) : (offerByte b s).source = s.source := rfl
@[simp] theorem offerByte_sink (b : Byte) (s : State) : (offerByte b s).sink = s.sink := rfl
@[simp] theorem offerByte_schedule (b : Byte) (s : State) : (offerByte b s).schedule = s.schedule := rfl
@[simp] theorem offerByte_host (b : Byte) (s : State) : (offerByte b s).host = s.host := rfl
@[simp] theorem offerByte_bus (b : Byte) (s : State) : (offerByte b s).bus = s.bus := rfl
@[simp] theorem offerByte_freeCount (b : Byte) (s : State) : (offerByte b s).freeCount = s.freeCount := rfl

/-! loadByte (spec/40_bitreader.md R110) -/

@[simp] theorem loadByte_ctrl (b : Byte) (s : State) : (loadByte b s).ctrl = s.ctrl := rfl
@[simp] theorem loadByte_status (b : Byte) (s : State) : (loadByte b s).status = s.status := rfl
@[simp] theorem loadByte_err (b : Byte) (s : State) : (loadByte b s).err = s.err := rfl
@[simp] theorem loadByte_regs (b : Byte) (s : State) : (loadByte b s).regs = s.regs := rfl
@[simp] theorem loadByte_stage (b : Byte) (s : State) : (loadByte b s).stage = s.stage := rfl
@[simp] theorem loadByte_pos (b : Byte) (s : State) : (loadByte b s).pos = s.pos := rfl
@[simp] theorem loadByte_loop (b : Byte) (s : State) : (loadByte b s).loop = s.loop := rfl
@[simp] theorem loadByte_bitq (b : Byte) (s : State) : (loadByte b s).bitq = s.bitq ++ bitsOf b := rfl
@[simp] theorem loadByte_inAnswer (b : Byte) (s : State) : (loadByte b s).inAnswer = none := rfl
@[simp] theorem loadByte_outHold (b : Byte) (s : State) : (loadByte b s).outHold = s.outHold := rfl
@[simp] theorem loadByte_crcAcc (b : Byte) (s : State) : (loadByte b s).crcAcc = s.crcAcc := rfl
@[simp] theorem loadByte_bsLatch (b : Byte) (s : State) : (loadByte b s).bsLatch = s.bsLatch := rfl
@[simp] theorem loadByte_cap (b : Byte) (s : State) : (loadByte b s).cap = s.cap := rfl
@[simp] theorem loadByte_symMap (b : Byte) (s : State) : (loadByte b s).symMap = s.symMap := rfl
@[simp] theorem loadByte_used (b : Byte) (s : State) : (loadByte b s).used = s.used := rfl
@[simp] theorem loadByte_nTab (b : Byte) (s : State) : (loadByte b s).nTab = s.nTab := rfl
@[simp] theorem loadByte_nSel (b : Byte) (s : State) : (loadByte b s).nSel = s.nSel := rfl
@[simp] theorem loadByte_litMtf (b : Byte) (s : State) : (loadByte b s).litMtf = s.litMtf := rfl
@[simp] theorem loadByte_selMtf (b : Byte) (s : State) : (loadByte b s).selMtf = s.selMtf := rfl
@[simp] theorem loadByte_sym (b : Byte) (s : State) : (loadByte b s).sym = s.sym := rfl
@[simp] theorem loadByte_emit (b : Byte) (s : State) : (loadByte b s).emit = s.emit := rfl
@[simp] theorem loadByte_mem (b : Byte) (s : State) : (loadByte b s).mem = s.mem := rfl
@[simp] theorem loadByte_atCut (b : Byte) (s : State) : (loadByte b s).atCut = s.atCut := rfl
@[simp] theorem loadByte_inReset (b : Byte) (s : State) : (loadByte b s).inReset = s.inReset := rfl
@[simp] theorem loadByte_source (b : Byte) (s : State) : (loadByte b s).source = s.source := rfl
@[simp] theorem loadByte_sink (b : Byte) (s : State) : (loadByte b s).sink = s.sink := rfl
@[simp] theorem loadByte_schedule (b : Byte) (s : State) : (loadByte b s).schedule = s.schedule := rfl
@[simp] theorem loadByte_host (b : Byte) (s : State) : (loadByte b s).host = s.host := rfl
@[simp] theorem loadByte_bus (b : Byte) (s : State) : (loadByte b s).bus = s.bus := rfl
@[simp] theorem loadByte_freeCount (b : Byte) (s : State) : (loadByte b s).freeCount = s.freeCount := rfl

/-! consume (spec/40_bitreader.md R110, R116) -/

@[simp] theorem consume_ctrl (n : Nat) (s : State) : (consume n s).ctrl = s.ctrl := rfl
@[simp] theorem consume_status (n : Nat) (s : State) : (consume n s).status = s.status := rfl
@[simp] theorem consume_err (n : Nat) (s : State) : (consume n s).err = s.err := rfl
@[simp] theorem consume_regs (n : Nat) (s : State) : (consume n s).regs = { s.regs with bitCount := s.regs.bitCount + BitVec.ofNat 32 n } := rfl
@[simp] theorem consume_stage (n : Nat) (s : State) : (consume n s).stage = s.stage := rfl
@[simp] theorem consume_pos (n : Nat) (s : State) : (consume n s).pos = s.pos := rfl
@[simp] theorem consume_loop (n : Nat) (s : State) : (consume n s).loop = s.loop := rfl
@[simp] theorem consume_bitq (n : Nat) (s : State) : (consume n s).bitq = s.bitq.drop n := rfl
@[simp] theorem consume_inAnswer (n : Nat) (s : State) : (consume n s).inAnswer = s.inAnswer := rfl
@[simp] theorem consume_outHold (n : Nat) (s : State) : (consume n s).outHold = s.outHold := rfl
@[simp] theorem consume_crcAcc (n : Nat) (s : State) : (consume n s).crcAcc = s.crcAcc := rfl
@[simp] theorem consume_bsLatch (n : Nat) (s : State) : (consume n s).bsLatch = s.bsLatch := rfl
@[simp] theorem consume_cap (n : Nat) (s : State) : (consume n s).cap = s.cap := rfl
@[simp] theorem consume_symMap (n : Nat) (s : State) : (consume n s).symMap = s.symMap := rfl
@[simp] theorem consume_used (n : Nat) (s : State) : (consume n s).used = s.used := rfl
@[simp] theorem consume_nTab (n : Nat) (s : State) : (consume n s).nTab = s.nTab := rfl
@[simp] theorem consume_nSel (n : Nat) (s : State) : (consume n s).nSel = s.nSel := rfl
@[simp] theorem consume_litMtf (n : Nat) (s : State) : (consume n s).litMtf = s.litMtf := rfl
@[simp] theorem consume_selMtf (n : Nat) (s : State) : (consume n s).selMtf = s.selMtf := rfl
@[simp] theorem consume_sym (n : Nat) (s : State) : (consume n s).sym = s.sym := rfl
@[simp] theorem consume_emit (n : Nat) (s : State) : (consume n s).emit = s.emit := rfl
@[simp] theorem consume_mem (n : Nat) (s : State) : (consume n s).mem = s.mem := rfl
@[simp] theorem consume_atCut (n : Nat) (s : State) : (consume n s).atCut = s.atCut := rfl
@[simp] theorem consume_inReset (n : Nat) (s : State) : (consume n s).inReset = s.inReset := rfl
@[simp] theorem consume_source (n : Nat) (s : State) : (consume n s).source = s.source := rfl
@[simp] theorem consume_sink (n : Nat) (s : State) : (consume n s).sink = s.sink := rfl
@[simp] theorem consume_schedule (n : Nat) (s : State) : (consume n s).schedule = s.schedule := rfl
@[simp] theorem consume_host (n : Nat) (s : State) : (consume n s).host = s.host := rfl
@[simp] theorem consume_bus (n : Nat) (s : State) : (consume n s).bus = s.bus := rfl
@[simp] theorem consume_freeCount (n : Nat) (s : State) : (consume n s).freeCount = s.freeCount := rfl

/-! raise (spec/60_exceptions.md R247) -/

@[simp] theorem raise_ctrl (k : ErrKind) (c : Cause) (s : State) : (raise k c s).ctrl = s.ctrl := rfl
@[simp] theorem raise_status (k : ErrKind) (c : Cause) (s : State) : (raise k c s).status = { s.status with busy := false, done := false } := rfl
@[simp] theorem raise_err (k : ErrKind) (c : Cause) (s : State) : (raise k c s).err = { kind := k, cause := c, stage := s.stage } := rfl
@[simp] theorem raise_regs (k : ErrKind) (c : Cause) (s : State) : (raise k c s).regs = s.regs := rfl
@[simp] theorem raise_stage (k : ErrKind) (c : Cause) (s : State) : (raise k c s).stage = .error := rfl
@[simp] theorem raise_pos (k : ErrKind) (c : Cause) (s : State) : (raise k c s).pos = .rest := rfl
@[simp] theorem raise_loop (k : ErrKind) (c : Cause) (s : State) : (raise k c s).loop = s.loop := rfl
@[simp] theorem raise_bitq (k : ErrKind) (c : Cause) (s : State) : (raise k c s).bitq = s.bitq := rfl
@[simp] theorem raise_inAnswer (k : ErrKind) (c : Cause) (s : State) : (raise k c s).inAnswer = s.inAnswer := rfl
@[simp] theorem raise_outHold (k : ErrKind) (c : Cause) (s : State) : (raise k c s).outHold = s.outHold := rfl
@[simp] theorem raise_crcAcc (k : ErrKind) (c : Cause) (s : State) : (raise k c s).crcAcc = s.crcAcc := rfl
@[simp] theorem raise_bsLatch (k : ErrKind) (c : Cause) (s : State) : (raise k c s).bsLatch = s.bsLatch := rfl
@[simp] theorem raise_cap (k : ErrKind) (c : Cause) (s : State) : (raise k c s).cap = s.cap := rfl
@[simp] theorem raise_symMap (k : ErrKind) (c : Cause) (s : State) : (raise k c s).symMap = s.symMap := rfl
@[simp] theorem raise_used (k : ErrKind) (c : Cause) (s : State) : (raise k c s).used = s.used := rfl
@[simp] theorem raise_nTab (k : ErrKind) (c : Cause) (s : State) : (raise k c s).nTab = s.nTab := rfl
@[simp] theorem raise_nSel (k : ErrKind) (c : Cause) (s : State) : (raise k c s).nSel = s.nSel := rfl
@[simp] theorem raise_litMtf (k : ErrKind) (c : Cause) (s : State) : (raise k c s).litMtf = s.litMtf := rfl
@[simp] theorem raise_selMtf (k : ErrKind) (c : Cause) (s : State) : (raise k c s).selMtf = s.selMtf := rfl
@[simp] theorem raise_sym (k : ErrKind) (c : Cause) (s : State) : (raise k c s).sym = s.sym := rfl
@[simp] theorem raise_emit (k : ErrKind) (c : Cause) (s : State) : (raise k c s).emit = s.emit := rfl
@[simp] theorem raise_mem (k : ErrKind) (c : Cause) (s : State) : (raise k c s).mem = s.mem := rfl
@[simp] theorem raise_atCut (k : ErrKind) (c : Cause) (s : State) : (raise k c s).atCut = s.atCut := rfl
@[simp] theorem raise_inReset (k : ErrKind) (c : Cause) (s : State) : (raise k c s).inReset = s.inReset := rfl
@[simp] theorem raise_source (k : ErrKind) (c : Cause) (s : State) : (raise k c s).source = s.source := rfl
@[simp] theorem raise_sink (k : ErrKind) (c : Cause) (s : State) : (raise k c s).sink = s.sink := rfl
@[simp] theorem raise_schedule (k : ErrKind) (c : Cause) (s : State) : (raise k c s).schedule = s.schedule := rfl
@[simp] theorem raise_host (k : ErrKind) (c : Cause) (s : State) : (raise k c s).host = s.host := rfl
@[simp] theorem raise_bus (k : ErrKind) (c : Cause) (s : State) : (raise k c s).bus = s.bus := rfl
@[simp] theorem raise_freeCount (k : ErrKind) (c : Cause) (s : State) : (raise k c s).freeCount = s.freeCount := rfl

/-! clearError (spec/48_host_commands.md R219) -/

@[simp] theorem clearError_ctrl (s : State) : (clearError s).ctrl = s.ctrl := rfl
@[simp] theorem clearError_status (s : State) : (clearError s).status = { s.status with rejected := false, scrcMismatch := false, done := false } := rfl
@[simp] theorem clearError_err (s : State) : (clearError s).err = { kind := .none, cause := .none, stage := .idle } := rfl
@[simp] theorem clearError_regs (s : State) : (clearError s).regs = s.regs := rfl
@[simp] theorem clearError_stage (s : State) : (clearError s).stage = .idle := rfl
@[simp] theorem clearError_pos (s : State) : (clearError s).pos = s.pos := rfl
@[simp] theorem clearError_loop (s : State) : (clearError s).loop = s.loop := rfl
@[simp] theorem clearError_bitq (s : State) : (clearError s).bitq = s.bitq := rfl
@[simp] theorem clearError_inAnswer (s : State) : (clearError s).inAnswer = s.inAnswer := rfl
@[simp] theorem clearError_outHold (s : State) : (clearError s).outHold = s.outHold := rfl
@[simp] theorem clearError_crcAcc (s : State) : (clearError s).crcAcc = s.crcAcc := rfl
@[simp] theorem clearError_bsLatch (s : State) : (clearError s).bsLatch = s.bsLatch := rfl
@[simp] theorem clearError_cap (s : State) : (clearError s).cap = s.cap := rfl
@[simp] theorem clearError_symMap (s : State) : (clearError s).symMap = s.symMap := rfl
@[simp] theorem clearError_used (s : State) : (clearError s).used = s.used := rfl
@[simp] theorem clearError_nTab (s : State) : (clearError s).nTab = s.nTab := rfl
@[simp] theorem clearError_nSel (s : State) : (clearError s).nSel = s.nSel := rfl
@[simp] theorem clearError_litMtf (s : State) : (clearError s).litMtf = s.litMtf := rfl
@[simp] theorem clearError_selMtf (s : State) : (clearError s).selMtf = s.selMtf := rfl
@[simp] theorem clearError_sym (s : State) : (clearError s).sym = s.sym := rfl
@[simp] theorem clearError_emit (s : State) : (clearError s).emit = s.emit := rfl
@[simp] theorem clearError_mem (s : State) : (clearError s).mem = s.mem := rfl
@[simp] theorem clearError_atCut (s : State) : (clearError s).atCut = s.atCut := rfl
@[simp] theorem clearError_inReset (s : State) : (clearError s).inReset = s.inReset := rfl
@[simp] theorem clearError_source (s : State) : (clearError s).source = s.source := rfl
@[simp] theorem clearError_sink (s : State) : (clearError s).sink = s.sink := rfl
@[simp] theorem clearError_schedule (s : State) : (clearError s).schedule = s.schedule := rfl
@[simp] theorem clearError_host (s : State) : (clearError s).host = s.host := rfl
@[simp] theorem clearError_bus (s : State) : (clearError s).bus = s.bus := rfl
@[simp] theorem clearError_freeCount (s : State) : (clearError s).freeCount = s.freeCount := rfl

/-! reject (spec/48_host_commands.md R216) -/

@[simp] theorem reject_ctrl (s : State) : (reject s).ctrl = s.ctrl := rfl
@[simp] theorem reject_status (s : State) : (reject s).status = { s.status with rejected := true } := rfl
@[simp] theorem reject_err (s : State) : (reject s).err = s.err := rfl
@[simp] theorem reject_regs (s : State) : (reject s).regs = s.regs := rfl
@[simp] theorem reject_stage (s : State) : (reject s).stage = s.stage := rfl
@[simp] theorem reject_pos (s : State) : (reject s).pos = s.pos := rfl
@[simp] theorem reject_loop (s : State) : (reject s).loop = s.loop := rfl
@[simp] theorem reject_bitq (s : State) : (reject s).bitq = s.bitq := rfl
@[simp] theorem reject_inAnswer (s : State) : (reject s).inAnswer = s.inAnswer := rfl
@[simp] theorem reject_outHold (s : State) : (reject s).outHold = s.outHold := rfl
@[simp] theorem reject_crcAcc (s : State) : (reject s).crcAcc = s.crcAcc := rfl
@[simp] theorem reject_bsLatch (s : State) : (reject s).bsLatch = s.bsLatch := rfl
@[simp] theorem reject_cap (s : State) : (reject s).cap = s.cap := rfl
@[simp] theorem reject_symMap (s : State) : (reject s).symMap = s.symMap := rfl
@[simp] theorem reject_used (s : State) : (reject s).used = s.used := rfl
@[simp] theorem reject_nTab (s : State) : (reject s).nTab = s.nTab := rfl
@[simp] theorem reject_nSel (s : State) : (reject s).nSel = s.nSel := rfl
@[simp] theorem reject_litMtf (s : State) : (reject s).litMtf = s.litMtf := rfl
@[simp] theorem reject_selMtf (s : State) : (reject s).selMtf = s.selMtf := rfl
@[simp] theorem reject_sym (s : State) : (reject s).sym = s.sym := rfl
@[simp] theorem reject_emit (s : State) : (reject s).emit = s.emit := rfl
@[simp] theorem reject_mem (s : State) : (reject s).mem = s.mem := rfl
@[simp] theorem reject_atCut (s : State) : (reject s).atCut = s.atCut := rfl
@[simp] theorem reject_inReset (s : State) : (reject s).inReset = s.inReset := rfl
@[simp] theorem reject_source (s : State) : (reject s).source = s.source := rfl
@[simp] theorem reject_sink (s : State) : (reject s).sink = s.sink := rfl
@[simp] theorem reject_schedule (s : State) : (reject s).schedule = s.schedule := rfl
@[simp] theorem reject_host (s : State) : (reject s).host = s.host := rfl
@[simp] theorem reject_bus (s : State) : (reject s).bus = s.bus := rfl
@[simp] theorem reject_freeCount (s : State) : (reject s).freeCount = s.freeCount := rfl

/-! accept (spec/48_host_commands.md R215) -/

@[simp] theorem accept_ctrl (st : Stage) (p : Pos) (s : State) : (accept st p s).ctrl = s.ctrl := rfl
@[simp] theorem accept_status (st : Stage) (p : Pos) (s : State) : (accept st p s).status = { s.status with done := false, busy := true } := rfl
@[simp] theorem accept_err (st : Stage) (p : Pos) (s : State) : (accept st p s).err = s.err := rfl
@[simp] theorem accept_regs (st : Stage) (p : Pos) (s : State) : (accept st p s).regs = s.regs := rfl
@[simp] theorem accept_stage (st : Stage) (p : Pos) (s : State) : (accept st p s).stage = st := rfl
@[simp] theorem accept_pos (st : Stage) (p : Pos) (s : State) : (accept st p s).pos = p := rfl
@[simp] theorem accept_loop (st : Stage) (p : Pos) (s : State) : (accept st p s).loop = { s.loop with elem := [] } := rfl
@[simp] theorem accept_bitq (st : Stage) (p : Pos) (s : State) : (accept st p s).bitq = s.bitq := rfl
@[simp] theorem accept_inAnswer (st : Stage) (p : Pos) (s : State) : (accept st p s).inAnswer = s.inAnswer := rfl
@[simp] theorem accept_outHold (st : Stage) (p : Pos) (s : State) : (accept st p s).outHold = s.outHold := rfl
@[simp] theorem accept_crcAcc (st : Stage) (p : Pos) (s : State) : (accept st p s).crcAcc = s.crcAcc := rfl
@[simp] theorem accept_bsLatch (st : Stage) (p : Pos) (s : State) : (accept st p s).bsLatch = s.bsLatch := rfl
@[simp] theorem accept_cap (st : Stage) (p : Pos) (s : State) : (accept st p s).cap = s.cap := rfl
@[simp] theorem accept_symMap (st : Stage) (p : Pos) (s : State) : (accept st p s).symMap = s.symMap := rfl
@[simp] theorem accept_used (st : Stage) (p : Pos) (s : State) : (accept st p s).used = s.used := rfl
@[simp] theorem accept_nTab (st : Stage) (p : Pos) (s : State) : (accept st p s).nTab = s.nTab := rfl
@[simp] theorem accept_nSel (st : Stage) (p : Pos) (s : State) : (accept st p s).nSel = s.nSel := rfl
@[simp] theorem accept_litMtf (st : Stage) (p : Pos) (s : State) : (accept st p s).litMtf = s.litMtf := rfl
@[simp] theorem accept_selMtf (st : Stage) (p : Pos) (s : State) : (accept st p s).selMtf = s.selMtf := rfl
@[simp] theorem accept_sym (st : Stage) (p : Pos) (s : State) : (accept st p s).sym = s.sym := rfl
@[simp] theorem accept_emit (st : Stage) (p : Pos) (s : State) : (accept st p s).emit = s.emit := rfl
@[simp] theorem accept_mem (st : Stage) (p : Pos) (s : State) : (accept st p s).mem = s.mem := rfl
@[simp] theorem accept_atCut (st : Stage) (p : Pos) (s : State) : (accept st p s).atCut = true := rfl
@[simp] theorem accept_inReset (st : Stage) (p : Pos) (s : State) : (accept st p s).inReset = s.inReset := rfl
@[simp] theorem accept_source (st : Stage) (p : Pos) (s : State) : (accept st p s).source = s.source := rfl
@[simp] theorem accept_sink (st : Stage) (p : Pos) (s : State) : (accept st p s).sink = s.sink := rfl
@[simp] theorem accept_schedule (st : Stage) (p : Pos) (s : State) : (accept st p s).schedule = s.schedule := rfl
@[simp] theorem accept_host (st : Stage) (p : Pos) (s : State) : (accept st p s).host = s.host := rfl
@[simp] theorem accept_bus (st : Stage) (p : Pos) (s : State) : (accept st p s).bus = s.bus := rfl
@[simp] theorem accept_freeCount (st : Stage) (p : Pos) (s : State) : (accept st p s).freeCount = s.freeCount := rfl

/-! complete (spec/48_host_commands.md R224) -/

@[simp] theorem complete_ctrl (s : State) : (complete s).ctrl = s.ctrl := rfl
@[simp] theorem complete_status (s : State) : (complete s).status = { s.status with busy := false, done := true } := rfl
@[simp] theorem complete_err (s : State) : (complete s).err = s.err := rfl
@[simp] theorem complete_regs (s : State) : (complete s).regs = s.regs := rfl
@[simp] theorem complete_stage (s : State) : (complete s).stage = .idle := rfl
@[simp] theorem complete_pos (s : State) : (complete s).pos = .rest := rfl
@[simp] theorem complete_loop (s : State) : (complete s).loop = s.loop := rfl
@[simp] theorem complete_bitq (s : State) : (complete s).bitq = s.bitq := rfl
@[simp] theorem complete_inAnswer (s : State) : (complete s).inAnswer = s.inAnswer := rfl
@[simp] theorem complete_outHold (s : State) : (complete s).outHold = s.outHold := rfl
@[simp] theorem complete_crcAcc (s : State) : (complete s).crcAcc = s.crcAcc := rfl
@[simp] theorem complete_bsLatch (s : State) : (complete s).bsLatch = s.bsLatch := rfl
@[simp] theorem complete_cap (s : State) : (complete s).cap = s.cap := rfl
@[simp] theorem complete_symMap (s : State) : (complete s).symMap = s.symMap := rfl
@[simp] theorem complete_used (s : State) : (complete s).used = s.used := rfl
@[simp] theorem complete_nTab (s : State) : (complete s).nTab = s.nTab := rfl
@[simp] theorem complete_nSel (s : State) : (complete s).nSel = s.nSel := rfl
@[simp] theorem complete_litMtf (s : State) : (complete s).litMtf = s.litMtf := rfl
@[simp] theorem complete_selMtf (s : State) : (complete s).selMtf = s.selMtf := rfl
@[simp] theorem complete_sym (s : State) : (complete s).sym = s.sym := rfl
@[simp] theorem complete_emit (s : State) : (complete s).emit = s.emit := rfl
@[simp] theorem complete_mem (s : State) : (complete s).mem = s.mem := rfl
@[simp] theorem complete_atCut (s : State) : (complete s).atCut = s.atCut := rfl
@[simp] theorem complete_inReset (s : State) : (complete s).inReset = s.inReset := rfl
@[simp] theorem complete_source (s : State) : (complete s).source = s.source := rfl
@[simp] theorem complete_sink (s : State) : (complete s).sink = s.sink := rfl
@[simp] theorem complete_schedule (s : State) : (complete s).schedule = s.schedule := rfl
@[simp] theorem complete_host (s : State) : (complete s).host = s.host := rfl
@[simp] theorem complete_bus (s : State) : (complete s).bus = s.bus := rfl
@[simp] theorem complete_freeCount (s : State) : (complete s).freeCount = s.freeCount := rfl

/-! crcUpdate (spec/41_crc.md R122) -/

@[simp] theorem crcUpdate_ctrl (b : Byte) (s : State) : (crcUpdate b s).ctrl = s.ctrl := rfl
@[simp] theorem crcUpdate_status (b : Byte) (s : State) : (crcUpdate b s).status = s.status := rfl
@[simp] theorem crcUpdate_err (b : Byte) (s : State) : (crcUpdate b s).err = s.err := rfl
@[simp] theorem crcUpdate_regs (b : Byte) (s : State) : (crcUpdate b s).regs = s.regs := rfl
@[simp] theorem crcUpdate_stage (b : Byte) (s : State) : (crcUpdate b s).stage = s.stage := rfl
@[simp] theorem crcUpdate_pos (b : Byte) (s : State) : (crcUpdate b s).pos = s.pos := rfl
@[simp] theorem crcUpdate_loop (b : Byte) (s : State) : (crcUpdate b s).loop = s.loop := rfl
@[simp] theorem crcUpdate_bitq (b : Byte) (s : State) : (crcUpdate b s).bitq = s.bitq := rfl
@[simp] theorem crcUpdate_inAnswer (b : Byte) (s : State) : (crcUpdate b s).inAnswer = s.inAnswer := rfl
@[simp] theorem crcUpdate_outHold (b : Byte) (s : State) : (crcUpdate b s).outHold = s.outHold := rfl
@[simp] theorem crcUpdate_crcAcc (b : Byte) (s : State) : (crcUpdate b s).crcAcc = crcStep s.crcAcc b := rfl
@[simp] theorem crcUpdate_bsLatch (b : Byte) (s : State) : (crcUpdate b s).bsLatch = s.bsLatch := rfl
@[simp] theorem crcUpdate_cap (b : Byte) (s : State) : (crcUpdate b s).cap = s.cap := rfl
@[simp] theorem crcUpdate_symMap (b : Byte) (s : State) : (crcUpdate b s).symMap = s.symMap := rfl
@[simp] theorem crcUpdate_used (b : Byte) (s : State) : (crcUpdate b s).used = s.used := rfl
@[simp] theorem crcUpdate_nTab (b : Byte) (s : State) : (crcUpdate b s).nTab = s.nTab := rfl
@[simp] theorem crcUpdate_nSel (b : Byte) (s : State) : (crcUpdate b s).nSel = s.nSel := rfl
@[simp] theorem crcUpdate_litMtf (b : Byte) (s : State) : (crcUpdate b s).litMtf = s.litMtf := rfl
@[simp] theorem crcUpdate_selMtf (b : Byte) (s : State) : (crcUpdate b s).selMtf = s.selMtf := rfl
@[simp] theorem crcUpdate_sym (b : Byte) (s : State) : (crcUpdate b s).sym = s.sym := rfl
@[simp] theorem crcUpdate_emit (b : Byte) (s : State) : (crcUpdate b s).emit = s.emit := rfl
@[simp] theorem crcUpdate_mem (b : Byte) (s : State) : (crcUpdate b s).mem = s.mem := rfl
@[simp] theorem crcUpdate_atCut (b : Byte) (s : State) : (crcUpdate b s).atCut = s.atCut := rfl
@[simp] theorem crcUpdate_inReset (b : Byte) (s : State) : (crcUpdate b s).inReset = s.inReset := rfl
@[simp] theorem crcUpdate_source (b : Byte) (s : State) : (crcUpdate b s).source = s.source := rfl
@[simp] theorem crcUpdate_sink (b : Byte) (s : State) : (crcUpdate b s).sink = s.sink := rfl
@[simp] theorem crcUpdate_schedule (b : Byte) (s : State) : (crcUpdate b s).schedule = s.schedule := rfl
@[simp] theorem crcUpdate_host (b : Byte) (s : State) : (crcUpdate b s).host = s.host := rfl
@[simp] theorem crcUpdate_bus (b : Byte) (s : State) : (crcUpdate b s).bus = s.bus := rfl
@[simp] theorem crcUpdate_freeCount (b : Byte) (s : State) : (crcUpdate b s).freeCount = s.freeCount := rfl

/-! writeCtrl (spec/10_state.md R22 to R25) -/

@[simp] theorem writeCtrl_ctrl (v : Word) (s : State) : (writeCtrl v s).ctrl = { blockSize := v.extractLsb' 0 4, strict := v.getLsbD 4, irqEn := v.getLsbD 5 } := rfl
@[simp] theorem writeCtrl_status (v : Word) (s : State) : (writeCtrl v s).status = s.status := rfl
@[simp] theorem writeCtrl_err (v : Word) (s : State) : (writeCtrl v s).err = s.err := rfl
@[simp] theorem writeCtrl_regs (v : Word) (s : State) : (writeCtrl v s).regs = s.regs := rfl
@[simp] theorem writeCtrl_stage (v : Word) (s : State) : (writeCtrl v s).stage = s.stage := rfl
@[simp] theorem writeCtrl_pos (v : Word) (s : State) : (writeCtrl v s).pos = s.pos := rfl
@[simp] theorem writeCtrl_loop (v : Word) (s : State) : (writeCtrl v s).loop = s.loop := rfl
@[simp] theorem writeCtrl_bitq (v : Word) (s : State) : (writeCtrl v s).bitq = s.bitq := rfl
@[simp] theorem writeCtrl_inAnswer (v : Word) (s : State) : (writeCtrl v s).inAnswer = s.inAnswer := rfl
@[simp] theorem writeCtrl_outHold (v : Word) (s : State) : (writeCtrl v s).outHold = s.outHold := rfl
@[simp] theorem writeCtrl_crcAcc (v : Word) (s : State) : (writeCtrl v s).crcAcc = s.crcAcc := rfl
@[simp] theorem writeCtrl_bsLatch (v : Word) (s : State) : (writeCtrl v s).bsLatch = s.bsLatch := rfl
@[simp] theorem writeCtrl_cap (v : Word) (s : State) : (writeCtrl v s).cap = s.cap := rfl
@[simp] theorem writeCtrl_symMap (v : Word) (s : State) : (writeCtrl v s).symMap = s.symMap := rfl
@[simp] theorem writeCtrl_used (v : Word) (s : State) : (writeCtrl v s).used = s.used := rfl
@[simp] theorem writeCtrl_nTab (v : Word) (s : State) : (writeCtrl v s).nTab = s.nTab := rfl
@[simp] theorem writeCtrl_nSel (v : Word) (s : State) : (writeCtrl v s).nSel = s.nSel := rfl
@[simp] theorem writeCtrl_litMtf (v : Word) (s : State) : (writeCtrl v s).litMtf = s.litMtf := rfl
@[simp] theorem writeCtrl_selMtf (v : Word) (s : State) : (writeCtrl v s).selMtf = s.selMtf := rfl
@[simp] theorem writeCtrl_sym (v : Word) (s : State) : (writeCtrl v s).sym = s.sym := rfl
@[simp] theorem writeCtrl_emit (v : Word) (s : State) : (writeCtrl v s).emit = s.emit := rfl
@[simp] theorem writeCtrl_mem (v : Word) (s : State) : (writeCtrl v s).mem = s.mem := rfl
@[simp] theorem writeCtrl_atCut (v : Word) (s : State) : (writeCtrl v s).atCut = s.atCut := rfl
@[simp] theorem writeCtrl_inReset (v : Word) (s : State) : (writeCtrl v s).inReset = s.inReset := rfl
@[simp] theorem writeCtrl_source (v : Word) (s : State) : (writeCtrl v s).source = s.source := rfl
@[simp] theorem writeCtrl_sink (v : Word) (s : State) : (writeCtrl v s).sink = s.sink := rfl
@[simp] theorem writeCtrl_schedule (v : Word) (s : State) : (writeCtrl v s).schedule = s.schedule := rfl
@[simp] theorem writeCtrl_host (v : Word) (s : State) : (writeCtrl v s).host = s.host := rfl
@[simp] theorem writeCtrl_bus (v : Word) (s : State) : (writeCtrl v s).bus = s.bus := rfl
@[simp] theorem writeCtrl_freeCount (v : Word) (s : State) : (writeCtrl v s).freeCount = s.freeCount := rfl

/-! writeArg (spec/10_state.md R38) -/

@[simp] theorem writeArg_ctrl (v : Word) (s : State) : (writeArg v s).ctrl = s.ctrl := rfl
@[simp] theorem writeArg_status (v : Word) (s : State) : (writeArg v s).status = s.status := rfl
@[simp] theorem writeArg_err (v : Word) (s : State) : (writeArg v s).err = s.err := rfl
@[simp] theorem writeArg_regs (v : Word) (s : State) : (writeArg v s).regs = { s.regs with arg := v } := rfl
@[simp] theorem writeArg_stage (v : Word) (s : State) : (writeArg v s).stage = s.stage := rfl
@[simp] theorem writeArg_pos (v : Word) (s : State) : (writeArg v s).pos = s.pos := rfl
@[simp] theorem writeArg_loop (v : Word) (s : State) : (writeArg v s).loop = s.loop := rfl
@[simp] theorem writeArg_bitq (v : Word) (s : State) : (writeArg v s).bitq = s.bitq := rfl
@[simp] theorem writeArg_inAnswer (v : Word) (s : State) : (writeArg v s).inAnswer = s.inAnswer := rfl
@[simp] theorem writeArg_outHold (v : Word) (s : State) : (writeArg v s).outHold = s.outHold := rfl
@[simp] theorem writeArg_crcAcc (v : Word) (s : State) : (writeArg v s).crcAcc = s.crcAcc := rfl
@[simp] theorem writeArg_bsLatch (v : Word) (s : State) : (writeArg v s).bsLatch = s.bsLatch := rfl
@[simp] theorem writeArg_cap (v : Word) (s : State) : (writeArg v s).cap = s.cap := rfl
@[simp] theorem writeArg_symMap (v : Word) (s : State) : (writeArg v s).symMap = s.symMap := rfl
@[simp] theorem writeArg_used (v : Word) (s : State) : (writeArg v s).used = s.used := rfl
@[simp] theorem writeArg_nTab (v : Word) (s : State) : (writeArg v s).nTab = s.nTab := rfl
@[simp] theorem writeArg_nSel (v : Word) (s : State) : (writeArg v s).nSel = s.nSel := rfl
@[simp] theorem writeArg_litMtf (v : Word) (s : State) : (writeArg v s).litMtf = s.litMtf := rfl
@[simp] theorem writeArg_selMtf (v : Word) (s : State) : (writeArg v s).selMtf = s.selMtf := rfl
@[simp] theorem writeArg_sym (v : Word) (s : State) : (writeArg v s).sym = s.sym := rfl
@[simp] theorem writeArg_emit (v : Word) (s : State) : (writeArg v s).emit = s.emit := rfl
@[simp] theorem writeArg_mem (v : Word) (s : State) : (writeArg v s).mem = s.mem := rfl
@[simp] theorem writeArg_atCut (v : Word) (s : State) : (writeArg v s).atCut = s.atCut := rfl
@[simp] theorem writeArg_inReset (v : Word) (s : State) : (writeArg v s).inReset = s.inReset := rfl
@[simp] theorem writeArg_source (v : Word) (s : State) : (writeArg v s).source = s.source := rfl
@[simp] theorem writeArg_sink (v : Word) (s : State) : (writeArg v s).sink = s.sink := rfl
@[simp] theorem writeArg_schedule (v : Word) (s : State) : (writeArg v s).schedule = s.schedule := rfl
@[simp] theorem writeArg_host (v : Word) (s : State) : (writeArg v s).host = s.host := rfl
@[simp] theorem writeArg_bus (v : Word) (s : State) : (writeArg v s).bus = s.bus := rfl
@[simp] theorem writeArg_freeCount (v : Word) (s : State) : (writeArg v s).freeCount = s.freeCount := rfl

/-! countByte (spec/46_symbol_decode.md R184, R186) -/

@[simp] theorem countByte_ctrl (v : Byte) (n : BitVec 20) (s : State) : (countByte v n s).ctrl = s.ctrl := rfl
@[simp] theorem countByte_status (v : Byte) (n : BitVec 20) (s : State) : (countByte v n s).status = s.status := rfl
@[simp] theorem countByte_err (v : Byte) (n : BitVec 20) (s : State) : (countByte v n s).err = s.err := rfl
@[simp] theorem countByte_regs (v : Byte) (n : BitVec 20) (s : State) : (countByte v n s).regs = s.regs := rfl
@[simp] theorem countByte_stage (v : Byte) (n : BitVec 20) (s : State) : (countByte v n s).stage = s.stage := rfl
@[simp] theorem countByte_pos (v : Byte) (n : BitVec 20) (s : State) : (countByte v n s).pos = s.pos := rfl
@[simp] theorem countByte_loop (v : Byte) (n : BitVec 20) (s : State) : (countByte v n s).loop = s.loop := rfl
@[simp] theorem countByte_bitq (v : Byte) (n : BitVec 20) (s : State) : (countByte v n s).bitq = s.bitq := rfl
@[simp] theorem countByte_inAnswer (v : Byte) (n : BitVec 20) (s : State) : (countByte v n s).inAnswer = s.inAnswer := rfl
@[simp] theorem countByte_outHold (v : Byte) (n : BitVec 20) (s : State) : (countByte v n s).outHold = s.outHold := rfl
@[simp] theorem countByte_crcAcc (v : Byte) (n : BitVec 20) (s : State) : (countByte v n s).crcAcc = s.crcAcc := rfl
@[simp] theorem countByte_bsLatch (v : Byte) (n : BitVec 20) (s : State) : (countByte v n s).bsLatch = s.bsLatch := rfl
@[simp] theorem countByte_cap (v : Byte) (n : BitVec 20) (s : State) : (countByte v n s).cap = s.cap := rfl
@[simp] theorem countByte_symMap (v : Byte) (n : BitVec 20) (s : State) : (countByte v n s).symMap = s.symMap := rfl
@[simp] theorem countByte_used (v : Byte) (n : BitVec 20) (s : State) : (countByte v n s).used = s.used := rfl
@[simp] theorem countByte_nTab (v : Byte) (n : BitVec 20) (s : State) : (countByte v n s).nTab = s.nTab := rfl
@[simp] theorem countByte_nSel (v : Byte) (n : BitVec 20) (s : State) : (countByte v n s).nSel = s.nSel := rfl
@[simp] theorem countByte_litMtf (v : Byte) (n : BitVec 20) (s : State) : (countByte v n s).litMtf = s.litMtf := rfl
@[simp] theorem countByte_selMtf (v : Byte) (n : BitVec 20) (s : State) : (countByte v n s).selMtf = s.selMtf := rfl
@[simp] theorem countByte_sym (v : Byte) (n : BitVec 20) (s : State) : (countByte v n s).sym = s.sym := rfl
@[simp] theorem countByte_emit (v : Byte) (n : BitVec 20) (s : State) : (countByte v n s).emit = s.emit := rfl
@[simp] theorem countByte_mem (v : Byte) (n : BitVec 20) (s : State) : (countByte v n s).mem = { s.mem with byteCount := memWrite s.mem.byteCount v.toNat (memRead .byteCount s.mem.byteCount v.toNat + n) } := rfl
@[simp] theorem countByte_atCut (v : Byte) (n : BitVec 20) (s : State) : (countByte v n s).atCut = s.atCut := rfl
@[simp] theorem countByte_inReset (v : Byte) (n : BitVec 20) (s : State) : (countByte v n s).inReset = s.inReset := rfl
@[simp] theorem countByte_source (v : Byte) (n : BitVec 20) (s : State) : (countByte v n s).source = s.source := rfl
@[simp] theorem countByte_sink (v : Byte) (n : BitVec 20) (s : State) : (countByte v n s).sink = s.sink := rfl
@[simp] theorem countByte_schedule (v : Byte) (n : BitVec 20) (s : State) : (countByte v n s).schedule = s.schedule := rfl
@[simp] theorem countByte_host (v : Byte) (n : BitVec 20) (s : State) : (countByte v n s).host = s.host := rfl
@[simp] theorem countByte_bus (v : Byte) (n : BitVec 20) (s : State) : (countByte v n s).bus = s.bus := rfl
@[simp] theorem countByte_freeCount (v : Byte) (n : BitVec 20) (s : State) : (countByte v n s).freeCount = s.freeCount := rfl

/-! finishEmit (spec/47_bwt_inverse.md R202) -/

@[simp] theorem finishEmit_ctrl (s : State) : (finishEmit s).ctrl = s.ctrl := rfl
@[simp] theorem finishEmit_status (s : State) : (finishEmit s).status = s.status := rfl
@[simp] theorem finishEmit_err (s : State) : (finishEmit s).err = s.err := rfl
@[simp] theorem finishEmit_regs (s : State) : (finishEmit s).regs = { s.regs with outCount := s.regs.outCount + 1 } := rfl
@[simp] theorem finishEmit_stage (s : State) : (finishEmit s).stage = s.stage := rfl
@[simp] theorem finishEmit_pos (s : State) : (finishEmit s).pos = s.pos := rfl
@[simp] theorem finishEmit_loop (s : State) : (finishEmit s).loop = s.loop := rfl
@[simp] theorem finishEmit_bitq (s : State) : (finishEmit s).bitq = s.bitq := rfl
@[simp] theorem finishEmit_inAnswer (s : State) : (finishEmit s).inAnswer = s.inAnswer := rfl
@[simp] theorem finishEmit_outHold (s : State) : (finishEmit s).outHold = s.outHold := rfl
@[simp] theorem finishEmit_crcAcc (s : State) : (finishEmit s).crcAcc = crcStep s.crcAcc s.loop.emitByte := rfl
@[simp] theorem finishEmit_bsLatch (s : State) : (finishEmit s).bsLatch = s.bsLatch := rfl
@[simp] theorem finishEmit_cap (s : State) : (finishEmit s).cap = s.cap := rfl
@[simp] theorem finishEmit_symMap (s : State) : (finishEmit s).symMap = s.symMap := rfl
@[simp] theorem finishEmit_used (s : State) : (finishEmit s).used = s.used := rfl
@[simp] theorem finishEmit_nTab (s : State) : (finishEmit s).nTab = s.nTab := rfl
@[simp] theorem finishEmit_nSel (s : State) : (finishEmit s).nSel = s.nSel := rfl
@[simp] theorem finishEmit_litMtf (s : State) : (finishEmit s).litMtf = s.litMtf := rfl
@[simp] theorem finishEmit_selMtf (s : State) : (finishEmit s).selMtf = s.selMtf := rfl
@[simp] theorem finishEmit_sym (s : State) : (finishEmit s).sym = s.sym := rfl
@[simp] theorem finishEmit_emit (s : State) : (finishEmit s).emit = s.emit := rfl
@[simp] theorem finishEmit_mem (s : State) : (finishEmit s).mem = s.mem := rfl
@[simp] theorem finishEmit_atCut (s : State) : (finishEmit s).atCut = s.atCut := rfl
@[simp] theorem finishEmit_inReset (s : State) : (finishEmit s).inReset = s.inReset := rfl
@[simp] theorem finishEmit_source (s : State) : (finishEmit s).source = s.source := rfl
@[simp] theorem finishEmit_sink (s : State) : (finishEmit s).sink = s.sink := rfl
@[simp] theorem finishEmit_schedule (s : State) : (finishEmit s).schedule = s.schedule := rfl
@[simp] theorem finishEmit_host (s : State) : (finishEmit s).host = s.host := rfl
@[simp] theorem finishEmit_bus (s : State) : (finishEmit s).bus = s.bus := rfl
@[simp] theorem finishEmit_freeCount (s : State) : (finishEmit s).freeCount = s.freeCount := rfl

/-! emitByte (spec/47_bwt_inverse.md R202) -/

@[simp] theorem emitByte_ctrl (x : Byte) (s : State) : (emitByte x s).ctrl = s.ctrl := rfl
@[simp] theorem emitByte_status (x : Byte) (s : State) : (emitByte x s).status = { s.status with outWait := true } := rfl
@[simp] theorem emitByte_err (x : Byte) (s : State) : (emitByte x s).err = s.err := rfl
@[simp] theorem emitByte_regs (x : Byte) (s : State) : (emitByte x s).regs = s.regs := rfl
@[simp] theorem emitByte_stage (x : Byte) (s : State) : (emitByte x s).stage = s.stage := rfl
@[simp] theorem emitByte_pos (x : Byte) (s : State) : (emitByte x s).pos = s.pos := rfl
@[simp] theorem emitByte_loop (x : Byte) (s : State) : (emitByte x s).loop = { s.loop with emitByte := x } := rfl
@[simp] theorem emitByte_bitq (x : Byte) (s : State) : (emitByte x s).bitq = s.bitq := rfl
@[simp] theorem emitByte_inAnswer (x : Byte) (s : State) : (emitByte x s).inAnswer = s.inAnswer := rfl
@[simp] theorem emitByte_outHold (x : Byte) (s : State) : (emitByte x s).outHold = x := rfl
@[simp] theorem emitByte_crcAcc (x : Byte) (s : State) : (emitByte x s).crcAcc = s.crcAcc := rfl
@[simp] theorem emitByte_bsLatch (x : Byte) (s : State) : (emitByte x s).bsLatch = s.bsLatch := rfl
@[simp] theorem emitByte_cap (x : Byte) (s : State) : (emitByte x s).cap = s.cap := rfl
@[simp] theorem emitByte_symMap (x : Byte) (s : State) : (emitByte x s).symMap = s.symMap := rfl
@[simp] theorem emitByte_used (x : Byte) (s : State) : (emitByte x s).used = s.used := rfl
@[simp] theorem emitByte_nTab (x : Byte) (s : State) : (emitByte x s).nTab = s.nTab := rfl
@[simp] theorem emitByte_nSel (x : Byte) (s : State) : (emitByte x s).nSel = s.nSel := rfl
@[simp] theorem emitByte_litMtf (x : Byte) (s : State) : (emitByte x s).litMtf = s.litMtf := rfl
@[simp] theorem emitByte_selMtf (x : Byte) (s : State) : (emitByte x s).selMtf = s.selMtf := rfl
@[simp] theorem emitByte_sym (x : Byte) (s : State) : (emitByte x s).sym = s.sym := rfl
@[simp] theorem emitByte_emit (x : Byte) (s : State) : (emitByte x s).emit = s.emit := rfl
@[simp] theorem emitByte_mem (x : Byte) (s : State) : (emitByte x s).mem = s.mem := rfl
@[simp] theorem emitByte_atCut (x : Byte) (s : State) : (emitByte x s).atCut = s.atCut := rfl
@[simp] theorem emitByte_inReset (x : Byte) (s : State) : (emitByte x s).inReset = s.inReset := rfl
@[simp] theorem emitByte_source (x : Byte) (s : State) : (emitByte x s).source = s.source := rfl
@[simp] theorem emitByte_sink (x : Byte) (s : State) : (emitByte x s).sink = s.sink := rfl
@[simp] theorem emitByte_schedule (x : Byte) (s : State) : (emitByte x s).schedule = s.schedule := rfl
@[simp] theorem emitByte_host (x : Byte) (s : State) : (emitByte x s).host = s.host := rfl
@[simp] theorem emitByte_bus (x : Byte) (s : State) : (emitByte x s).bus = s.bus := rfl
@[simp] theorem emitByte_freeCount (x : Byte) (s : State) : (emitByte x s).freeCount = s.freeCount := rfl

end Sys2Proof.Machine
end

