-- ==== Sys2Proof/Laws/Core.lean ====
section
/-! SUPPORT. Laws/Core.lean: everything a step of the core can do, said once (spec/00_scope.md R12). -/

namespace Sys2Proof.Machine

open Host (Outcome)

/-- Every instruction answers a next state: no meaning stops. -/
theorem exec_next (i : Instr) (s : State) : ∃ t, exec i s = .next t := by
  cases i with
  | levelDigit d => simp only [exec, execLevelDigit]; split <;> exact ⟨_, rfl⟩
  | selectorMtf r => simp only [exec, execSelectorMtf]; split <;> exact ⟨_, rfl⟩
  | _ => exact ⟨_, rfl⟩

/-- The element that the slot of a position decodes to is one that stands there (spec/30_encoding.md R95). -/
theorem dueSlot_standsAt {s : State} {slot : Slot} {n : Nat} {bs : Bits} {i : Instr}
    (hd : dueSlot s = some (slot, n)) (ho : decode slot (.bits bs) = .ok i) : standsAt s.pos i = true := by
  cases hp : s.pos <;> simp only [dueSlot, hp] at hd
  case clDelta =>
    split at hd
    · cases hd
    · injection hd with hd
      injection hd with hd _
      subst hd
      revert ho
      simp only [decode, decodeBits]
      unfold decodeDelta
      split <;> intro ho <;> cases ho <;> rfl
  case selector =>
    injection hd with hd; injection hd with hd _; subst hd
    simp only [decode, decodeBits, decodeUnary] at ho
    split at ho
    · injection ho with ho; subst ho; rfl
    · split at ho
      · injection ho with ho; subst ho; rfl
      · cases ho
  case codeword =>
    injection hd with hd; injection hd with hd _; subst hd
    simp only [decode, decodeBits, decodeCodeword] at ho
    split at ho
    · injection ho with ho; subst ho; rfl
    · cases ho
  all_goals first
    | cases hd; done
    | (injection hd with hd; injection hd with hd _; subst hd
       simp only [decode, decodeBits, whole] at ho
       split at ho
       · injection ho with ho; subst ho; rfl
       · cases ho)

/-- The bits of one read of the slot due are those that the position needs (spec/30_encoding.md R96). -/
theorem dueSlot_bitsNeeded {s : State} {slot : Slot} {n : Nat} (hd : dueSlot s = some (slot, n)) : n = bitsNeeded s := by
  unfold bitsNeeded
  cases hp : s.pos <;> simp only [dueSlot, hp] at hd
  case clDelta =>
    split at hd
    · cases hd
    · injection hd with hd; injection hd with _ hd; exact hd.symm
  all_goals first
    | cases hd; done
    | (injection hd with hd; injection hd with _ hd; exact hd.symm)

/-- A symbol value is of one of the four classes (spec/30_encoding.md R100). -/
theorem decodeSymbol_standsAt (used : Nat) (v : BitVec 9) : standsAt .symbolReady (decodeSymbol used v) = true := by
  unfold decodeSymbol
  split
  · rfl
  · split
    · rfl
    · split <;> rfl

/-- What a step of the core does: it uses the port's answer; asks for a byte; keeps the bits of an unfinished element;
runs an element that stands at its position; or takes the step of its position that reads no element. -/
inductive CoreMove (s : State) : State → Prop where
  | load (b : Byte) (h : s.inAnswer = some (.data b)) : CoreMove s (loadByte b s)
  | endOfStream (h : s.inAnswer = some .eos) :
      CoreMove s (raise .endOfStream .none { s with inAnswer := none })
  | request (slot : Slot) (n : Nat) (ha : s.inAnswer = none) (hd : dueSlot s = some (slot, n))
      (hl : s.bitq.length < n) : CoreMove s (requestByte s)
  | keep (slot : Slot) (n : Nat) (r : DecodeReject) (ha : s.inAnswer = none) (hd : dueSlot s = some (slot, n))
      (hl : n ≤ s.bitq.length) (ho : decode slot (.bits (s.loop.elem ++ s.bitq.take n)) = .error r) :
      CoreMove s { consume n s with loop.elem := s.loop.elem ++ s.bitq.take n }
  | element (slot : Slot) (n : Nat) (i : Instr) (s' : State) (ha : s.inAnswer = none)
      (hd : dueSlot s = some (slot, n)) (hl : n ≤ s.bitq.length)
      (ho : decode slot (.bits (s.loop.elem ++ s.bitq.take n)) = .ok i) (hs : standsAt s.pos i = true)
      (h : exec i { consume n s with loop.elem := [] } = .next s') : CoreMove s s'
  | symbol (i : Instr) (s' : State) (ha : s.inAnswer = none) (hp : s.pos = .symbolReady)
      (hi : i = decodeSymbol s.used.toNat s.loop.symbol) (h : exec i s = .next s') : CoreMove s s'
  | readMore (ha : s.inAnswer = none) (hp : s.pos = .readBits) (hl : s.bitq.length < s.loop.readCount.toNat) :
      CoreMove s (requestByte s)
  | readDone (ha : s.inAnswer = none) (hp : s.pos = .readBits) (hl : s.loop.readCount.toNat ≤ s.bitq.length) :
      CoreMove s (complete { consume s.loop.readCount.toNat s with
        regs.result := BitVec.ofNat 32 (valOf (s.bitq.take s.loop.readCount.toNat)) })
  | checkCrc (ha : s.inAnswer = none) (hp : s.pos = .checkStreamCrc) : CoreMove s (runCheckStreamCrc s)
  | clearCrc (ha : s.inAnswer = none) (hp : s.pos = .clearStreamCrc) : CoreMove s (runClearStreamCrc s)
  | blockEntry (ha : s.inAnswer = none) (hp : s.pos = .blockEntry) : CoreMove s (checkBlockSize s)
  | codeLength (ha : s.inAnswer = none) (hp : s.pos = .clDelta) :
      CoreMove s (raise .corruptStream .codeLength s)
  | startSymbol (ha : s.inAnswer = none) (hp : s.pos = .nextSymbol) : CoreMove s (startSymbol s)
  | buckets (ha : s.inAnswer = none) (hp : s.pos = .bucketBuild) : CoreMove s (buildBuckets s)
  | extract (ha : s.inAnswer = none) (hp : s.pos = .extract) : CoreMove s (extractTurn s)
  | emitted (ha : s.inAnswer = none) (hp : s.pos = .emitted) : CoreMove s { finishEmit s with pos := .extract }
  | repeatTurn (ha : s.inAnswer = none) (hp : s.pos = .repeatCopies) : CoreMove s (repeatTurn s)
  | repeated (ha : s.inAnswer = none) (hp : s.pos = .repeated) :
      CoreMove s { finishEmit s with pos := .repeatCopies }
  | doneCheck (ha : s.inAnswer = none) (hp : s.pos = .doneCheck) : CoreMove s (doneCheck s)
  | rest (ha : s.inAnswer = none) (hd : dueSlot s = none) (hp : s.pos = .rest) : CoreMove s s

theorem runInternal_move {s s' : State} (ha : s.inAnswer = none) (hd : dueSlot s = none)
    (e : runInternal s = .next s') : CoreMove s s' := by
  cases hp : s.pos <;> simp only [runInternal, hp] at e <;>
    try (injection e with e; subst e)
  case rest => exact .rest ha hd hp
  case readBits =>
    unfold runReadBits
    simp only
    split
    · next h => exact .readMore ha hp h
    · next h => exact .readDone ha hp (by omega)
  case checkStreamCrc => exact .checkCrc ha hp
  case clearStreamCrc => exact .clearCrc ha hp
  case blockEntry => exact .blockEntry ha hp
  case clDelta => exact .codeLength ha hp
  case nextSymbol => exact .startSymbol ha hp
  case symbolReady => exact .symbol _ s' ha hp rfl e
  case bucketBuild => exact .buckets ha hp
  case extract => exact .extract ha hp
  case emitted => exact .emitted ha hp
  case repeatCopies => exact .repeatTurn ha hp
  case repeated => exact .repeated ha hp
  case doneCheck => exact .doneCheck ha hp
  all_goals simp only [dueSlot, hp] at hd; cases hd

/-- Everything a step of the core can do. -/
theorem coreStep_move {s s' : State} (e : coreStep s = .next s') : CoreMove { s with atCut := false } s' := by
  unfold coreStep at e
  simp only at e
  split at e
  · next a ha =>
    injection e with e
    subst e
    cases a with
    | data b => exact .load b ha
    | eos => exact .endOfStream ha
  · next ha =>
    unfold runPos at e
    split at e
    · next slot n hd =>
      unfold fetch at e
      split at e
      · next hl => injection e with e; subst e; exact .request slot n ha hd hl
      · next hl =>
        simp only at e
        split at e
        · next i ho => exact .element slot n i s' ha hd (by omega) ho (dueSlot_standsAt hd ho) e
        · next r ho => injection e with e; subst e; exact .keep slot n r ha hd (by omega) ho
    · next hd => exact runInternal_move ha hd e

end Sys2Proof.Machine
end

