-- ==== Sys2Proof/Laws/Element.lean ====
section
/-! SUPPORT. Laws/Element.lean: what every block element and symbol class leaves alone, said once: it ends in the block's
data and the next position, or in an error raised from the stage it stands in. -/

namespace Sys2Proof.Machine

open Host (Outcome)

/-- What no element touches: the flags, the error record, the ports and their queues, the bit reader, the CRC, CTRL, ARG,
RESULT, the stream's accumulator and its counters, the latches of the command, and the other agents. -/
structure ElementFrame (s t : State) : Prop where
  ctrl : t.ctrl = s.ctrl
  status : t.status = s.status
  err : t.err = s.err
  arg : t.regs.arg = s.regs.arg
  result : t.regs.result = s.regs.result
  streamCrc : t.regs.streamCrc = s.regs.streamCrc
  outCount : t.regs.outCount = s.regs.outCount
  bitCount : t.regs.bitCount = s.regs.bitCount
  blockCount : t.regs.blockCount = s.regs.blockCount
  bitq : t.bitq = s.bitq
  inAnswer : t.inAnswer = s.inAnswer
  outHold : t.outHold = s.outHold
  crcAcc : t.crcAcc = s.crcAcc
  bsLatch : t.bsLatch = s.bsLatch
  cap : t.cap = s.cap
  emit : t.emit = s.emit
  atCut : t.atCut = s.atCut
  inReset : t.inReset = s.inReset
  source : t.source = s.source
  sink : t.sink = s.sink
  schedule : t.schedule = s.schedule
  host : t.host = s.host
  bus : t.bus = s.bus
  freeCount : t.freeCount = s.freeCount

theorem ElementFrame.refl (s : State) : ElementFrame s s := by constructor <;> rfl

theorem ElementFrame.trans {s t u : State} (h : ElementFrame s t) (k : ElementFrame t u) : ElementFrame s u := by
  cases h; cases k; constructor <;> simp_all

/-- The end of an element that stands in s's stage: the data and the next position, in the stage of that position, or an
error raised in the stage of the element. -/
inductive ElementEnd (s : State) : State → Prop where
  | goOn (t : State) (hf : ElementFrame s t) (hp : t.pos ≠ .rest)
      (hs : s.stage = s.pos.stage → t.stage = t.pos.stage) : ElementEnd s t
  | raised (k : ErrKind) (c : Cause) (t : State) (hf : ElementFrame s t) (hs : t.stage = s.stage)
      (hk : k = .corruptStream ∨ (k = .unsupportedFeature ∧ c = .none)) : ElementEnd s (raise k c t)

theorem endSymbolMap_end {s t : State} (hf : ElementFrame s t) (hs : t.stage = s.stage) :
    ElementEnd s (endSymbolMap t) := by
  cases hf
  unfold endSymbolMap
  simp only
  split
  · exact .raised _ _ _ (by constructor <;> assumption) hs (.inl rfl)
  · exact .goOn _ (by constructor <;> assumption) (by simp) (fun _ => rfl)

theorem toRange_end {s t : State} {i : Nat} (hf : ElementFrame s t) (hs : t.stage = s.stage)
    (hp : s.pos.stage = .readSymbolMap) : ElementEnd s (toRange i t) := by
  unfold toRange
  split
  · cases hf
    exact .goOn _ (by constructor <;> assumption) (by simp) (fun h => (hs.trans h).trans hp)
  · exact endSymbolMap_end hf hs

theorem huffBuild_frame (t : Nat) (s : State) : ElementFrame s (huffBuild s t) := by constructor <;> rfl
theorem huffBuild_pos (t : Nat) (s : State) : (huffBuild s t).pos = s.pos := rfl
theorem huffBuild_stage (t : Nat) (s : State) : (huffBuild s t).stage = s.stage := rfl

theorem huffBuildAll_frame (s : State) : ElementFrame s (huffBuildAll s) := by
  have go : ∀ (l : List Nat) (u : State), ElementFrame s u → ElementFrame s (l.foldl huffBuild u) := by
    intro l
    induction l with
    | nil => intro u h; exact h
    | cons t l ih => intro u h; exact ih _ (h.trans (huffBuild_frame t u))
  exact go _ _ (.refl s)

theorem enterDecode_frame {s t : State} (h : ElementFrame s t) : ElementFrame s (enterDecode t) :=
  h.trans (by constructor <;> rfl)

theorem countByte_frame (v : Byte) (n : BitVec 20) (s : State) : ElementFrame s (countByte v n s) := by
  constructor <;> rfl

theorem flushRun_frame (s : State) : ElementFrame s (flushRun s) := by
  unfold flushRun
  split
  · exact .refl s
  · constructor <;> rfl

theorem flushRun_pos (s : State) : (flushRun s).pos = s.pos := by unfold flushRun; split <;> rfl
theorem flushRun_stage (s : State) : (flushRun s).stage = s.stage := by unfold flushRun; split <;> rfl

/-- Every element and symbol class ends so, wherever it stands. -/
theorem element_end {i : Instr} {s s' : State} (hi : standsAt s.pos i = true) (h : exec i s = .next s') :
    ElementEnd s s' := by
  replace hi := of_decide_eq_true hi
  cases i <;> first
    | cases hi
    | injection hi with hp; replace hp := hp.symm
  case blkCrcHi => injection h with h; subst h
                   exact .goOn _ (by constructor <;> rfl) (by simp) (fun e => by rw [hp] at e; exact e)
  case blkCrcLo => injection h with h; subst h
                   exact .goOn _ (by constructor <;> rfl) (by simp) (fun e => by rw [hp] at e; exact e)
  case randomised => injection h with h; subst h
                     split
                     · exact .raised _ _ _ (.refl s) rfl (.inr ⟨rfl, rfl⟩)
                     · exact .goOn _ (by constructor <;> rfl) (by simp) (fun e => by rw [hp] at e; exact e)
  case origPtr => injection h with h; subst h
                  exact .goOn _ (by constructor <;> rfl) (by simp) (fun _ => rfl)
  case usedRanges => injection h with h; subst h
                     unfold toRange
                     split
                     · exact .goOn _ (by constructor <;> rfl) (by simp) (fun e => by rw [hp] at e; exact e)
                     · exact endSymbolMap_end (by constructor <;> rfl) rfl
  case usedSub => injection h with h; subst h
                  exact toRange_end (by constructor <;> rfl) rfl (by rw [hp]; rfl)
  case nTables => injection h with h; subst h
                  split
                  · exact .goOn _ (by constructor <;> rfl) (by simp) (fun e => by rw [hp] at e; exact e)
                  · exact .raised _ _ _ (by constructor <;> rfl) rfl (.inl rfl)
  case nSelectors => injection h with h; subst h
                     split
                     · exact .raised _ _ _ (by constructor <;> rfl) rfl (.inl rfl)
                     · exact .goOn _ (by constructor <;> rfl) (by simp) (fun e => by rw [hp] at e; exact e)
  case selectorMtf r =>
    simp only [exec, execSelectorMtf] at h
    split at h
    · injection h with h; subst h
      exact .raised _ _ _ (.refl s) rfl (.inl rfl)
    · injection h with h; subst h
      split <;> exact .goOn _ (by constructor <;> rfl) (by simp) (fun e => by rw [hp] at e; exact e)
  case clStart => injection h with h; subst h
                  exact .goOn _ (by constructor <;> rfl) (by simp) (fun e => by rw [hp] at e; exact e)
  case clDeltaEnd =>
    simp only [exec, execClDeltaEnd] at h
    injection h with h; subst h
    split
    · exact .goOn _ (by constructor <;> rfl) (by simp) (fun e => by rw [hp] at e; exact e)
    · split
      · exact .goOn _ (by constructor <;> rfl) (by simp) (fun e => by rw [hp] at e; exact e)
      · exact .goOn _ (enterDecode_frame (.trans (by constructor <;> rfl) (huffBuildAll_frame _)))
          (by simp [enterDecode]) (fun _ => rfl)
  case clDeltaInc => injection h with h; subst h
                     exact .goOn _ (by constructor <;> rfl) (by simp) (fun e => by rw [hp] at e; exact e)
  case clDeltaDec => injection h with h; subst h
                     exact .goOn _ (by constructor <;> rfl) (by simp) (fun e => by rw [hp] at e; exact e)
  case huffmanCodeword => injection h with h; subst h
                          split
                          · exact .goOn _ (by constructor <;> rfl) (by simp) (fun e => by rw [hp] at e; exact e)
                          · exact .raised _ _ _ (.refl s) rfl (.inl rfl)
  case runA => injection h with h; subst h
               unfold addRun; simp only
               split
               · exact .raised _ _ _ (by constructor <;> rfl) rfl (.inl rfl)
               · exact .goOn _ (by constructor <;> rfl) (by simp) (fun e => by rw [hp] at e; exact e)
  case runB => injection h with h; subst h
               unfold addRun; simp only
               split
               · exact .raised _ _ _ (by constructor <;> rfl) rfl (.inl rfl)
               · exact .goOn _ (by constructor <;> rfl) (by simp) (fun e => by rw [hp] at e; exact e)
  case lit v =>
    injection h with h; subst h
    unfold literal; simp only
    split
    · exact .raised _ _ _ (flushRun_frame s) (flushRun_stage s) (.inl rfl)
    · refine .goOn _ (.trans (flushRun_frame s) (by constructor <;> rfl)) (by simp) (fun e => ?_)
      rw [hp] at e
      exact (flushRun_stage s).trans e
  case eob =>
    injection h with h; subst h
    unfold endDecode; simp only
    split
    · exact .raised _ _ _ (.trans (flushRun_frame s) (by constructor <;> rfl)) (flushRun_stage s) (.inl rfl)
    · exact .goOn _ (.trans (flushRun_frame s) (by constructor <;> rfl)) (by simp) (fun _ => rfl)

end Sys2Proof.Machine
end

