-- ==== Sys2Proof/Laws/Emit.lean ====
section
/-! SUPPORT. Laws/Emit.lean: what the turns of EMIT_RLE1 can do, said once (spec/47_bwt_inverse.md R199 to R202). -/

namespace Sys2Proof.Machine

/-- The run state behind an extracted byte that is not a repeat count (R200). -/
def nextRun (run : BitVec 3) (last b : Byte) : BitVec 3 := if run ≠ 0 ∧ b = last then run + 1 else 1

/-- One turn of emitStage()'s loop: the end of the block, a repeat count, or a byte offered to the sink. -/
theorem extractTurn_cases (s : State) :
    (s.sym.bwtLen.toNat ≤ s.emit.extracted.toNat ∧ extractTurn s = { s with stage := .doneCheck, pos := .doneCheck })
    ∨ (s.emit.extracted.toNat < s.sym.bwtLen.toNat ∧ s.emit.rleRun = 4
      ∧ extractTurn s = { (extractByte s).2 with loop.copies := (extractByte s).1.toNat, pos := .repeatCopies })
    ∨ (s.emit.extracted.toNat < s.sym.bwtLen.toNat ∧ s.emit.rleRun ≠ 4
      ∧ extractTurn s = emitByte (extractByte s).1 { (extractByte s).2 with
          emit.rleLast := (extractByte s).1,
          emit.rleRun := nextRun s.emit.rleRun s.emit.rleLast (extractByte s).1, pos := .emitted }) := by
  unfold extractTurn
  split
  · next h =>
    by_cases h4 : s.emit.rleRun = 4
    · exact .inr (.inl ⟨h, h4, by simp [h4]⟩)
    · refine .inr (.inr ⟨h, h4, ?_⟩)
      simp only [h4, if_false]
      unfold nextRun
      split
      · next hb =>
        have hl : (extractByte s).2.emit.rleLast = (extractByte s).1 := hb.2.symm
        simp only [hl]
      · rfl
  · next h => exact .inl ⟨by omega, rfl⟩

/-- One turn of the repeat: its end, or a copy of RLE_LAST offered to the sink. -/
theorem repeatTurn_cases (s : State) :
    (s.loop.copies = 0 ∧ repeatTurn s = { s with emit.rleRun := 0, pos := .extract })
    ∨ (∃ n, s.loop.copies = n + 1
      ∧ repeatTurn s = emitByte s.emit.rleLast { s with loop.copies := n, pos := .repeated }) := by
  unfold repeatTurn
  split
  · next h => exact .inl ⟨h, rfl⟩
  · next n h => exact .inr ⟨n, h, rfl⟩

/-- DONE_CHECK: the CRC mismatch, or the block's CRC folded into the stream's and the block counted (R206 to R208). -/
theorem doneCheck_cases (s : State) :
    (computedCrc s ≠ s.regs.expectedCrc ∧ doneCheck s = raise .blockCrcMismatch .none s)
    ∨ (computedCrc s = s.regs.expectedCrc ∧ doneCheck s = complete { s with
        regs.streamCrc := rotl1 s.regs.streamCrc ^^^ computedCrc s, regs.blockCount := s.regs.blockCount + 1 }) := by
  unfold doneCheck
  split
  · next h => exact .inl ⟨h, rfl⟩
  · next h => exact .inr ⟨by simpa using h, rfl⟩

end Sys2Proof.Machine
end

