-- ==== Sys2Proof/Laws/Invariant.lean ====
section
/-! SUPPORT. Laws/Invariant.lean: the case analysis of a step, once, for any predicate: a predicate is kept by every step
when the core's moves, the command words and the few other moves keep it. -/

namespace Sys2Proof.Machine

/-- What an answer of the source does: nothing, or it ends the pending request (spec/20_memory.md R73). -/
theorem sourceAnswer_cases (s : State) : sourceAnswer s = s ∨ ∃ a rest, s.status.inWait = true ∧ s.source = a :: rest
    ∧ sourceAnswer s = { s with status.inWait := false, status.inEos := decide (a = .eos), inAnswer := some a,
                                source := rest, atCut := true } := by
  unfold sourceAnswer
  split
  · next a rest hw hs => exact .inr ⟨a, rest, hw, hs, rfl⟩
  · exact .inl rfl

/-- What an acceptance of the sink does: nothing, or it ends the pending offer (spec/20_memory.md R75). -/
theorem sinkAccept_cases (s : State) : sinkAccept s = s ∨ (s.status.outWait = true
    ∧ sinkAccept s = { s with status.outWait := false, sink := s.sink ++ [s.outHold], atCut := true }) := by
  unfold sinkAccept
  split
  · next hw => exact .inr ⟨hw, rfl⟩
  · exact .inl rfl

/-- A predicate that each kind of move keeps is kept by every step. -/
theorem step_keeps {P : State → Prop}
    (schedule : ∀ s r, P s → P { s with schedule := r })
    (core : ∀ s s', P s → coreCanStep s = true → CoreMove { s with atCut := false } s' → P s')
    (host : ∀ s h b f, P s → P { s with host := h, bus := b, freeCount := f })
    (command : ∀ w s s', P s → s.inReset = false → inCoreStep s = false → CommandMove w s s' → P s')
    (ctrl : ∀ s v, P s → P (writeCtrl v s))
    (arg : ∀ s v, P s → P (writeArg v s))
    (source : ∀ s a rest, P s → s.status.inWait = true → s.source = a :: rest →
      P { s with status.inWait := false, status.inEos := decide (a = .eos), inAnswer := some a, source := rest,
                 atCut := true })
    (sink : ∀ s, P s → s.status.outWait = true →
      P { s with status.outWait := false, sink := s.sink ++ [s.outHold], atCut := true })
    (assert : ∀ s, P s → P (resetAssert s))
    (release : ∀ s, P s → P (resetRelease s))
    {s s' : State} (hs : P s) (e : step s = .next s') : P s' := by
  have host_keeps {words : Word → Prop} {r : List Event} {s' : State} (hq : inCoreStep s = false)
      (h : HostMove words { s with schedule := r } s') : P s' := by
    have hr := schedule s r hs
    cases h with
    | quiet h b f => exact host _ h b f hr
    | command h b w _ hres _ ho => exact command w _ _ (host _ h b s.freeCount hr) hres hq (offerCommand_move ho)
    | ctrl h b f v _ => exact ctrl _ v (host _ h b f hr)
    | arg h b f v _ => exact arg _ v (host _ h b f hr)
  cases step_move e with
  | pass r => exact schedule s r hs
  | core r _ hc h => exact core _ _ (schedule s r hs) hc (coreStep_move h)
  | access a r _ hq _ h => exact host_keeps hq h
  | procedure r _ hq h => exact host_keeps hq h
  | source r _ hw =>
    rcases sourceAnswer_cases { s with schedule := r } with h | ⟨a, rest, hw, hs', h⟩
    · rw [h]; exact schedule s r hs
    · rw [h]; exact source _ a rest (schedule s r hs) hw hs'
  | sink r _ hw =>
    rcases sinkAccept_cases { s with schedule := r } with h | ⟨hw, h⟩
    · rw [h]; exact schedule s r hs
    · rw [h]; exact sink _ (schedule s r hs) hw
  | resetAssert r _ _ => exact assert _ (schedule s r hs)
  | resetRelease r _ _ => exact release _ (schedule s r hs)

end Sys2Proof.Machine
end

