-- ==== Sys2Proof/Laws/Memory.lean ====
section
/-! SUPPORT. Laws/Memory.lean: what reading, writing and filling an internal memory do, and that each keeps the canonical
form. -/

namespace Sys2Proof.Machine

variable {α : Type}

/-! ## Reading -/

@[simp] theorem memRead?_nil (a : Nat) : memRead? ([] : Mem α) a = none := rfl

theorem memRead?_cons (k : Nat) (v : α) (m : Mem α) (a : Nat) :
    memRead? ((k, v) :: m) a = if k = a then some v else memRead? m a := rfl

theorem memRead?_append (m₁ m₂ : Mem α) (a : Nat) :
    memRead? (m₁ ++ m₂) a = (memRead? m₁ a).or (memRead? m₂ a) := by
  induction m₁ with
  | nil => simp
  | cons e m ih =>
    obtain ⟨k, v⟩ := e
    by_cases h : k = a <;> simp [memRead?_cons, h, ih]

/-- An entry whose index is not listed has no value. -/
theorem memRead?_eq_none (m : Mem α) (a : Nat) (h : ∀ e ∈ m, e.1 ≠ a) : memRead? m a = none := by
  induction m with
  | nil => rfl
  | cons e m ih =>
    obtain ⟨k, v⟩ := e
    have hk : k ≠ a := h (k, v) (by simp)
    rw [memRead?_cons, if_neg hk]
    exact ih fun e he => h e (by simp [he])

/-- A read that gives a value gives a listed one. -/
theorem mem_of_memRead? {m : Mem α} {a : Nat} {v : α} (h : memRead? m a = some v) : (a, v) ∈ m := by
  induction m with
  | nil => simp at h
  | cons e m ih =>
    obtain ⟨k, x⟩ := e
    rw [memRead?_cons] at h
    split at h
    · next hk => simp_all
    · exact List.mem_cons_of_mem _ (ih h)

theorem memRead?_filter (m : Mem α) (p : Nat → Bool) (a : Nat) :
    memRead? (m.filter fun e => p e.1) a = if p a then memRead? m a else none := by
  induction m with
  | nil => simp
  | cons e m ih =>
    obtain ⟨k, v⟩ := e
    by_cases hk : k = a
    · subst hk; by_cases hp : p k <;> simp [memRead?_cons, hp, ih]
    · by_cases hp : p k <;> simp [memRead?_cons, hp, hk, ih]

/-- spec/20_memory.md R82: a read returns the most recent write, and a write leaves every other entry alone. -/
theorem memRead?_memWrite (m : Mem α) (a b : Nat) (v : α) (h : Memory.wf m) :
    memRead? (memWrite m a v) b = if a = b then some v else memRead? m b := by
  induction m with
  | nil => simp [memWrite, memRead?_cons]
  | cons e m ih =>
    obtain ⟨k, x⟩ := e
    have h' : Memory.wf m := (List.pairwise_cons.1 h).2
    unfold memWrite
    split
    · simp [memRead?_cons]
    · split
      · next h₂ => subst h₂; by_cases hb : a = b <;> simp [memRead?_cons, hb]
      · next h₁ h₂ =>
        by_cases hk : k = b
        · subst hk; simp [memRead?_cons, h₂]
        · simp [memRead?_cons, hk, ih h']

theorem memRead?_memWrite_self (m : Mem α) (a : Nat) (v : α) : memRead? (memWrite m a v) a = some v := by
  induction m with
  | nil => simp [memWrite, memRead?_cons]
  | cons e m ih =>
    obtain ⟨k, x⟩ := e
    unfold memWrite
    split
    · simp [memRead?_cons]
    · split
      · simp [memRead?_cons]
      · next h₁ h₂ => rw [memRead?_cons, if_neg (Ne.symm h₂), ih]

theorem memRead?_memWrite_of_ne (m : Mem α) {a b : Nat} (v : α) (hab : a ≠ b) :
    memRead? (memWrite m a v) b = memRead? m b := by
  induction m with
  | nil => simp [memWrite, memRead?_cons, hab]
  | cons e m ih =>
    obtain ⟨k, x⟩ := e
    unfold memWrite
    split
    · simp [memRead?_cons, hab]
    · split
      · next h₂ => subst h₂; simp [memRead?_cons, hab]
      · rw [memRead?_cons, memRead?_cons, ih]

theorem memRead?_rangeFill (a n : Nat) (v : α) (b : Nat) :
    memRead? ((List.range n).map fun k => (a + k, v)) b = if a ≤ b ∧ b < a + n then some v else none := by
  induction n with
  | zero => rw [if_neg (by omega)]; simp
  | succ n ih =>
    rw [List.range_succ, List.map_append, memRead?_append, ih]
    simp only [List.map_cons, List.map_nil, memRead?_cons, memRead?_nil]
    split_ifs <;> first | rfl | (exfalso; omega)

/-- A fill writes its entries and leaves every other one alone. -/
theorem memRead?_memFill (m : Mem α) (a n : Nat) (v : α) (b : Nat) :
    memRead? (memFill m a n v) b = if a ≤ b ∧ b < a + n then some v else memRead? m b := by
  unfold memFill
  rw [memRead?_append, memRead?_append, memRead?_rangeFill,
    memRead?_filter m (fun k => decide (k < a)), memRead?_filter m (fun k => decide (a + n ≤ k))]
  simp only [decide_eq_true_eq]
  split_ifs <;> first | (exfalso; omega) | simp

theorem memRead?_memWriteList (m : Mem α) (a : Nat) (vs : List α) (b : Nat) :
    memRead? (memWriteList m a vs) b = if a ≤ b ∧ b < a + vs.length then vs[b - a]? else memRead? m b := by
  induction vs generalizing m a with
  | nil => simp [memWriteList]
  | cons v vs ih =>
    unfold memWriteList
    rw [ih]
    by_cases hab : a = b
    · subst hab
      rw [if_neg (by omega), memRead?_memWrite_self, if_pos (by simp)]
      simp
    · rw [memRead?_memWrite_of_ne _ _ hab]
      by_cases hb : a + 1 ≤ b ∧ b < a + 1 + vs.length
      · rw [if_pos hb, if_pos (by simp; omega)]
        obtain ⟨d, hd⟩ : ∃ d, b = a + (d + 1) := ⟨b - a - 1, by omega⟩
        subst hd
        rw [show a + (d + 1) - (a + 1) = d by omega, show a + (d + 1) - a = d + 1 by omega]
        rfl
      · rw [if_neg hb, if_neg (by simp; omega)]

@[simp] theorem memRead_of_some {w : Nat} {name : Config.MemName} {m : Mem (BitVec w)} {a : Nat} {v : BitVec w}
    (h : memRead? m a = some v) : memRead name m a = v := by
  simp [memRead, h]

/-! ## The canonical form -/

theorem memory_wf_nil : Memory.wf ([] : Mem α) := List.Pairwise.nil

theorem mem_keys_memWrite {m : Mem α} {a k : Nat} {v : α} (h : k ∈ (memWrite m a v).map Prod.fst) :
    k = a ∨ k ∈ m.map Prod.fst := by
  induction m with
  | nil => simpa [memWrite] using h
  | cons e m ih =>
    obtain ⟨j, x⟩ := e
    unfold memWrite at h
    split at h
    · simpa using h
    · split at h
      · next hj => subst hj; simp only [List.map_cons, List.mem_cons] at h ⊢; tauto
      · simp only [List.map_cons, List.mem_cons] at h ⊢
        rcases h with h | h
        · exact .inr (.inl h)
        · rcases ih h with h | h
          · exact .inl h
          · exact .inr (.inr h)

/-- A write keeps the canonical form. -/
theorem memWrite_wf {m : Mem α} (a : Nat) (v : α) (h : Memory.wf m) : Memory.wf (memWrite m a v) := by
  induction m with
  | nil => simp [memWrite, Memory.wf]
  | cons e m ih =>
    obtain ⟨k, x⟩ := e
    have h' : ∀ j ∈ m.map Prod.fst, k < j := (List.pairwise_cons.1 h).1
    have hm : Memory.wf m := (List.pairwise_cons.1 h).2
    unfold memWrite
    split
    · next hak =>
      refine List.pairwise_cons.2 ⟨?_, h⟩
      intro j hj
      rcases List.mem_cons.1 hj with rfl | hj
      · exact hak
      · exact lt_trans hak (h' j hj)
    · split
      · next hak => subst hak; exact List.pairwise_cons.2 ⟨h', hm⟩
      · next h₁ h₂ =>
        refine List.pairwise_cons.2 ⟨?_, ih hm⟩
        intro j hj
        rcases mem_keys_memWrite hj with rfl | hj
        · show k < j; omega
        · exact h' j hj

theorem memWriteList_wf {m : Mem α} (a : Nat) (vs : List α) (h : Memory.wf m) : Memory.wf (memWriteList m a vs) := by
  induction vs generalizing m a with
  | nil => exact h
  | cons v vs ih => exact ih (a + 1) (memWrite_wf a v h)

theorem filter_wf {m : Mem α} (p : Nat × α → Bool) (h : Memory.wf m) : Memory.wf (m.filter p) :=
  List.Pairwise.sublist (List.Sublist.map _ List.filter_sublist) h

/-- A fill keeps the canonical form. -/
theorem memFill_wf {m : Mem α} (a n : Nat) (v : α) (h : Memory.wf m) : Memory.wf (memFill m a n v) := by
  unfold memFill Memory.wf
  rw [List.map_append, List.map_append, List.pairwise_append, List.pairwise_append]
  refine ⟨⟨filter_wf _ h, ?_, ?_⟩, filter_wf _ h, ?_⟩
  · rw [List.map_map, List.pairwise_map]
    exact List.Pairwise.imp (fun h => by simpa using h) List.pairwise_lt_range
  · intro x hx y hy
    simp only [List.mem_map, List.mem_filter, List.mem_range, decide_eq_true_eq] at hx hy
    obtain ⟨e, ⟨-, he⟩, rfl⟩ := hx
    obtain ⟨_, ⟨k, -, rfl⟩, rfl⟩ := hy
    show e.1 < a + k
    omega
  · intro x hx y hy
    simp only [List.mem_append, List.mem_map, List.mem_filter, List.mem_range, decide_eq_true_eq] at hx hy
    obtain ⟨f, ⟨-, hf⟩, rfl⟩ := hy
    rcases hx with ⟨e, ⟨-, he⟩, rfl⟩ | ⟨_, ⟨k, hk, rfl⟩, rfl⟩
    · omega
    · show a + k < f.1
      omega

/-- A fold of writes keeps the canonical form. -/
theorem foldl_memWrite_wf {β : Type} (l : List β) (key : β → Nat) (val : β → α) {m : Mem α} (h : Memory.wf m) :
    Memory.wf (l.foldl (fun m r => memWrite m (key r) (val r)) m) := by
  induction l generalizing m with
  | nil => exact h
  | cons r l ih => exact ih (memWrite_wf _ _ h)

end Sys2Proof.Machine
end

