-- ==== Sys2Proof/Laws/Operands.lean ====
section
/-! SUPPORT. Laws/Operands.lean: what the operations behind the elements do, said once: promote, the symbol map's
ranges, building the tables, the histogram, flushing a run, filling the buckets. -/

namespace Sys2Proof.Machine

/-! ## promote (spec/42_mtf.md R131) -/

/-- Moving a value to the front keeps the list a permutation of what it was. -/
theorem promote_perm (name : Config.MemName) (m : List Byte) (k : Nat) : (promote name m k).2.Perm m := by
  unfold promote
  split
  · next v h =>
    obtain ⟨hk, hv⟩ := List.getElem?_eq_some_iff.1 h
    subst hv
    exact List.getElem_cons_eraseIdx_perm hk
  · exact .refl _

/-- In range, promote gives the value at the index and puts it in front of the others in their order. -/
theorem promote_of_lt (name : Config.MemName) {m : List Byte} {k : Nat} (h : k < m.length) :
    promote name m k = (m[k], m[k] :: m.eraseIdx k) := by
  unfold promote
  rw [List.getElem?_eq_getElem h]

theorem length_identityMtf : identityMtf.length = 256 := by simp [identityMtf]

/-! ## The symbol map (spec/45_block_header.md R169 to R171) -/

theorem nextRange_some {u : BitVec 16} {i j : Nat} (h : nextRange u i = some j) :
    i ≤ j ∧ j < 16 ∧ u.getMsbD j = true ∧ ∀ k, i ≤ k → k < j → u.getMsbD k = false := by
  unfold nextRange at h
  obtain ⟨hp, as, bs, hl, hn⟩ := List.find?_eq_some_iff_append.1 h
  have hm : j ∈ List.range 16 := by rw [hl]; simp
  have hj := List.mem_range.1 hm
  simp only [Bool.and_eq_true, decide_eq_true_eq] at hp
  refine ⟨hp.1, hj, hp.2, fun k hik hkj => ?_⟩
  have hlen : as.length = j := by
    have h1 : (List.range 16)[as.length]? = some j := by rw [hl]; simp
    rw [List.getElem?_range (by have := congrArg List.length hl; simp at this; omega)] at h1
    exact Option.some.inj h1
  have hk : k ∈ as := by
    have h1 : (List.range 16)[k]? = some k := by rw [List.getElem?_range (by omega)]
    rw [hl, List.getElem?_append_left (by omega)] at h1
    exact List.mem_of_getElem? h1
  have := hn k hk
  simpa [hik] using this

theorem nextRange_none {u : BitVec 16} {i : Nat} (h : nextRange u i = none) :
    ∀ k, i ≤ k → k < 16 → u.getMsbD k = false := by
  intro k hik hk
  have := List.find?_eq_none.1 h k (List.mem_range.2 hk)
  simpa [hik] using this

theorem rangeBytes_toNat {i j : Nat} (hi : i < 16) (hj : j < 16) : (BitVec.ofNat 8 (16 * i + j)).toNat = 16 * i + j := by
  rw [BitVec.toNat_ofNat, Nat.mod_eq_of_lt]; omega

/-- The values of a range are ascending and lie in the range. -/
theorem rangeBytes_sorted {i : Nat} (hi : i < 16) (u : BitVec 16) :
    (rangeBytes i u).Pairwise (· < ·) ∧ ∀ b ∈ rangeBytes i u, 16 * i ≤ b.toNat ∧ b.toNat < 16 * (i + 1) := by
  have hm : ∀ j ∈ (List.range 16).filter u.getMsbD, j < 16 := fun j hj => List.mem_range.1 (List.mem_filter.1 hj).1
  constructor
  · unfold rangeBytes
    rw [List.pairwise_map]
    refine List.Pairwise.imp_of_mem ?_ (List.Pairwise.filter _ List.pairwise_lt_range)
    intro a b ha hb hab
    rw [BitVec.lt_def, rangeBytes_toNat hi (hm a ha), rangeBytes_toNat hi (hm b hb)]
    omega
  · intro b hb
    obtain ⟨j, hj, rfl⟩ := List.mem_map.1 hb
    have := hm j hj
    rw [rangeBytes_toNat hi this]
    omega

/-! ## Building the tables (spec/43_huffman.md R136) -/

/-- Building the tables writes the tables only. -/
theorem huffBuildAll_eq (s : State) : ∃ mn mx ba li pe, huffBuildAll s = { s with
    mem.minLen := mn, mem.maxLen := mx, mem.base := ba, mem.limit := li, mem.perm := pe } := by
  have go : ∀ (l : List Nat) (u : State), ∃ mn mx ba li pe, l.foldl huffBuild u = { u with
      mem.minLen := mn, mem.maxLen := mx, mem.base := ba, mem.limit := li, mem.perm := pe } := by
    intro l
    induction l with
    | nil => intro u; exact ⟨u.mem.minLen, u.mem.maxLen, u.mem.base, u.mem.limit, u.mem.perm, rfl⟩
    | cons t l ih =>
      intro u
      obtain ⟨mn, mx, ba, li, pe, h⟩ := ih (huffBuild u t)
      exact ⟨mn, mx, ba, li, pe, h⟩
  exact go _ s

theorem huffBuild_canonical (t : Nat) {s : State} (p : MemoriesCanonical s.mem) :
    MemoriesCanonical (huffBuild s t).mem where
  sel := p.sel
  len := p.len
  minLen := memWrite_wf _ _ p.minLen
  maxLen := memWrite_wf _ _ p.maxLen
  base := foldl_memWrite_wf _ _ _ p.base
  limit := foldl_memWrite_wf _ _ _ p.limit
  perm := memWriteList_wf _ _ p.perm
  byteCount := p.byteCount
  charBase := p.charBase
  bwt := p.bwt
  bucket := p.bucket

theorem huffBuildAll_canonical {s : State} (p : MemoriesCanonical s.mem) :
    MemoriesCanonical (huffBuildAll s).mem := by
  have go : ∀ (l : List Nat) (u : State), MemoriesCanonical u.mem → MemoriesCanonical (l.foldl huffBuild u).mem := by
    intro l
    induction l with
    | nil => intro u h; exact h
    | cons t l ih => intro u h; exact ih _ (huffBuild_canonical t h)
  exact go _ _ p

/-! ## The pending run (spec/46_symbol_decode.md R184) -/

/-- flushRun(): nothing, or the run's bytes stored and counted. -/
theorem flushRun_cases (s : State) : (s.sym.runLen = 0 ∧ flushRun s = s) ∨ (s.sym.runLen ≠ 0 ∧
    ∃ v, v = symMapAt s (front .litMtf s.litMtf).toNat ∧ flushRun s = { s with
      mem.byteCount := memWrite s.mem.byteCount v.toNat
        (memRead .byteCount s.mem.byteCount v.toNat + s.sym.runLen.setWidth 20),
      mem.bwt := memFill s.mem.bwt s.sym.bwtLen.toNat s.sym.runLen.toNat v,
      sym.bwtLen := s.sym.bwtLen + s.sym.runLen.setWidth 20, sym.runLen := 0, sym.runBit := 1 }) := by
  unfold flushRun
  split
  · next h => exact .inl ⟨h, rfl⟩
  · next h => exact .inr ⟨h, _, rfl, rfl⟩

theorem flushRun_canonical {s : State} (p : MemoriesCanonical s.mem) : MemoriesCanonical (flushRun s).mem := by
  rcases flushRun_cases s with ⟨-, e⟩ | ⟨-, v, -, e⟩ <;> rw [e]
  · exact p
  · exact ⟨p.sel, p.len, p.minLen, p.maxLen, p.base, p.limit, p.perm, memWrite_wf _ _ p.byteCount, p.charBase,
      memFill_wf _ _ _ p.bwt, p.bucket⟩

/-! ## The bucket fill (spec/47_bwt_inverse.md R196) -/

theorem fillStep_foldl_wf (bwt : Mem Byte) (l : List Nat) {m : Mem (BitVec 20) × Mem Word} (h1 : Memory.wf m.1)
    (h2 : Memory.wf m.2) : Memory.wf (l.foldl (fillStep bwt) m).1 ∧ Memory.wf (l.foldl (fillStep bwt) m).2 := by
  induction l generalizing m with
  | nil => exact ⟨h1, h2⟩
  | cons i l ih => exact ih (memWrite_wf _ _ h1) (memWrite_wf _ _ h2)

theorem fillBuckets_wf {s : State} (p : MemoriesCanonical s.mem) :
    Memory.wf (fillBuckets s).1 ∧ Memory.wf (fillBuckets s).2 := by
  have hq : Memory.wf (memWriteList s.mem.charBase 0 (charBases s)) := memWriteList_wf _ _ p.charBase
  unfold fillBuckets
  generalize memWriteList s.mem.charBase 0 (charBases s) = q at hq ⊢
  exact fillStep_foldl_wf _ _ hq p.bucket

/-! ## The host's fields (spec/70_reset_and_hazards.md R275) -/

/-- The element's bits are those of a value exactly when the whole word read has that value. -/
theorem elementBits_eq_iff {w n : Nat} (hn : n < w) (v : BitVec w) (m : BitVec n) :
    elementBits n v = bitsOf m ↔ v.toNat = m.toNat := by
  have hm := m.isLt
  unfold elementBits
  split
  · next h =>
    refine ⟨fun e => ?_, fun e => ?_⟩
    · rw [← bitsOf_injective e, BitVec.toNat_setWidth, Nat.mod_eq_of_lt h]
    · congr 1
      apply BitVec.eq_of_toNat_eq
      rw [BitVec.toNat_setWidth, Nat.mod_eq_of_lt h, e]
  · next h =>
    refine ⟨fun e => ?_, fun e => absurd (e ▸ hm) h⟩
    have hl := congrArg List.length e
    simp only [length_bitsOf] at hl
    omega

/-- READ48's value is a << 24 | b as a number. -/
theorem read48_toNat (a b : Word) : (read48 a b).toNat = a.toNat <<< 24 ||| b.toNat := by
  have ha := a.isLt
  have hb := b.isLt
  have h : a.toNat <<< 24 < 2 ^ 56 := by rw [Nat.shiftLeft_eq]; omega
  simp only [read48, BitVec.toNat_or, BitVec.toNat_shiftLeft, BitVec.toNat_setWidth]
  rw [Nat.mod_eq_of_lt (by omega : a.toNat < 2 ^ 56), Nat.mod_eq_of_lt (by omega : b.toNat < 2 ^ 56),
    Nat.mod_eq_of_lt h]

/-! ## CTRL and the host's word for it (spec/10_state.md R22 to R25, spec/70_reset_and_hazards.md R275) -/

@[simp] theorem ctrlWord_strict (s : State) : (ctrlWord s)[4] = s.ctrl.strict := by
  rw [← BitVec.getLsbD_eq_getElem]
  simp only [ctrlWord, BitVec.getLsbD_append]
  simp

@[simp] theorem ctrlWord_irqEn (s : State) : (ctrlWord s)[5] = s.ctrl.irqEn := by
  rw [← BitVec.getLsbD_eq_getElem]
  simp only [ctrlWord, BitVec.getLsbD_append]
  simp

/-- The host's word gives BLOCKSIZE the level, and CTRL's other fields those of the word read. -/
@[simp] theorem levelWord_blockSize (h : HostAgent) : (levelWord h).extractLsb' 0 4 = h.level := by
  apply BitVec.eq_of_getLsbD_eq
  intro i hi
  have hm : Nat.testBit 15 i = true := by interval_cases i <;> decide
  simp only [levelWord, BitVec.getLsbD_extractLsb', BitVec.getLsbD_and, BitVec.getLsbD_or, BitVec.getLsbD_not,
    BitVec.getLsbD_ofNat, BitVec.getLsbD_setWidth]
  simp [hi, hm]
  omega

@[simp] theorem levelWord_strict (h : HostAgent) : (levelWord h)[4] = h.ctrl[4] := by simp [levelWord]

@[simp] theorem levelWord_irqEn (h : HostAgent) : (levelWord h)[5] = h.ctrl[5] := by simp [levelWord]

end Sys2Proof.Machine
end

