-- ==== Sys2Proof/Laws/PerInstr.lean ====
section
/-! SUPPORT. Laws/PerInstr.lean: the round trip of each instruction, one lemma per constructor: in every slot that admits
the instruction, what the encoder writes decodes back to it. -/

namespace Sys2Proof.Laws.RoundTrip

/-- In every slot that admits i, the code of i decodes to i. -/
def Statement (i : Instr) : Prop := ∀ slot : Slot, slot.admits i = true → decode slot (encode slot i) = .ok i

theorem whole_bitsOf {n : Nat} (v : BitVec n) (i : Instr) : whole n (bitsOf v) i = .ok i := by simp [whole]

theorem nop : Statement .nop := by
  intro slot h; obtain rfl := of_decide_eq_true h; rfl
theorem softReset : Statement .softReset := by
  intro slot h; obtain rfl := of_decide_eq_true h; rfl
theorem clearError : Statement .clearError := by
  intro slot h; obtain rfl := of_decide_eq_true h; rfl
theorem decodeBlock : Statement .decodeBlock := by
  intro slot h; obtain rfl := of_decide_eq_true h; rfl
theorem checkStreamCrc : Statement .checkStreamCrc := by
  intro slot h; obtain rfl := of_decide_eq_true h; rfl
theorem clearStreamCrc : Statement .clearStreamCrc := by
  intro slot h; obtain rfl := of_decide_eq_true h; rfl
theorem readBits (n : BitVec 8) : Statement (.readBits n) := by
  intro slot h
  obtain rfl := of_decide_eq_true h
  simp [decode, encode, decodeCommand, opcodeOf_commandWord, countOf_commandWord, reservedOf_commandWord]

theorem streamMagic : Statement .streamMagic := by
  intro slot h; obtain rfl := of_decide_eq_true h; rfl
theorem blockMagic : Statement .blockMagic := by
  intro slot h; obtain rfl := of_decide_eq_true h; rfl
theorem eosMagic : Statement .eosMagic := by
  intro slot h; obtain rfl := of_decide_eq_true h; rfl
theorem levelDigit (d : BitVec 4) : Statement (.levelDigit d) := by
  intro slot h
  obtain rfl := of_decide_eq_true h
  have ht : (bitsOf ((0x3 : BitVec 4) ++ d)).take 4 = bitsOf (0x3 : BitVec 4) := by
    rw [bitsOf_append, List.take_left' (length_bitsOf _)]
  have hd : (bitsOf ((0x3 : BitVec 4) ++ d)).drop 4 = bitsOf d := by
    rw [bitsOf_append, List.drop_left' (length_bitsOf _)]
  show (if _ then _ else _) = _
  rw [if_pos ⟨length_bitsOf _, ht⟩, hd, fieldOf_bitsOf]
theorem streamCrc (c : Word) : Statement (.streamCrc c) := by
  intro slot h; obtain rfl := of_decide_eq_true h
  simp [decode, encode, decodeBits, whole_bitsOf]

theorem blkCrcHi (c : BitVec 16) : Statement (.blkCrcHi c) := by
  intro slot h; obtain rfl := of_decide_eq_true h
  simp [decode, encode, decodeBits, whole_bitsOf]
theorem blkCrcLo (c : BitVec 16) : Statement (.blkCrcLo c) := by
  intro slot h; obtain rfl := of_decide_eq_true h
  simp [decode, encode, decodeBits, whole_bitsOf]
theorem randomised (flag : Bool) : Statement (.randomised flag) := by
  intro slot h; obtain rfl := of_decide_eq_true h; cases flag <;> rfl
theorem origPtr (p : BitVec 24) : Statement (.origPtr p) := by
  intro slot h; obtain rfl := of_decide_eq_true h
  simp [decode, encode, decodeBits, whole_bitsOf]
theorem usedRanges (u : BitVec 16) : Statement (.usedRanges u) := by
  intro slot h; obtain rfl := of_decide_eq_true h
  simp [decode, encode, decodeBits, whole_bitsOf]
theorem usedSub (u : BitVec 16) : Statement (.usedSub u) := by
  intro slot h; obtain rfl := of_decide_eq_true h
  simp [decode, encode, decodeBits, whole_bitsOf]
theorem nTables (t : BitVec 3) : Statement (.nTables t) := by
  intro slot h; obtain rfl := of_decide_eq_true h
  simp [decode, encode, decodeBits, whole_bitsOf]
theorem nSelectors (n : BitVec 15) : Statement (.nSelectors n) := by
  intro slot h; obtain rfl := of_decide_eq_true h
  simp [decode, encode, decodeBits, whole_bitsOf]
theorem selectorMtf (r : Nat) : Statement (.selectorMtf r) := by
  intro slot h; cases slot <;> simp [Slot.admits] at h
  simp [decode, encode, decodeBits, decodeUnary]
theorem clStart (l : BitVec 5) : Statement (.clStart l) := by
  intro slot h; obtain rfl := of_decide_eq_true h
  simp [decode, encode, decodeBits, whole_bitsOf]
theorem clDeltaEnd : Statement .clDeltaEnd := by
  intro slot h; obtain rfl := of_decide_eq_true h; rfl
theorem clDeltaInc : Statement .clDeltaInc := by
  intro slot h; obtain rfl := of_decide_eq_true h; rfl
theorem clDeltaDec : Statement .clDeltaDec := by
  intro slot h; obtain rfl := of_decide_eq_true h; rfl
theorem huffmanCodeword (h : Bits) : Statement (.huffmanCodeword h) := by
  intro slot ha; cases slot <;> simp [Slot.admits] at ha
  simp [decode, encode, decodeBits, decodeCodeword, ha]

theorem runA : Statement .runA := by
  intro slot h; cases slot <;> first | rfl | exact absurd h Bool.false_ne_true
theorem runB : Statement .runB := by
  intro slot h; cases slot <;> first | rfl | exact absurd h Bool.false_ne_true
theorem lit (v : BitVec 9) : Statement (.lit v) := by
  intro slot h
  cases slot <;> simp [Slot.admits] at h
  rename_i used
  have h0 : v ≠ 0 := by rintro rfl; simp at h
  have h1 : v ≠ 1 := by rintro rfl; simp at h
  have h2 : v.toNat ≠ used + 1 := by omega
  show Except.ok (decodeSymbol used v) = _
  rw [decodeSymbol, if_neg h0, if_neg h1, if_neg h2]
theorem eob : Statement .eob := by
  intro slot h
  cases slot <;> simp [Slot.admits] at h
  rename_i used
  have hn : (BitVec.ofNat 9 (used + 1)).toNat = used + 1 := by
    rw [BitVec.toNat_ofNat, Nat.mod_eq_of_lt]; omega
  have h0 : BitVec.ofNat 9 (used + 1) ≠ 0 := by intro e; rw [e] at hn; simp at hn
  have h1 : BitVec.ofNat 9 (used + 1) ≠ 1 := by intro e; rw [e] at hn; simp at hn; omega
  show Except.ok (decodeSymbol used (BitVec.ofNat 9 (used + 1))) = _
  rw [decodeSymbol, if_neg h0, if_neg h1, if_pos hn]

end Sys2Proof.Laws.RoundTrip
end

