-- ==== Sys2Proof/Laws/Run.lean ====
section
/-! SUPPORT. Laws/Run.lean: runs one step at a time; which agent the next step is with nothing scheduled; and what a
schedule of core, source and sink events comes to. -/

namespace Sys2Proof.Machine

/-- A run of k + 1 steps is its first step and a run of k. -/
theorem run_succ {s s' : State} (k : Nat) (h : step s = .next s') : core.run (k + 1) s = core.run k s' := by
  have h' : core.step s = .next s' := h
  simp only [Host.Core.run]
  rw [h']

/-- A run of j steps and a run of k more. -/
theorem run_add {s t : State} (j k : Nat) (h : core.run j s = .next t) : core.run (j + k) s = core.run k t := by
  induction j generalizing s with
  | zero => simp only [Host.Core.run] at h; injection h with h; rw [h, Nat.zero_add]
  | succ j ih =>
    have hc : core.step s = step s := rfl
    simp only [Host.Core.run, hc] at h
    cases hs : step s with
    | next s' => rw [hs] at h; rw [Nat.add_right_comm, run_succ _ hs]; exact ih h
    | fault r => rw [hs] at h; cases h
    | refused r => rw [hs] at h; cases h

/-- A run of one step. -/
theorem run_one {s : State} : core.run 1 s = step s := by
  have hc : core.step s = step s := rfl
  simp only [Host.Core.run, hc]
  cases step s <;> rfl

/-- What it takes for the core to move. -/
theorem coreCanStep_iff (s : State) : coreCanStep s = true ↔
    s.status.busy = true ∧ s.status.inWait = false ∧ s.status.outWait = false ∧ s.inReset = false := by
  simp [coreCanStep, and_assoc]

/-- The eager move is the core's when the core can move. -/
theorem runEager_core {s : State} (h : coreCanStep s = true) : runEager s = coreStep s := by
  obtain ⟨hb, hi, ho, hr⟩ := (coreCanStep_iff s).1 h
  simp [runEager, hb, hi, ho, hr]

/-- The eager move answers a pending request (spec/20_memory.md R73). -/
theorem runEager_source {s : State} (h : s.status.inWait = true) (hr : s.inReset = false) :
    runEager s = .next (sourceAnswer s) := by
  simp [runEager, h, hr]

/-- The eager move accepts an offered byte (spec/20_memory.md R75). -/
theorem runEager_sink {s : State} (h : s.status.outWait = true) (hi : s.status.inWait = false)
    (hr : s.inReset = false) : runEager s = .next (sinkAccept s) := by
  simp [runEager, h, hi, hr]

/-- Inside a core step the eager move happens, the core's, whatever is scheduled. -/
theorem step_inside {s : State} (h : inCoreStep s = true) : step s = runEager s := by
  have hc : coreCanStep s = true := by simp only [inCoreStep, Bool.and_eq_true] at h; exact h.1
  rw [runEager_core hc, step, if_pos h]

/-- At a cut the next event happens. -/
theorem step_event {s : State} {e : Event} {r : List Event} (h : inCoreStep s = false) (hs : s.schedule = e :: r) :
    step s = runEvent e { s with schedule := r } := by
  simp only [step, h, Bool.false_eq_true, if_false, runNext, hs]

/-- At a cut with nothing scheduled the eager move happens. -/
theorem step_eager {s : State} (h : inCoreStep s = false) (hs : s.schedule = []) : step s = runEager s := by
  simp only [step, h, Bool.false_eq_true, if_false, runNext, hs]

/-- While a command runs, an event of the core, the source or the sink is the eager move, or passes (log 20). -/
theorem runEvent_port {s : State} {e : Event} (hb : s.status.busy = true) (hr : s.inReset = false)
    (ho : s.status.inWait = true → s.status.outWait = false) (he : e = .core ∨ e = .source ∨ e = .sink) :
    runEvent e s = runEager s ∨ runEvent e s = .next s := by
  cases hi : s.status.inWait <;> cases hw : s.status.outWait <;> rcases he with rfl | rfl | rfl <;>
    simp [runEvent, runEager, coreCanStep, sourceAnswer, sinkAccept, hb, hr, hi, hw] at ho ⊢

/-- While a command runs, a schedule of core, source and sink events comes to the eager move: the events of the agents
that cannot move pass (log 1, log 20). -/
theorem run_portEvents (es : List Event) : ∀ {s : State}, s.schedule = es → s.status.busy = true → s.inReset = false →
    (s.status.inWait = true → s.status.outWait = false) → portEvents es →
    ∃ k r, r <:+ es ∧ core.run k s = runEager { s with schedule := r } := by
  induction es with
  | nil =>
    intro s hs hb hr ho hp
    refine ⟨1, s.schedule, by rw [hs], run_one.trans ?_⟩
    cases hc : inCoreStep s
    · exact step_eager hc hs
    · exact step_inside hc
  | cons e r ih =>
    intro s hs hb hr ho hp
    cases hc : inCoreStep s
    · rcases runEvent_port (s := { s with schedule := r }) hb hr ho (hp e (List.mem_cons_self ..)) with h | h
      · exact ⟨1, r, List.suffix_cons e r, by rw [run_one, step_event hc hs, h]⟩
      · obtain ⟨k, q, hq, h'⟩ := ih (s := { s with schedule := r }) rfl hb hr ho
          fun x hx => hp x (List.mem_cons_of_mem e hx)
        exact ⟨k + 1, q, hq.trans (List.suffix_cons e r), by rw [run_succ k ((step_event hc hs).trans h), h']⟩
    · exact ⟨1, s.schedule, by rw [hs], run_one.trans (step_inside hc)⟩

theorem portEvents.suffix {r es : List Event} (h : portEvents es) (hr : r <:+ es) : portEvents r :=
  fun e he => h e (hr.subset he)

/-- Under such a schedule a core that can move does. -/
theorem run_core {s : State} (h : coreCanStep s = true) (hp : portEvents s.schedule) :
    ∃ k r, r <:+ s.schedule ∧ core.run k s = coreStep { s with schedule := r } := by
  obtain ⟨hb, hi, -, hr⟩ := (coreCanStep_iff s).1 h
  obtain ⟨k, r, hs, e⟩ := run_portEvents s.schedule rfl hb hr (by simp [hi]) hp
  exact ⟨k, r, hs, e.trans (runEager_core h)⟩

/-- Under such a schedule a pending request is answered (spec/20_memory.md R73). -/
theorem run_source {s : State} (hb : s.status.busy = true) (hi : s.status.inWait = true)
    (ho : s.status.outWait = false) (hr : s.inReset = false) (hp : portEvents s.schedule) :
    ∃ k r, r <:+ s.schedule ∧ core.run k s = .next (sourceAnswer { s with schedule := r }) := by
  obtain ⟨k, r, hs, e⟩ := run_portEvents s.schedule rfl hb hr (fun _ => ho) hp
  exact ⟨k, r, hs, e.trans (runEager_source hi hr)⟩

/-- Under such a schedule an offered byte is accepted (spec/20_memory.md R75). -/
theorem run_sink {s : State} (hb : s.status.busy = true) (ho : s.status.outWait = true)
    (hi : s.status.inWait = false) (hr : s.inReset = false) (hp : portEvents s.schedule) :
    ∃ k r, r <:+ s.schedule ∧ core.run k s = .next (sinkAccept { s with schedule := r }) := by
  obtain ⟨k, r, hs, e⟩ := run_portEvents s.schedule rfl hb hr (by simp [hi]) hp
  exact ⟨k, r, hs, e.trans (runEager_sink ho hi hr)⟩

end Sys2Proof.Machine
end

