-- ==== Sys2Proof/Tests/Slice0.lean ====
section
/-! SUPPORT. Tests/Slice0.lean: ill-formed operands refused, words and bits written out from the encoding tables, single
steps with the values of the spec's own examples, and for each statement with hypotheses a state and operands that meet
them. -/

open Sys2Proof Sys2Proof.Machine

namespace Sys2Proof.Tests

/-! ## WellFormed (spec/30_encoding.md R92, R94, R95, R97, R99, R100) -/

theorem test_wf_readBits : Instr.wellFormed (.readBits 0) = false ∧ Instr.wellFormed (.readBits 33) = false
    ∧ Instr.wellFormed (.readBits 1) = true ∧ Instr.wellFormed (.readBits 32) = true := by decide
theorem test_wf_levelDigit : Instr.wellFormed (.levelDigit 0) = false ∧ Instr.wellFormed (.levelDigit 10) = false
    ∧ Instr.wellFormed (.levelDigit 9) = true := by decide
theorem test_wf_randomised : Instr.wellFormed (.randomised true) = false := by decide
theorem test_wf_nTables : Instr.wellFormed (.nTables 1) = false ∧ Instr.wellFormed (.nTables 7) = false
    ∧ Instr.wellFormed (.nTables 6) = true := by decide
theorem test_wf_nSelectors : Instr.wellFormed (.nSelectors 0) = false
    ∧ Instr.wellFormed (.nSelectors 32767) = true := by decide
theorem test_wf_selectorMtf : Instr.wellFormed (.selectorMtf 6) = false
    ∧ Instr.wellFormed (.selectorMtf 5) = true := by decide
theorem test_wf_clStart : Instr.wellFormed (.clStart 0) = false ∧ Instr.wellFormed (.clStart 21) = false
    ∧ Instr.wellFormed (.clStart 20) = true := by decide
theorem test_wf_huffmanCodeword : Instr.wellFormed (.huffmanCodeword []) = false
    ∧ Instr.wellFormed (.huffmanCodeword (List.replicate 21 true)) = false := by decide
theorem test_wf_lit : Instr.wellFormed (.lit 1) = false ∧ Instr.wellFormed (.lit 257) = false
    ∧ Instr.wellFormed (.lit 256) = true := by decide

/-! ## Decoding: the words of R91 and the bits of R94 to R100 -/

/-- R91's table, OPCODE in bits 7..0, N in bits 15..8. -/
theorem test_decode_commands :
    decode .command (.word 0x00000000) = .ok .nop ∧ decode .command (.word 0x00000001) = .ok .softReset
    ∧ decode .command (.word 0x00000002) = .ok .clearError ∧ decode .command (.word 0x00000110) = .ok (.readBits 1)
    ∧ decode .command (.word 0x00001810) = .ok (.readBits 24) ∧ decode .command (.word 0x00002010) = .ok (.readBits 32)
    ∧ decode .command (.word 0x00000020) = .ok .decodeBlock
    ∧ decode .command (.word 0x00000030) = .ok .checkStreamCrc
    ∧ decode .command (.word 0x00000031) = .ok .clearStreamCrc := by decide

/-- R92's undefined words: an opcode outside the table, RSVD set, N set for another opcode. -/
theorem test_decode_undefined :
    decode .command (.word 0x00000003) = .error .undefinedOpcode
    ∧ decode .command (.word 0x000000FF) = .error .undefinedOpcode
    ∧ decode .command (.word 0x00010020) = .error .reservedNotZero
    ∧ decode .command (.word 0x00000130) = .error .countNotZero := by decide

/-- R94: "BZh" is 42 5A 68, '9' is 39, the block magic 31 41 59 26 53 59, the footer magic 17 72 45 38 50 90. -/
theorem test_decode_streamMagic : decode .streamMagic (.bits
    [false, true, false, false, false, false, true, false,  false, true, false, true, true, false, true, false,
     false, true, true, false, true, false, false, false]) = .ok .streamMagic := by decide
theorem test_decode_levelDigit :
    decode .levelDigit (.bits [false, false, true, true, true, false, false, true]) = .ok (.levelDigit 9)
    ∧ decode .levelDigit (.bits [false, true, true, true, true, false, false, true]) = .error .wrongFraming := by
  decide
theorem test_decode_blockMagic : decode .blockOrEosMagic (.bits
    [false, false, true, true, false, false, false, true,  false, true, false, false, false, false, false, true,
     false, true, false, true, true, false, false, true,  false, false, true, false, false, true, true, false,
     false, true, false, true, false, false, true, true,  false, true, false, true, true, false, false, true])
    = .ok .blockMagic := by decide
theorem test_decode_eosMagic : decode .blockOrEosMagic (.bits
    [false, false, false, true, false, true, true, true,  false, true, true, true, false, false, true, false,
     false, true, false, false, false, true, false, true,  false, false, true, true, true, false, false, false,
     false, true, false, true, false, false, false, false,  true, false, false, true, false, false, false, false])
    = .ok .eosMagic := by decide
/-- The footer CRC of the "hello\n" stream, C1 C0 80 E2. -/
theorem test_decode_streamCrc : decode .streamCrc (.bits
    [true, true, false, false, false, false, false, true,  true, true, false, false, false, false, false, false,
     true, false, false, false, false, false, false, false,  true, true, true, false, false, false, true, false])
    = .ok (.streamCrc 0xC1C080E2) := by decide

/-- R95, R96: fixed-width elements, the first bit the most significant. -/
theorem test_decode_blkCrc :
    decode .blkCrcHi (.bits [true, true, false, false, false, false, false, true,
      true, true, false, false, false, false, false, false]) = .ok (.blkCrcHi 0xC1C0)
    ∧ decode .blkCrcLo (.bits [true, false, false, false, false, false, false, false,
      true, true, true, false, false, false, true, false]) = .ok (.blkCrcLo 0x80E2) := by decide
theorem test_decode_randomised : decode .randomised (.bits [false]) = .ok (.randomised false)
    ∧ decode .randomised (.bits [true]) = .ok (.randomised true) := by decide
theorem test_decode_origPtr :
    decode .origPtr (.bits (List.replicate 22 false ++ [true, false])) = .ok (.origPtr 2) := by decide
theorem test_decode_usedRanges :
    decode .usedRanges (.bits ([true, false, false, false, false, false, true] ++ List.replicate 9 false))
      = .ok (.usedRanges 0x8200)
    ∧ decode .usedSub (.bits (List.replicate 10 false ++ [true] ++ List.replicate 5 false))
      = .ok (.usedSub 0x0020) := by decide
theorem test_decode_counts : decode .nTables (.bits [false, true, false]) = .ok (.nTables 2)
    ∧ decode .nSelectors (.bits (List.replicate 14 false ++ [true])) = .ok (.nSelectors 1)
    ∧ decode .clStart (.bits [false, false, false, true, false]) = .ok (.clStart 2)
    ∧ decode .nTables (.bits [false, true]) = .error .incomplete := by decide
/-- R97: with two tables "0" is rank 0, "10" rank 1, "11" an error after its second bit. -/
theorem test_decode_selectorMtf : decode (.selectorMtf 2) (.bits [false]) = .ok (.selectorMtf 0)
    ∧ decode (.selectorMtf 2) (.bits [true, false]) = .ok (.selectorMtf 1)
    ∧ decode (.selectorMtf 2) (.bits [true]) = .error .incomplete
    ∧ decode (.selectorMtf 2) (.bits [true, true]) = .ok (.selectorMtf 2) := by decide
/-- R98. -/
theorem test_decode_clDelta : decode .clDelta (.bits [false]) = .ok .clDeltaEnd
    ∧ decode .clDelta (.bits [true, false]) = .ok .clDeltaInc ∧ decode .clDelta (.bits [true, true]) = .ok .clDeltaDec
    ∧ decode .clDelta (.bits [true]) = .error .incomplete := by decide
/-- R100 with usedSymbolCount = 5: RUNA 0, RUNB 1, literals 2..5, EOB 6. -/
theorem test_decode_symbols : decode (.symbol 5) (.value 0) = .ok .runA ∧ decode (.symbol 5) (.value 1) = .ok .runB
    ∧ decode (.symbol 5) (.value 2) = .ok (.lit 2) ∧ decode (.symbol 5) (.value 5) = .ok (.lit 5)
    ∧ decode (.symbol 5) (.value 6) = .ok .eob ∧ decode (.symbol 1) (.value 2) = .ok .eob := by decide

/-- The opcode table's numbering: one row of each size, and a word of none. -/
theorem test_decodeTableWord : decodeTableWord 32 0x1810 = some (.readBits 24)
    ∧ decodeTableWord 8 0x39 = some (.levelDigit 9) ∧ decodeTableWord 24 0x425A68 = some .streamMagic
    ∧ decodeTableWord 48 0x314159265359 = some .blockMagic ∧ decodeTableWord 48 0x177245385090 = some .eosMagic
    ∧ decodeTableWord 32 0x03 = none := by decide

/-! ## Small states -/

/-- A command runs, the core stands at p, nothing else has happened since reset. -/
def busyAt (p : Pos) : State := { State.reset with status.busy := true, stage := p.stage, pos := p }

/-- An error is recorded and nothing runs. -/
def locked : State :=
  { State.reset with err := { kind := .corruptStream, cause := .blockSize, stage := .readHeader }, stage := .error }

/-- What a field of the next state is. -/
def after {α : Type} (o : Host.Outcome State Fault Refusal) (f : State → α) : Option α :=
  match o with
  | .next t => some (f t)
  | .fault _ => none
  | .refused _ => none

/-! ## The first step after reset runs the instruction placed -/

theorem test_first_nop : after (step (State.reset.withFetchWord 32 0x00)) (·.bus) = some .written := by decide
theorem test_first_readBits :
    after (step (State.reset.withFetchWord 32 0x1810)) (fun t => (t.status.busy, t.stage, t.loop.readCount))
      = some (true, .readBits, 24) := by decide
theorem test_first_decodeBlock :
    after (step (State.reset.withFetchWord 32 0x20)) (fun t => (t.status.busy, t.stage)) = some (true, .readHeader) := by
  decide
theorem test_first_undefined :
    after (step (State.reset.withFetchWord 32 0x03)) (·.status.rejected) = some true := by decide
theorem test_first_levelDigit :
    after (step (State.reset.withFetchWord 8 0x31)) (fun t => (t.host.level, t.host.phase)) = some (1, .readCtrl) := by
  decide
theorem test_first_streamMagic :
    after (step (State.reset.withFetchWord 24 0x425A68)) (·.host.phase) = some (.issue .levelDigit) := by decide
theorem test_first_eosMagic :
    after (step (State.reset.withFetchWord 48 0x177245385090)) (·.host.phase) = some (.issue .streamCrc) := by decide

/-! ## Single steps with the spec's examples -/

/-- R275, R88: RD CTRL of 39 keeps CTRL and the word; WR CTRL with d = 1 then gives 31; and a host that set STRICT between
the read of 00 and the write loses it. -/
theorem test_levelDigit_accesses :
    after (hostProcedure { State.reset with
        ctrl := { blockSize := 9, strict := true, irqEn := true }, host.phase := .readCtrl })
      (fun t => (t.host.ctrl, t.ctrl.blockSize, t.host.phase)) = some (0x39, 9, .writeCtrl)
    ∧ after (hostProcedure { State.reset with host.phase := .writeCtrl, host.ctrl := 0x39, host.level := 1 })
      (fun t => ctrlWord t) = some 0x31
    ∧ after (hostProcedure { State.reset with ctrl.strict := true, host.phase := .writeCtrl, host.level := 9 })
      (fun t => ctrlWord t) = some 0x09 := by decide
/-- R275: EXPECT tests the whole word: FF425A68 is no magic, 139 no level, and A0314159, 00265359 are no block magic, while
00314159, 00265359 are. -/
theorem test_expect_whole_word : ∀ c ∈ [(HostField.streamMagic, (0 : Word), (0x425A68 : Word), HostPhase.issue .levelDigit),
      (.streamMagic, 0, 0xFF425A68, .stopped .badMagic), (.levelDigit, 0, 0x39, .readCtrl),
      (.levelDigit, 0, 0x139, .stopped .badLevel), (.magicLo, 0x314159, 0x265359, .issueDecode),
      (.magicLo, 0xA0314159, 0x265359, .stopped .badMagic), (.magicLo, 0x314159, 0xA0265359, .stopped .badMagic)],
    after (hostProcedure { State.reset with host.phase := .take c.1, host.hi := c.2.1, regs.result := c.2.2.1 })
      (·.host.phase) = some c.2.2.2 := by decide
/-- R275: a BIT_COUNT of 292 (V-ERR-SCRC's) leaves 4 bits of padding; 296 none. -/
theorem test_padding : ∀ c ∈ [((292 : Word), HostPhase.issue .padding, (4 : BitVec 8)), (296, .finished, 0)],
    after (hostProcedure { State.reset with host.phase := .readBitCount, regs.bitCount := c.1 })
      (fun t => (t.host.phase, t.host.padBits)) = some c.2 := by decide
/-- STATUS and ERR of the test vectors V-BR-5 and V-ERR-BCRC, in R53's, R241's and R242's codes. -/
theorem test_codes :
    statusWord { State.reset with
      stage := .error, status.inEos := true, err.kind := .endOfStream, bitq := List.replicate 8 true } = 0x00008F24
    ∧ errWord { State.reset with err := { kind := .endOfStream, cause := .none, stage := .readBits } } = 0x00080001
    ∧ errWord { State.reset with err := { kind := .blockCrcMismatch, cause := .none, stage := .doneCheck } }
      = 0x00070004 := by decide
/-- R275: WR ARG, c, behind the footer CRC of the "hello\n" stream. -/
theorem test_streamCrc_access :
    after (hostProcedure { State.reset with host.phase := .writeArg, host.crc := 0xC1C080E2 })
      (fun t => (t.regs.arg, t.host.phase)) = some (0xC1C080E2, .issueCheck) := by decide
/-- R111: bytes 42 5A, readBits(4) gives 4 and leaves 0010 01011010. -/
theorem test_readBits_field :
    after (coreStep { busyAt .readBits with bitq := bitsOf (0x425A : BitVec 16), loop.readCount := 4 })
      (fun t => (t.regs.result, t.bitq, t.regs.bitCount, t.status.done))
      = some (0x4, [false, false, true, false, false, true, false, true, true, false, true, false], 4, true) := by
  decide
/-- R111, R112: 31 bits that a failed READ_BITS 32 left; readBits(1) consumes one of them and 30 stay (log 21). -/
theorem test_readBits_behind_failed :
    after (coreStep { busyAt .readBits with bitq := List.replicate 31 true, loop.readCount := 1 })
      (fun t => (t.regs.result, t.bitq.length, t.status.done)) = some (1, 30, true) := by decide
/-- R222: ARG = 0 against STREAM_CRC = C1C080E2 sets SCRC_MISMATCH and, with STRICT = 0, completes. -/
theorem test_checkStreamCrc :
    after (coreStep { busyAt .checkStreamCrc with regs.streamCrc := 0xC1C080E2 })
      (fun t => (t.status.scrcMismatch, t.status.done, t.err.kind)) = some (true, true, .none) := by decide
/-- R165: CTRL.BLOCKSIZE = 1 gives CAP = 100000; the reset value 0 fails. -/
theorem test_blockSize :
    after (coreStep { busyAt .blockEntry with bsLatch := 1 }) (·.cap) = some 100000
    ∧ after (coreStep (busyAt .blockEntry)) (·.err.cause) = some .blockSize := by decide
/-- R166: the "hello\n" fixture's EXPECTED_CRC. -/
theorem test_blkCrc :
    after (exec (.blkCrcLo 0x80E2) { busyAt .blkCrcLo with loop.hi := 0xC1C0 }) (·.regs.expectedCrc)
      = some 0xC1C080E2 := by decide
/-- R170: range 6 with 0489 gives 65, 68, 6C, 6F behind 0A, and USED = 5. -/
theorem test_usedSub :
    after (exec (.usedSub 0x0489)
        { busyAt .usedSub with symMap := [0x0A], loop.used16 := 0x8200, loop.rangeIdx := 6 })
      (fun t => (t.symMap, t.regs.usedSyms, t.stage)) = some ([0x0A, 0x65, 0x68, 0x6C, 0x6F], 5, .readTables) := by
  decide
/-- R172: an empty map is refused. -/
theorem test_usedRanges_empty : after (exec (.usedRanges 0) (busyAt .usedRanges)) (·.err.cause) = some .emptyMap := by
  decide
/-- R152: with three tables the ranks 0, 1, 1, 2 give the selectors 0, 1, 0, 2: the last of them. -/
theorem test_selectorMtf :
    after (exec (.selectorMtf 2)
        { busyAt .selector with
          nTab := 3, nSel := 4, selMtf := [0, 1, 2], loop.selIdx := 3, mem.sel := [(0, 0), (1, 1), (2, 0)] })
      (fun t => (t.mem.sel, t.selMtf, t.pos)) = some ([(0, 0), (1, 1), (2, 0), (3, 2)], [2, 0, 1], .clStart) := by
  decide
/-- R154: alphaSize 3, bits 00010 0 100 1111 0: the second length is 3, and the third starts from it. -/
theorem test_clDelta :
    after (exec .clDeltaInc { busyAt .clDelta with loop.curr := 2 }) (·.loop.curr) = some 3
    ∧ after (exec .clDeltaEnd { busyAt .clDelta with
          used := 1, nTab := 2, loop.curr := 3, loop.symIdx := 1, mem.len := [(0, 2)] })
        (fun t => (t.mem.len, t.loop.symIdx, t.pos)) = some ([(0, 2), (1, 3)], 2, .clDelta) := by decide

/-- A table with the lengths of R136's example, [3,3,2,3,3,3,3], built. -/
def built : State :=
  huffBuild { busyAt .clDelta with used := 5, mem.len := [(0, 3), (1, 3), (2, 2), (3, 3), (4, 3), (5, 3), (6, 3)] } 0

/-- R136's example: MINLEN 2, MAXLEN 3, BASE 0 and 1, LIMIT 0 and 7, PERM 2,0,1,3,4,5,6. -/
theorem test_huffBuild : built.mem.minLen = [(0, 2)] ∧ built.mem.maxLen = [(0, 3)]
    ∧ built.mem.base = [(2, 0), (3, 1)] ∧ built.mem.limit = [(2, 0), (3, 7)]
    ∧ built.mem.perm = [(0, 2), (1, 0), (2, 1), (3, 3), (4, 4), (5, 5), (6, 6)] := by decide
/-- R137's example: 00 gives symbol 2, 010 gives 0, 101 gives 4, 111 gives 6, each at its last bit. -/
theorem test_huffmanCodeword :
    symbolOf built 0 [false, false] = 2 ∧ symbolOf built 0 [false, true, false] = 0
    ∧ symbolOf built 0 [true, false, true] = 4 ∧ symbolOf built 0 [true, true, true] = 6
    ∧ decode (.huffmanCodeword 2 3 (limitsOf built 0)) (.bits [false, true]) = .error .incomplete
    ∧ decode (.huffmanCodeword 2 3 (limitsOf built 0)) (.bits [false, false])
        = .ok (.huffmanCodeword [false, false]) := by decide
/-- R138: lengths 1, 2, 3: the bits 111 match no codeword. -/
theorem test_huffmanCodeword_none :
    after (exec (.huffmanCodeword [true, true, true]) { busyAt .codeword with mem.limit := [(3, 6)] }) (·.err.cause)
      = some .codeword := by decide
/-- R181, R182: RUNA, RUNB gives 5; RUNB, RUNA gives 4. -/
theorem test_runs :
    after (execAll [.runA, .runB] { busyAt .symbolReady with cap := 100000 }) (·.sym.runLen) = some 5
    ∧ after (execAll [.runB, .runA] { busyAt .symbolReady with cap := 100000 }) (·.sym.runLen) = some 4 := by decide
/-- R184: a run of 3 at the start of the block writes SYMMAP[0] three times, before the EOB that ends it. -/
theorem test_eob :
    after (exec .eob { busyAt .symbolReady with
        cap := 100000, symMap := [0x61, 0x62], sym.runLen := 3, mem.byteCount := [(0x61, 0)] })
      (fun t => (t.mem.bwt, t.mem.byteCount, t.regs.bwtLenReg, t.stage))
      = some ([(0, 0x61), (1, 0x61), (2, 0x61)], [(0x61, 3)], 3, .buildBucketArray) := by decide
/-- R185: symbol 2 over the identity gives the byte 62 and LIT_MTF 1, 0, …. -/
theorem test_lit :
    after (exec (.lit 2) { busyAt .symbolReady with
        cap := 100000, symMap := [0x61, 0x62], litMtf := [0, 1, 2], mem.byteCount := [(0x61, 0), (0x62, 0)] })
      (fun t => (t.mem.bwt, t.mem.byteCount, t.litMtf)) = some ([(0, 0x62)], [(0x61, 0), (0x62, 1)], [1, 0, 2]) := by
  decide
/-- R131: promote(M, 3) on the identity gives 3 and [3,0,1,2,4,5,…]. -/
theorem test_promote : (promote .litMtf identityMtf 3).1 = 3
    ∧ (promote .litMtf identityMtf 3).2.take 6 = [3, 0, 1, 2, 4, 5] := by decide +kernel

/-- R195, R196: "nnbaaa" holds 3 a, 1 b, 2 n; their CHARBASE is 0, 3, 4, and BUCKET follows. -/
theorem test_buckets : prefixSums [3, 1, 2] 0 = [0, 3, 4]
    ∧ ((List.range 6).foldl
        (fillStep [(0, 0x6E), (1, 0x6E), (2, 0x62), (3, 0x61), (4, 0x61), (5, 0x61)])
        ([(0x61, 0), (0x62, 3), (0x6E, 4)], [])).2
      = [(0, 0x361), (1, 0x461), (2, 0x561), (3, 0x262), (4, 0x06E), (5, 0x16E)] := by decide
/-- R199: the six extractions from there spell "banana". -/
theorem test_walk :
    walk [(0, 0x361), (1, 0x461), (2, 0x561), (3, 0x262), (4, 0x06E), (5, 0x16E)] 6 0x262
      = [0x62, 0x61, 0x6E, 0x61, 0x6E, 0x61] := by decide
/-- R200's example, and R204: four equal bytes at the end. -/
theorem test_expandRle1 :
    expandRle1 [0x61, 0x61, 0x61, 0x61, 0x03, 0x62] 0 0 = [0x61, 0x61, 0x61, 0x61, 0x61, 0x61, 0x61, 0x62]
    ∧ expandRle1 [0x61, 0x61, 0x61, 0x61] 0 0 = [0x61, 0x61, 0x61, 0x61] := by decide
/-- R200: behind four equal bytes the next one is a count, not offered to the sink. -/
theorem test_countByte :
    after (coreStep { busyAt .extract with
        sym.bwtLen := 5, emit.extracted := 4, emit.rleRun := 4, emit.ptr := 0x03, mem.bucket := [(0, 0)] })
      (fun t => (t.loop.copies, t.status.outWait, t.pos)) = some (3, false, .repeatCopies) := by decide
/-- R122: FFFFFFFF and 61 give E66C6494, once the sink has accepted the byte (R202). -/
theorem test_emitted :
    after (coreStep { busyAt .emitted with loop.emitByte := 0x61 }) (fun t => (t.crcAcc, t.regs.outCount))
      = some (0xE66C6494, 1) := by decide
/-- R125: STREAM_CRC 80000001 and a block CRC of 1 give 2. -/
theorem test_doneCheck :
    after (coreStep { busyAt .doneCheck with crcAcc := 0xFFFFFFFE, regs.expectedCrc := 1, regs.streamCrc := 0x80000001 })
      (fun t => (t.regs.streamCrc, t.regs.blockCount, t.status.done)) = some (2, 1, true) := by decide
/-- R71, R21: ID reads 425A4231; a halfword access gets a bus error. -/
theorem test_window : after (hostAccess (.read 0x00 4) State.reset) (·.bus) = some (.data 0x425A4231)
    ∧ after (hostAccess (.read 0x00 2) State.reset) (·.bus) = some .busError := by decide

/-- R78: lane 0 of the ID register is 31, lane 3 is 42. -/
theorem test_byteLane : byteLane 0x425A4231 0 = 0x31 ∧ byteLane 0x425A4231 3 = 0x42 := by decide

/-! ## For each statement with hypotheses, what meets them -/

theorem met_ClearErrorReturnsToIdle : locked.status.busy = false := by decide

theorem met_RejectedWordsOnlySetRejected :
    (0x00010000#32).extractLsb' 16 16 ≠ 0
    ∧ (0x00000003#32).extractLsb' 0 8 ∉ [0x00#8, 0x01#8, 0x02#8, 0x10#8, 0x20#8, 0x30#8, 0x31#8]
    ∧ ((0x00000100#32).extractLsb' 8 8 ≠ 0 ∧ (0x00000100#32).extractLsb' 0 8 ≠ 0x10)
    ∧ ((0x00000010#32).extractLsb' 0 8 = 0x10 ∧ ((0x00000010#32).extractLsb' 8 8).toNat = 0)
    ∧ ((0x00002110#32).extractLsb' 0 8 = 0x10 ∧ 32 < ((0x00002110#32).extractLsb' 8 8).toNat)
    ∧ (busyAt .readBits).status.busy = true ∧ locked.err.kind ≠ .none ∧ (busyAt .readBits).inReset = false := by decide

theorem met_AcceptedCommandsStart : State.reset.status.busy = false ∧ State.reset.err.kind = .none
    ∧ (1 ≤ (1 : BitVec 8).toNat ∧ (1 : BitVec 8).toNat ≤ 32)
    ∧ (1 ≤ (32 : BitVec 8).toNat ∧ (32 : BitVec 8).toNat ≤ 32) := by decide

/-- Accepted with BLOCKSIZE 1 and 9, which pass, and 0 and 10, which do not. -/
theorem met_DecodeBlockEntersReadHeader : ∀ d ∈ [(1, true), (9, true), (0, false), (10, false)],
    ∀ s, s = { State.reset with ctrl.blockSize := d.1 } →
      s.status.busy = false ∧ s.err.kind = .none ∧ s.inAnswer = none
      ∧ decide (1 ≤ s.ctrl.blockSize.toNat ∧ s.ctrl.blockSize.toNat ≤ 9) = d.2 := by
  rintro d hd s rfl
  revert d
  decide

/-- Port events in an order of their own: the source twice, the sink, the core. -/
def someOrder : List Event := [.source, .core, .source, .sink, .core]

/-- One bit of one byte; 32 bits from 7 buffered ones and four bytes; and 8 buffered bits with no byte; with nothing
scheduled and with an order of their own. -/
theorem met_ReadBitsDeliversTheField :
    ∀ c ∈ [((1 : BitVec 8), ([] : Bits), [(0x80 : Byte)]), (32, List.replicate 7 true, [1, 2, 3, 4]),
      (8, List.replicate 8 true, [])],
    ∀ es ∈ [[], someOrder],
    ∀ s, s = { State.reset with bitq := c.2.1, source := c.2.2.map Answer.data ++ [Answer.eos], schedule := es } →
      s.status.busy = false ∧ s.err.kind = .none ∧ s.status.inWait = false ∧ s.status.outWait = false
      ∧ s.inAnswer = none ∧ s.inReset = false ∧ portEvents s.schedule ∧ 1 ≤ c.1.toNat ∧ c.1.toNat ≤ 32
      ∧ c.1.toNat ≤ s.bitq.length + 8 * c.2.2.length
      ∧ (c.2.2 = [] ∨ s.bitq.length + 8 * (c.2.2.length - 1) < c.1.toNat) := by
  unfold portEvents
  rintro c hc es he s rfl
  revert es
  revert c
  decide

/-- 32 bits asked for and 8 bits there; 1 bit asked for and none there; with nothing scheduled and with an order of their
own. -/
theorem met_TruncatedReadBitsRaisesEndOfStream :
    ∀ c ∈ [((32 : BitVec 8), [(0x42 : Byte)]), (1, [])],
    ∀ es ∈ [[], someOrder], ∀ s, s = { State.reset with source := c.2.map Answer.data ++ [Answer.eos], schedule := es } →
      s.status.busy = false ∧ s.err.kind = .none ∧ s.status.inWait = false ∧ s.status.outWait = false
      ∧ s.inAnswer = none ∧ s.inReset = false ∧ portEvents s.schedule ∧ 1 ≤ c.1.toNat ∧ c.1.toNat ≤ 32
      ∧ s.bitq.length + 8 * c.2.length < c.1.toNat := by
  unfold portEvents
  rintro c hc es he s rfl
  revert es
  revert c
  decide

theorem met_EndOfStreamConsumesNothing :
    State.inAnswer { busyAt .nTables with inAnswer := some .eos } = some .eos := by decide

/-- A match; a mismatch with STRICT 0 and with STRICT 1. -/
theorem met_CheckStreamCrcComparesArg :
    State.reset.status.busy = false ∧ State.reset.err.kind = .none ∧ State.reset.inAnswer = none
    ∧ State.reset.regs.arg = State.reset.regs.streamCrc
    ∧ (∀ strict, ∀ s, s = { State.reset with regs.arg := 1, ctrl.strict := strict } →
        s.status.busy = false ∧ s.err.kind = .none ∧ s.inAnswer = none ∧ s.regs.arg ≠ s.regs.streamCrc
        ∧ s.ctrl.strict = strict) := by
  refine ⟨by decide, by decide, by decide, by decide, ?_⟩
  rintro strict s rfl
  revert strict
  decide

theorem met_ClearStreamCrcClears : State.reset.status.busy = false ∧ State.reset.err.kind = .none
    ∧ State.reset.inAnswer = none := by decide

theorem met_IllegalAccessGetsBusError : ¬ (2 = 4 ∧ 0 % 4 = 0 ∧ 0 < 0x80) ∧ ¬ (4 = 4 ∧ 2 % 4 = 0 ∧ 2 < 0x80)
    ∧ ¬ (4 = 4 ∧ 0x80 % 4 = 0 ∧ 0x80 < 0x80) := by decide

theorem met_RegisterWindowReads : State.reset.status.busy = false ∧ State.reset.inReset = false
    ∧ (busyAt .readBits).status.busy = true ∧ (busyAt .readBits).inReset = false
    ∧ (0x48 ≤ 0x48 ∧ 0x48 ≤ 0x7C ∧ 0x48 % 4 = 0) ∧ (0x48 ≤ 0x7C ∧ 0x7C ≤ 0x7C ∧ 0x7C % 4 = 0) := by decide

/-- 31 bits buffered; the three tables are what the statement calls them. -/
theorem met_StatusAndErrFields :
    (State.bitq { State.reset with bitq := List.replicate 31 true }).length ≤ 31 := by decide

theorem met_CtrlAndArgWritesReadBack : (busyAt .readBits).inReset = false := by decide

theorem met_OnlyThreeWritesHaveEffect : (0x0C : Nat) ≠ 0x04 ∧ (0x0C : Nat) ≠ 0x08 ∧ (0x0C : Nat) ≠ 0x14 := by decide

theorem met_IrqFollowsDoneAndErr : ErrKind.endOfStream ≠ .none ∧ locked.status.busy = false := by decide

/-- Reset asserted with nothing scheduled, and with a host access scheduled. -/
theorem met_AssertedResetStopsEverything : ∀ es ∈ [[], [Event.host (.write 0x08 4 0x20)]],
    ∀ s, s = { State.reset with inReset := true, schedule := es } →
      s.inReset = true ∧ s.schedule.head? ≠ some .resetAssert ∧ s.schedule.head? ≠ some .resetRelease := by
  rintro es he s rfl
  revert es
  decide

theorem met_FramingElementsActAsTheProcedure : State.reset.inReset = false
    ∧ (∀ p ∈ [HostPhase.readCtrl, .writeCtrl, .writeArg], ∀ s, s = { State.reset with host.phase := p } →
        s.inReset = false ∧ s.host.phase = p ∧ s.host.ctrl = ctrlWord s)
    ∧ (∀ f v, (f, v) = (HostField.streamMagic, (0x425A68 : Word)) ∨ (f, v) = (.levelDigit, 0x31)
        ∨ (f, v) = (.levelDigit, 0x3A) ∨ (f, v) = (.magicHi, 0x314159) ∨ (f, v) = (.magicLo, 0x265359)
        ∨ (f, v) = (.streamCrc, 0xC1C080E2) ∨ (f, v) = (.padding, 0) →
      ∀ s, s = { State.reset with host.phase := .take f, regs.result := v } →
        s.inReset = false ∧ s.status.busy = false ∧ s.host.phase = .take f
        ∧ (f = .levelDigit → decide (0x31 ≤ s.regs.result.toNat ∧ s.regs.result.toNat ≤ 0x39) = decide (v = 0x31)))
    ∧ (∀ b : Word, b = 292 ∨ b = 296 → ∀ s, s = { State.reset with host.phase := .readBitCount, regs.bitCount := b } →
        s.inReset = false ∧ s.status.busy = false ∧ s.host.phase = .readBitCount
        ∧ decide (s.regs.bitCount.toNat % 8 = 0) = decide (b = 296))
    ∧ (1 ≤ (1 : BitVec 4).toNat ∧ (1 : BitVec 4).toNat ≤ 9) ∧ (1 ≤ (9 : BitVec 4).toNat ∧ (9 : BitVec 4).toNat ≤ 9)
    ∧ ¬ (1 ≤ (0 : BitVec 4).toNat ∧ (0 : BitVec 4).toNat ≤ 9)
    ∧ ¬ (1 ≤ (10 : BitVec 4).toNat ∧ (10 : BitVec 4).toNat ≤ 9) := by
  refine ⟨rfl, ?_, ?_, ?_, by decide, by decide, by decide, by decide⟩
  · rintro p hp s rfl
    revert p
    decide
  · rintro f v h s rfl
    rcases h with h | h | h | h | h | h | h <;> cases h <;> decide
  · rintro b (rfl | rfl) s rfl <;> decide

/-- USED_RANGES = 8000 starts at range 0; USED_SUB = 0020 of range 0, the only one, gives 0A; an empty USED_RANGES ends
an empty map. -/
theorem met_SymbolMapIsCollected :
    ((0x8000#16).getLsbD (15 - 0) = true ∧ ∀ k, 0 ≤ k → k < 0 → (0x8000#16).getLsbD (15 - k) = false)
    ∧ ((0 < 16) ∧ [(0x0A : Byte)].Pairwise (· < ·)
      ∧ (∀ b : Byte, b ∈ [(0x0A : Byte)] ↔ ∃ j < 16, (0x0020#16).getLsbD (15 - j) = true ∧ b.toNat = 16 * 0 + j)
      ∧ ∀ j < 16, 1 ≤ j → (0x8000#16).getLsbD (15 - j) = false)
    ∧ (∀ j < 16, (0#16).getLsbD (15 - j) = false) := by
  refine ⟨⟨by decide, by omega⟩, ⟨by decide, by decide, ?_, by decide⟩, by decide⟩
  intro b
  revert b
  decide

theorem met_TableAndSelectorCounts :
    (2 ≤ (2 : BitVec 3).toNat ∧ (2 : BitVec 3).toNat ≤ 6) ∧ (2 ≤ (6 : BitVec 3).toNat ∧ (6 : BitVec 3).toNat ≤ 6)
    ∧ ¬ (2 ≤ (1 : BitVec 3).toNat ∧ (1 : BitVec 3).toNat ≤ 6) ∧ ¬ (2 ≤ (7 : BitVec 3).toNat ∧ (7 : BitVec 3).toNat ≤ 6)
    ∧ 1 ≤ (1 : BitVec 15).toNat ∧ (0 : BitVec 15) = 0 := by decide

/-- Two tables: the highest legal rank, 1, and the illegal rank 2. -/
theorem met_SelectorIsPromotedAndStored : ∀ s, s = { busyAt .selector with nTab := 2, nSel := 1 } →
    s.selMtf[1]? = some 1 ∧ 1 < s.nTab.toNat ∧ s.selMtf[2]? = some 2 ∧ s.nTab.toNat ≤ 2 := by
  rintro s rfl
  decide

/-- A running length of 0 and of 21. -/
theorem met_CodeLengthIsCheckedBeforeEachDelta : ∀ c ∈ [(0 : BitVec 5), 21],
    ∀ s, s = { busyAt .clDelta with loop.curr := c } → s.pos = .clDelta ∧ s.loop.elem = [] ∧ s.inAnswer = none
      ∧ ¬ (1 ≤ s.loop.curr.toNat ∧ s.loop.curr.toNat ≤ 20) := by
  rintro c hc s rfl
  revert c
  decide

/-- Three symbols, two tables: behind the second symbol; behind the last of table 0; behind the last of table 1. -/
theorem met_CodeLengthIsStored :
    (∀ s, s = { busyAt .clDelta with used := 1, nTab := 2, loop.symIdx := 1 } →
      s.loop.symIdx + 1 < s.used.toNat + 2)
    ∧ (∀ s, s = { busyAt .clDelta with used := 1, nTab := 2, loop.symIdx := 2 } →
      s.used.toNat + 2 ≤ s.loop.symIdx + 1 ∧ s.loop.table + 1 < s.nTab.toNat)
    ∧ (∀ s, s = { busyAt .clDelta with used := 1, nTab := 2, loop.symIdx := 2, loop.table := 1 } →
      s.used.toNat + 2 ≤ s.loop.symIdx + 1 ∧ s.nTab.toNat ≤ s.loop.table + 1) := by
  refine ⟨?_, ?_, ?_⟩ <;> rintro s rfl <;> decide

/-- Table 1 of three symbols with the lengths 1, 3 and 20, an incomplete code. -/
def threeLengths : State := { busyAt .clDelta with used := 1, mem.len := [(258, 1), (259, 3), (260, 20)] }

theorem met_HuffmanTablesAreBuilt : lengthsOf threeLengths 1 = [1, 3, 20] ∧ tableLengths [1, 3, 20] := by
  refine ⟨by decide, ?_⟩
  unfold tableLengths
  decide

theorem met_CanonicalCodewordsDecode : lengthsOf threeLengths 1 = [1, 3, 20] ∧ tableLengths [1, 3, 20]
    ∧ kraft [1, 3, 20] ∧ 2 < [1, 3, 20].length := by
  refine ⟨met_HuffmanTablesAreBuilt.1, met_HuffmanTablesAreBuilt.2, ?_, by decide⟩
  unfold kraft
  decide

/-- One selector: symbol 49 is the last it serves, symbol 50 the first beyond. -/
theorem met_SelectorChoosesTheTable : ∀ s, s = { busyAt .nextSymbol with nSel := 1, mem.sel := [(0, 1)] } →
    s.pos = .nextSymbol ∧ s.inAnswer = none
    ∧ 49 / 50 < s.nSel.toNat ∧ memRead? s.mem.sel (49 / 50) = some 1 ∧ s.nSel.toNat ≤ 50 / 50 := by
  rintro s rfl
  decide

/-- A codeword at its limit, and one above it. -/
theorem met_CodewordGivesItsSymbol :
    ∀ s, s = { busyAt .codeword with mem.limit := [(1, 0)], mem.base := [(1, 0)], mem.perm := [(0, 2)] } →
      memRead? s.mem.limit (32 * s.loop.table + [false].length) = some 0 ∧ valOf [false] ≤ (0 : Word).toNat
      ∧ memRead? s.mem.base (32 * s.loop.table + [false].length) = some 0
      ∧ memRead? s.mem.perm (258 * s.loop.table + (valOf [false] - (0 : Word).toNat)) = some 2
      ∧ (0 : Word).toNat < valOf [true] := by
  rintro s rfl
  decide

/-- A run of 1 that fills the buffer, and one that no longer fits. -/
theorem met_RunSymbolsExtendTheRun :
    (∀ s, s = { busyAt .symbolReady with cap := 100000, sym.bwtLen := 99999 } →
      s.sym.bwtLen.toNat + (s.sym.runLen + s.sym.runBit).toNat ≤ s.cap.toNat)
    ∧ (∀ s, s = { busyAt .symbolReady with cap := 100000, sym.bwtLen := 100000 } →
      s.cap.toNat < s.sym.bwtLen.toNat + (s.sym.runLen + s.sym.runBit).toNat) := by
  refine ⟨?_, ?_⟩ <;> rintro s rfl <;> decide

/-- RUNA, RUNB spell 5, which fills a buffer of 900000 bytes that holds 899995. -/
theorem met_RunsAreBijectiveNumerals : ∀ s, s = { busyAt .nextSymbol with cap := 900000, sym.bwtLen := 899995 } →
    s.pos = .nextSymbol ∧ s.sym.runLen = 0 ∧ s.sym.runBit = 1 ∧ s.cap.toNat ≤ 900000
    ∧ s.sym.bwtLen.toNat + runValue [false, true] ≤ s.cap.toNat := by
  rintro s rfl
  decide

/-- Two symbols, a run of 1 pending: with one byte of room behind the run, and with none. -/
theorem met_LiteralIsStoredBehindTheRun : ∀ n b, ((n, b) = ((899998 : BitVec 20), true) ∨ (n, b) = (899999, false)) →
    ∀ s, s = { busyAt .symbolReady with
      cap := 900000, used := 2, symMap := [0x61, 0x62], sym.runLen := 1, sym.bwtLen := n
      mem.byteCount := [(0x61, 5), (0x62, 7)] } →
      s.cap.toNat ≤ 900000 ∧ s.sym.bwtLen.toNat + s.sym.runLen.toNat ≤ s.cap.toNat
      ∧ 2 ≤ (2 : BitVec 9).toNat ∧ (2 : BitVec 9).toNat ≤ s.used.toNat
      ∧ s.litMtf[(2 : BitVec 9).toNat - 1]? = some 1 ∧ s.symMap[(1 : Byte).toNat]? = some 0x62
      ∧ s.litMtf[0]? = some 0 ∧ s.symMap[(0 : Byte).toNat]? = some 0x61 ∧ (0x62 : Byte) ≠ 0x61
      ∧ memRead? s.mem.byteCount (0x62 : Byte).toNat = some 7 ∧ memRead? s.mem.byteCount (0x61 : Byte).toNat = some 5
      ∧ decide (s.sym.bwtLen.toNat + s.sym.runLen.toNat + 1 ≤ s.cap.toNat) = b := by
  rintro n b (h | h) s rfl <;> cases h <;> decide +kernel

/-- A block of one byte: ORIG_PTR 0 lies inside it, ORIG_PTR 1 does not. -/
theorem met_EndOfBlockClosesTheBuffer : ∀ p b, ((p, b) = ((0 : BitVec 24), true) ∨ (p, b) = (1, false)) →
    ∀ s, s = { busyAt .symbolReady with
      cap := 900000, symMap := [0x61], sym.runLen := 1, regs.origPtr := p, mem.byteCount := [(0x61, 0)] } →
      s.cap.toNat ≤ 900000 ∧ s.sym.bwtLen.toNat + s.sym.runLen.toNat ≤ s.cap.toNat ∧ s.litMtf[0]? = some 0
      ∧ s.symMap[(0 : Byte).toNat]? = some 0x61 ∧ memRead? s.mem.byteCount (0x61 : Byte).toNat = some 0
      ∧ decide (s.regs.origPtr.toNat < s.sym.bwtLen.toNat + s.sym.runLen.toNat) = b := by
  rintro p b (h | h) s rfl <;> cases h <;> decide +kernel

theorem met_PromoteMovesToFront : identityMtf[255]? = some 255 := by decide

theorem met_PromotesBelowKStayBelowK : 256 ≤ 256 ∧ (∀ i ∈ [255, 0, 7], i < 256) ∧ 3 ≤ 256 ∧ ∀ i ∈ [2, 2, 1], i < 3 := by
  decide

/-- A block of one byte, 61. -/
def oneByte : State :=
  { busyAt .bucketBuild with
    cap := 100000, sym.bwtLen := 1, regs.bwtLenReg := 1, mem.bwt := [(0, 0x61)]
    mem.byteCount := memWrite (memFill [] 0 256 0) 0x61 1 }

theorem met_BucketsAreTheSortedBlock : oneByte.pos = .bucketBuild ∧ oneByte.inAnswer = none ∧ BufferLegal oneByte := by
  refine ⟨rfl, rfl, ⟨by decide, fun h => absurd h (by decide)⟩, fun _ => ⟨by decide, fun v => ?_⟩, fun _ => by decide,
    fun _ => by decide⟩
  by_cases hv : v = 0x61
  · subst hv
    exact ⟨1, memRead?_memWrite_self _ _ _, by decide⟩
  · have hn : (0x61 : Nat) ≠ v.toNat := fun h => hv (BitVec.eq_of_toNat_eq h.symm)
    refine ⟨0, ?_, ?_⟩
    · change memRead? (memWrite (memFill [] 0 256 0) 0x61 1) v.toNat = some 0
      rw [memRead?_memWrite_of_ne _ _ hn, memRead?_memFill, if_pos ⟨Nat.zero_le _, by have := v.isLt; omega⟩]
    · have he : ¬ (0x61#8 = v) := fun h => hv h.symm
      simp [bwtCount, oneByte, busyAt, memRead?, he]

/-- One byte left to extract: a byte of its own, and the count behind four equal bytes; with nothing scheduled and with an
order of their own. -/
theorem met_EmissionDeliversTheExpansion : ∀ r ∈ [((0 : BitVec 3), [(0x02 : Byte)]), (4, [0x61, 0x61])],
    ∀ es ∈ [[], someOrder],
    ∀ s, s = { busyAt .extract with
      schedule := es
      sym.bwtLen := 1, mem.bucket := [(0, 0x02)], emit.ptr := 0x02, emit.rleRun := r.1, emit.rleLast := 0x61 } →
      s.pos = .extract ∧ s.stage = .emitRle1 ∧ s.status.busy = true ∧ s.status.inWait = false
      ∧ s.status.outWait = false ∧ s.inAnswer = none ∧ s.inReset = false ∧ portEvents s.schedule
      ∧ s.emit.rleRun.toNat ≤ 4 ∧ s.emit.extracted.toNat ≤ s.sym.bwtLen.toNat
      ∧ r.2 = expandRle1 (walk s.mem.bucket (s.sym.bwtLen.toNat - s.emit.extracted.toNat) s.emit.ptr)
          s.emit.rleRun.toNat s.emit.rleLast := by
  unfold portEvents
  rintro r hr es he s rfl
  revert es
  revert r
  decide

theorem met_DoneCheckComparesTheCrc : (busyAt .doneCheck).pos = .doneCheck ∧ (busyAt .doneCheck).inAnswer = none
    ∧ ~~~(busyAt .doneCheck).crcAcc = (busyAt .doneCheck).regs.expectedCrc
    ∧ ~~~(busyAt .doneCheck).crcAcc ≠ 1 := by decide

/-- A command word next; three bits of N_TABLES buffered; a symbol decoded; a level digit about to be taken. -/
theorem met_StepRunsTheDecodedInstruction :
    (∀ s, s = { State.reset with schedule := [.host (.write 0x08 4 0x20)] } →
      inCoreStep s = false ∧ s.inReset = false ∧ s.schedule = .host (.write 0x08 4 0x20) :: []
      ∧ decode .command (.word 0x20) = .ok .decodeBlock)
    ∧ (∀ s, s = { busyAt .nTables with bitq := [false, true, false] } →
      inCoreStep s = true ∧ s.inAnswer = none ∧ dueSlot s = some (.nTables, 3) ∧ 3 ≤ s.bitq.length
      ∧ decode .nTables (.bits (s.loop.elem ++ s.bitq.take 3)) = .ok (.nTables 2))
    ∧ (∀ s, s = { busyAt .symbolReady with used := 5, loop.symbol := 6 } →
      inCoreStep s = true ∧ s.inAnswer = none ∧ s.pos = .symbolReady
      ∧ decode (.symbol s.used.toNat) (.value s.loop.symbol) = .ok .eob)
    ∧ (∀ s, s = { State.reset with
        schedule := [.hostProcedure], host.phase := .take .levelDigit, regs.result := 0x39 } →
      s.status.busy = false ∧ s.inReset = false ∧ s.schedule = .hostProcedure :: []
      ∧ s.host.phase = .take .levelDigit ∧ HostField.levelDigit ≠ .magicHi ∧ HostField.levelDigit ≠ .padding
      ∧ decode (fieldCode s.host .levelDigit s.regs.result).1 (.bits (fieldCode s.host .levelDigit s.regs.result).2)
        = .ok (.levelDigit 9)) := by
  refine ⟨?_, ?_, ?_, ?_⟩ <;> rintro s rfl <;> decide

theorem met_EncodingRoundTrips : Slot.admits (.selectorMtf 6) (.selectorMtf 5) = true
    ∧ Slot.admits (.symbol 256) (.lit 256) = true ∧ Slot.admits (.symbol 256) .eob = true
    ∧ Slot.admits (.huffmanCodeword 1 2 [0, 0, 2]) (.huffmanCodeword [true, true]) = true
    ∧ Instr.wellFormed (.clStart 20) = true := by decide

/-- At every position of a running command the control invariant has a state; it steps to a next state. -/
theorem met_ControlLegalIsKept : (∀ p, p ≠ .rest → ControlLegal (busyAt p)) ∧ ControlLegal locked
    ∧ after (step (busyAt .checkStreamCrc)) (·.status.done) = some true := by
  refine ⟨fun p hp => ⟨fun _ => ⟨hp, rfl⟩, fun _ => ⟨rfl, rfl⟩, ?_, ?_, ?_, ?_, fun _ => rfl, ?_⟩, ?_, by decide⟩
  any_goals exact fun h => absurd h (by simp [busyAt, State.reset])
  constructor <;> decide

/-- The invariants have states that step: nothing has been read or written since reset, a command runs. -/
theorem met_invariants : (∀ p, MemoriesCanonical (busyAt p).mem) ∧ (∀ p, MtfPermutations (busyAt p))
    ∧ (∀ p, SymMapAscending (busyAt p)) ∧ BufferLegal oneByte ∧ BitqLegal (busyAt .nTables)
    ∧ after (step (busyAt .nTables)) (·.status.inWait) = some true
    ∧ after (step oneByte) (·.stage) = some .emitRle1 := by
  refine ⟨fun _ => by constructor <;> exact List.Pairwise.nil, fun _ => ⟨.refl _, .refl _⟩,
    fun _ => ⟨.nil, fun _ => ⟨Nat.zero_lt_succ _, fun b hb => by cases hb⟩⟩, met_BucketsAreTheSortedBlock.2.2, ?_, by decide,
    by decide⟩
  constructor <;> decide

/-- The two resets, while a command runs with bits buffered. -/
def resetNext (e : Event) : State :=
  { busyAt .nTables with bitq := [true], regs.bitCount := 7, regs.streamCrc := 1, atCut := true, schedule := [e] }

theorem resetNext_resets : ∀ e ∈ [Event.resetAssert, .host (.write 0x08 4 0x00000001)], resetsNext (resetNext e)
    ∧ after (step (resetNext e)) (fun t => (t.bitq, t.regs.bitCount, t.regs.streamCrc)) = some ([], 0, 0) := by
  unfold resetsNext
  decide

/-- A step that consumes the three bits of N_TABLES, one that loads a byte, and the two resets. -/
theorem met_BitCursorMovesOnlySo :
    after (step { busyAt .nTables with bitq := [false, true, false, true] }) (fun t => (t.bitq, t.regs.bitCount))
      = some ([true], 3)
    ∧ after (step { busyAt .nTables with inAnswer := some (.data 0x80) }) (·.bitq) = some (bitsOf (0x80 : Byte))
    ∧ resetsNext (resetNext .resetAssert) ∧ resetsNext (resetNext (.host (.write 0x08 4 0x00000001))) :=
  ⟨by decide, by decide, (resetNext_resets _ (by simp)).1, (resetNext_resets _ (by simp)).1⟩

/-- A step in which the source answers, and one in which the sink accepts. -/
theorem met_PortsMoveOneByteAtATime :
    after (step { busyAt .nTables with status.inWait := true, source := [.data 0x42] })
      (fun t => (t.source, t.status.inWait, t.inAnswer)) = some ([], false, some (.data 0x42))
    ∧ after (step { busyAt .emitted with status.outWait := true, outHold := 0x61 })
      (fun t => (t.sink, t.status.outWait)) = some ([0x61], false) := by decide

/-- A step from one stage to the next: the last element of READ_HEADER. -/
theorem met_StagesFollowInOrder :
    after (step { busyAt .origPtr with bitq := List.replicate 24 false }) (·.stage) = some .readSymbolMap := by decide

/-- A step that asks for a byte. -/
theorem met_BytesAreRequestedOnlyWhenNeeded : (busyAt .nTables).status.inWait = false
    ∧ after (step (busyAt .nTables)) (·.status.inWait) = some true := by decide

/-- A step that raises an error: the latch is 0. -/
theorem met_ErrorEntryRecordsTheStage : (busyAt .blockEntry).err.kind = .none
    ∧ after (step (busyAt .blockEntry)) (fun t => decide (t.err.kind ≠ .none)) = some true := by decide

/-- An error recorded, and the CLEAR_ERROR that clears it. -/
theorem met_ErrorsDoNotNest : ControlLegal locked ∧ locked.err.kind ≠ .none
    ∧ after (step (locked.withFetchWord 32 0x02)) (·.err.kind) = some .none :=
  ⟨met_ControlLegalIsKept.2.1, by decide, by decide⟩

theorem met_CoreStepsAreAtomic : ∀ p, inCoreStep (busyAt p) = true := fun _ => rfl

/-- A step whose block matches, so STREAM_CRC and BLOCK_COUNT move; CLEAR_STREAM_CRC's; and the two resets. -/
theorem met_StreamCrcMovesOnlySo : after (step (busyAt .doneCheck)) (·.regs.blockCount) = some 1
    ∧ after (step { busyAt .clearStreamCrc with regs.streamCrc := 1 }) (·.regs.streamCrc) = some 0
    ∧ resetsNext (resetNext .resetAssert) ∧ resetsNext (resetNext (.host (.write 0x08 4 0x00000001))) :=
  ⟨by decide, by decide, met_BitCursorMovesOnlySo.2.2⟩

end Sys2Proof.Tests
end

/-! Core steps and the other agents (spec/00_scope.md R12, spec/20_memory.md R83): a step of the core always happens,
does the same whatever is scheduled, and changes nothing that belongs to the host, the source, the sink or the
schedule. -/

namespace Sys2Proof.Machine

open Host (Outcome)

/-! ## A step of the core always happens -/

theorem fetch_next (slot : Slot) (n : Nat) (s : State) : ∃ t, fetch slot n s = .next t := by
  unfold fetch
  split
  · exact ⟨_, rfl⟩
  · dsimp only
    split
    · exact exec_next _ _
    · exact ⟨_, rfl⟩

theorem runInternal_next (s : State) : ∃ t, runInternal s = .next t := by
  unfold runInternal
  cases s.pos with
  | symbolReady => exact exec_next _ _
  | _ => exact ⟨_, rfl⟩

theorem runPos_next (s : State) : ∃ t, runPos s = .next t := by
  unfold runPos
  split
  · exact fetch_next _ _ _
  · exact runInternal_next _

/-- With an answer of the source at hand the core uses it. -/
theorem coreStep_of_some {s : State} {a : Answer} (h : s.inAnswer = some a) :
    coreStep s = .next (useAnswer a { s with atCut := false }) := by
  simp only [coreStep, h]

/-- With none it goes on at its position. -/
theorem coreStep_of_none {s : State} (h : s.inAnswer = none) : coreStep s = runPos { s with atCut := false } := by
  simp only [coreStep, h]

theorem coreStep_next (s : State) : ∃ t, coreStep s = .next t := by
  cases ha : s.inAnswer with
  | some a => exact ⟨_, coreStep_of_some ha⟩
  | none => rw [coreStep_of_none ha]; exact runPos_next _

/-- Inside a core step the step is the core's. -/
theorem step_eq_coreStep {s : State} (h : inCoreStep s = true) : step s = coreStep s := if_pos h

/-! ## What a step of the core leaves alone -/

/-- The state of the other agents and what only their moves change: CTRL, ARG, REJECTED and the bus answer, which
accesses of the host write (spec/20_memory.md R72), the queues of the two ports, and the schedule. -/
structure OthersFrame (s t : State) : Prop where
  ctrl : t.ctrl = s.ctrl
  arg : t.regs.arg = s.regs.arg
  source : t.source = s.source
  sink : t.sink = s.sink
  schedule : t.schedule = s.schedule
  host : t.host = s.host
  bus : t.bus = s.bus
  rejected : t.status.rejected = s.status.rejected

theorem OthersFrame.refl (s : State) : OthersFrame s s := by constructor <;> rfl

theorem OthersFrame.trans {s t u : State} (h : OthersFrame s t) (k : OthersFrame t u) : OthersFrame s u :=
  ⟨k.ctrl.trans h.ctrl, k.arg.trans h.arg, k.source.trans h.source, k.sink.trans h.sink,
    k.schedule.trans h.schedule, k.host.trans h.host, k.bus.trans h.bus, k.rejected.trans h.rejected⟩

theorem ElementFrame.others {s t : State} (h : ElementFrame s t) : OthersFrame s t :=
  ⟨h.ctrl, h.arg, h.source, h.sink, h.schedule, h.host, h.bus, congrArg Status.rejected h.status⟩

/-- Raising an error touches nothing of the other agents, so no end of an element does. -/
theorem ElementEnd.others {s t : State} (h : ElementEnd s t) : OthersFrame s t := by
  cases h with
  | goOn t hf _ _ => exact hf.others
  | raised k c t hf _ _ => exact hf.others.trans (by constructor <;> rfl)

theorem runCheckStreamCrc_others (s : State) : OthersFrame s (runCheckStreamCrc s) := by
  unfold runCheckStreamCrc
  split
  · dsimp only
    split <;> constructor <;> rfl
  · constructor <;> rfl

theorem checkBlockSize_others (s : State) : OthersFrame s (checkBlockSize s) := by
  unfold checkBlockSize
  split <;> constructor <;> rfl

theorem startSymbol_others (s : State) : OthersFrame s (startSymbol s) := by
  unfold startSymbol
  dsimp only
  split <;> constructor <;> rfl

theorem extractTurn_others (s : State) : OthersFrame s (extractTurn s) := by
  rcases extractTurn_cases s with ⟨-, h⟩ | ⟨-, -, h⟩ | ⟨-, -, h⟩ <;> rw [h] <;> constructor <;> rfl

theorem repeatTurn_others (s : State) : OthersFrame s (repeatTurn s) := by
  rcases repeatTurn_cases s with ⟨-, h⟩ | ⟨n, -, h⟩ <;> rw [h] <;> constructor <;> rfl

theorem doneCheck_others (s : State) : OthersFrame s (doneCheck s) := by
  rcases doneCheck_cases s with ⟨-, h⟩ | ⟨-, h⟩ <;> rw [h] <;> constructor <;> rfl

/-- No move of the core touches the other agents: an element by what every element leaves alone, the other moves by
what each of them updates. -/
theorem CoreMove.others {s t : State} (h : CoreMove s t) : OthersFrame s t := by
  cases h with
  | element slot n i s' _ _ _ _ hs h =>
    have hc : OthersFrame s { consume n s with loop.elem := [] } := by constructor <;> rfl
    have he : ElementEnd { consume n s with loop.elem := [] } t := element_end hs h
    exact hc.trans he.others
  | symbol i s' _ hp hi h =>
    have hs : standsAt s.pos i = true := by rw [hp, hi]; exact decodeSymbol_standsAt _ _
    exact (element_end hs h).others
  | checkCrc _ _ => exact runCheckStreamCrc_others s
  | blockEntry _ _ => exact checkBlockSize_others s
  | startSymbol _ _ => exact startSymbol_others s
  | extract _ _ => exact extractTurn_others s
  | repeatTurn _ _ => exact repeatTurn_others s
  | doneCheck _ _ => exact doneCheck_others s
  | rest _ _ _ => exact .refl s
  | _ => constructor <;> rfl

theorem coreStep_others {s t : State} (h : coreStep s = .next t) : OthersFrame s t := by
  have hc : OthersFrame s { s with atCut := false } := by constructor <;> rfl
  exact hc.trans (coreStep_move h).others

/-! ## A step of the core does not look at the schedule -/

/-- The state with another schedule. -/
def withSchedule (es : List Event) (s : State) : State := { s with schedule := es }

/-- The outcome with another schedule in its next state. -/
def nextWithSchedule (es : List Event) : Outcome State Fault Refusal → Outcome State Fault Refusal
  | .next s => .next (withSchedule es s)
  | .fault r => .fault r
  | .refused r => .refused r

section
variable (es : List Event) (s : State)

/-- An operation that branches ignores the schedule when its condition and both its branches do. -/
theorem withSchedule_ite (c : Prop) [Decidable c] (t : State) :
    withSchedule es (if c then s else t) = if c then withSchedule es s else withSchedule es t := apply_ite ..

theorem nextWithSchedule_ite (c : Prop) [Decidable c] (o p : Outcome State Fault Refusal) :
    nextWithSchedule es (if c then o else p) = if c then nextWithSchedule es o else nextWithSchedule es p :=
  apply_ite ..

theorem nextWithSchedule_next : nextWithSchedule es (.next s) = .next (withSchedule es s) := rfl

theorem runReadBits_withSchedule : runReadBits (withSchedule es s) = withSchedule es (runReadBits s) := by
  simp only [runReadBits, withSchedule_ite]
  rfl

theorem runCheckStreamCrc_withSchedule :
    runCheckStreamCrc (withSchedule es s) = withSchedule es (runCheckStreamCrc s) := by
  simp only [runCheckStreamCrc, withSchedule_ite]
  rfl

theorem checkBlockSize_withSchedule : checkBlockSize (withSchedule es s) = withSchedule es (checkBlockSize s) := by
  simp only [checkBlockSize, withSchedule_ite]
  rfl

theorem startSymbol_withSchedule : startSymbol (withSchedule es s) = withSchedule es (startSymbol s) := by
  simp only [startSymbol, withSchedule_ite]
  rfl

theorem extractTurn_withSchedule : extractTurn (withSchedule es s) = withSchedule es (extractTurn s) := by
  simp only [extractTurn, withSchedule_ite]
  rfl

theorem repeatTurn_withSchedule : repeatTurn (withSchedule es s) = withSchedule es (repeatTurn s) := by
  have hc : (withSchedule es s).loop.copies = s.loop.copies := rfl
  unfold repeatTurn
  rw [hc]
  cases s.loop.copies <;> rfl

theorem doneCheck_withSchedule : doneCheck (withSchedule es s) = withSchedule es (doneCheck s) := by
  simp only [doneCheck, withSchedule_ite]
  rfl

theorem endSymbolMap_withSchedule : endSymbolMap (withSchedule es s) = withSchedule es (endSymbolMap s) := by
  simp only [endSymbolMap, withSchedule_ite]
  rfl

theorem toRange_withSchedule (i : Nat) : toRange i (withSchedule es s) = withSchedule es (toRange i s) := by
  have hu : (withSchedule es s).loop.used16 = s.loop.used16 := rfl
  unfold toRange
  rw [hu]
  cases nextRange s.loop.used16 i with
  | some j => rfl
  | none => exact endSymbolMap_withSchedule es s

/-- No table's building looks at the schedule, so the building of all of them does not. -/
theorem huffBuildAll_withSchedule : huffBuildAll (withSchedule es s) = withSchedule es (huffBuildAll s) :=
  List.foldl_hom (withSchedule es) (fun _ _ => rfl)

theorem enterDecode_withSchedule : enterDecode (withSchedule es s) = withSchedule es (enterDecode s) := rfl

theorem flushRun_withSchedule : flushRun (withSchedule es s) = withSchedule es (flushRun s) := by
  simp only [flushRun, withSchedule_ite]
  rfl

theorem literal_withSchedule (v : BitVec 9) : literal v (withSchedule es s) = withSchedule es (literal v s) := by
  simp only [literal, withSchedule_ite]
  rfl

theorem addRun_withSchedule (n : Word) : addRun n (withSchedule es s) = withSchedule es (addRun n s) := by
  simp only [addRun, withSchedule_ite]
  rfl

theorem endDecode_withSchedule : endDecode (withSchedule es s) = withSchedule es (endDecode s) := by
  simp only [endDecode, withSchedule_ite]
  rfl

theorem execClDeltaEnd_withSchedule :
    execClDeltaEnd (withSchedule es s) = nextWithSchedule es (execClDeltaEnd s) := by
  simp only [execClDeltaEnd, nextWithSchedule_next, withSchedule_ite, ← enterDecode_withSchedule,
    ← huffBuildAll_withSchedule]
  rfl

theorem execSelectorMtf_withSchedule (r : Nat) :
    execSelectorMtf r (withSchedule es s) = nextWithSchedule es (execSelectorMtf r s) := by
  simp only [execSelectorMtf, nextWithSchedule_ite, nextWithSchedule_next, withSchedule_ite]
  rfl

theorem execLevelDigit_withSchedule (d : BitVec 4) :
    execLevelDigit d (withSchedule es s) = nextWithSchedule es (execLevelDigit d s) := by
  simp only [execLevelDigit, nextWithSchedule_ite]
  rfl

theorem execLit_withSchedule (v : BitVec 9) : execLit v (withSchedule es s) = nextWithSchedule es (execLit v s) := by
  simp only [execLit, flushRun_withSchedule, literal_withSchedule, nextWithSchedule_next]

theorem execEob_withSchedule : execEob (withSchedule es s) = nextWithSchedule es (execEob s) := by
  simp only [execEob, flushRun_withSchedule, endDecode_withSchedule, nextWithSchedule_next]

/-- No instruction's meaning looks at the schedule. -/
theorem exec_withSchedule (i : Instr) : exec i (withSchedule es s) = nextWithSchedule es (exec i s) := by
  cases i with
  | levelDigit d => exact execLevelDigit_withSchedule es s d
  | usedRanges u => exact congrArg Outcome.next (toRange_withSchedule es { s with loop.used16 := u, symMap := [] } 0)
  | usedSub u =>
    exact congrArg Outcome.next (toRange_withSchedule es
      { s with symMap := s.symMap ++ rangeBytes s.loop.rangeIdx u } (s.loop.rangeIdx + 1))
  | selectorMtf r => exact execSelectorMtf_withSchedule es s r
  | clDeltaEnd => exact execClDeltaEnd_withSchedule es s
  | runA => exact congrArg Outcome.next (addRun_withSchedule es s s.sym.runBit)
  | runB => exact congrArg Outcome.next (addRun_withSchedule es s (s.sym.runBit <<< 1))
  | lit v => exact execLit_withSchedule es s v
  | eob => exact execEob_withSchedule es s
  | clearError | readBits _ | decodeBlock | checkStreamCrc | clearStreamCrc | randomised _ | nTables _ | nSelectors _
  | huffmanCodeword _ =>
    refine congrArg Outcome.next (.trans ?_ (withSchedule_ite es _ _ _).symm)
    rfl
  | _ => rfl

theorem fetch_withSchedule (slot : Slot) (n : Nat) :
    fetch slot n (withSchedule es s) = nextWithSchedule es (fetch slot n s) := by
  have hd : decode slot (.bits ((withSchedule es s).loop.elem ++ (withSchedule es s).bitq.take n))
      = decode slot (.bits (s.loop.elem ++ s.bitq.take n)) := rfl
  simp only [fetch, nextWithSchedule_ite, hd]
  congr 1
  cases decode slot (.bits (s.loop.elem ++ s.bitq.take n)) with
  | ok i => exact exec_withSchedule es { consume n s with loop.elem := [] } i
  | error r => rfl

theorem runInternal_withSchedule : runInternal (withSchedule es s) = nextWithSchedule es (runInternal s) := by
  have hp : (withSchedule es s).pos = s.pos := rfl
  unfold runInternal
  rw [hp]
  cases s.pos with
  | readBits => exact congrArg Outcome.next (runReadBits_withSchedule es s)
  | checkStreamCrc => exact congrArg Outcome.next (runCheckStreamCrc_withSchedule es s)
  | blockEntry => exact congrArg Outcome.next (checkBlockSize_withSchedule es s)
  | nextSymbol => exact congrArg Outcome.next (startSymbol_withSchedule es s)
  | symbolReady => exact exec_withSchedule es s _
  | extract => exact congrArg Outcome.next (extractTurn_withSchedule es s)
  | repeatCopies => exact congrArg Outcome.next (repeatTurn_withSchedule es s)
  | doneCheck => exact congrArg Outcome.next (doneCheck_withSchedule es s)
  | _ => rfl

theorem runPos_withSchedule : runPos (withSchedule es s) = nextWithSchedule es (runPos s) := by
  have hd : dueSlot (withSchedule es s) = dueSlot s := rfl
  unfold runPos
  rw [hd]
  cases dueSlot s with
  | some d => exact fetch_withSchedule es s d.1 d.2
  | none => exact runInternal_withSchedule es s

/-- A step of the core does the same whatever is scheduled. -/
theorem coreStep_withSchedule : coreStep (withSchedule es s) = nextWithSchedule es (coreStep s) := by
  cases ha : s.inAnswer with
  | some a =>
    rw [coreStep_of_some ha, coreStep_of_some (s := withSchedule es s) ha]
    cases a <;> rfl
  | none =>
    rw [coreStep_of_none ha, coreStep_of_none (s := withSchedule es s) ha]
    exact runPos_withSchedule es { s with atCut := false }

end

/-- Settles O59: inside a core step the step is the core's, under any schedule; it always happens, does not look at the
schedule, and leaves the other agents alone. -/
theorem coreStepsAreAtomic : Obligations.CoreStepsAreAtomic := by
  intro s hin
  obtain ⟨t, ht⟩ := coreStep_next s
  have hf : OthersFrame s t := coreStep_others ht
  refine ⟨t, (step_eq_coreStep hin).trans ht, fun es => ?_, hf.ctrl, hf.arg, hf.source, hf.sink, hf.schedule, hf.host,
    hf.bus, hf.rejected⟩
  have hin' : inCoreStep (withSchedule es s) = true := hin
  calc step (withSchedule es s)
    _ = coreStep (withSchedule es s) := step_eq_coreStep hin'
    _ = nextWithSchedule es (coreStep s) := coreStep_withSchedule es s
    _ = .next (withSchedule es t) := by rw [ht]; rfl

end Sys2Proof.Machine

/-! Control (spec/10_state.md R27, R28, R33 to R35, R37, R52, R53): the flags, the stage, the error record and the ports
agree behind every move of the core, every command word and every answer of a port. -/

namespace Sys2Proof.Machine

/-! ## A running command, and how it stops -/

/-- A command runs: no error is recorded, DONE is 0, and STAGE is that of the core's position. -/
structure Running (s : State) : Prop where
  busy : s.status.busy = true
  done : s.status.done = false
  kind : s.err.kind = .none
  cause : s.err.cause = .none
  notReset : s.inReset = false
  pos : s.pos ≠ .rest
  stage : s.stage = s.pos.stage

/-- No port transaction is open: no request, no offer, no answer waiting for its use. -/
structure PortsClosed (s : State) : Prop where
  inWait : s.status.inWait = false
  outWait : s.status.outWait = false
  inAnswer : s.inAnswer = none

/-- In a legal state the core moves for a running command only. -/
theorem ControlLegal.running {s : State} (h : ControlLegal s) (hc : coreCanStep s = true) : Running s := by
  obtain ⟨hb, -, -, hr⟩ := (coreCanStep_iff s).1 hc
  obtain ⟨hp, hs⟩ := h.busy_pos hb
  obtain ⟨hk, hd⟩ := h.busy_clear hb
  exact ⟨hb, hd, hk, h.cause_kind (by simp [hk]), hr, hp, hs⟩

/-- A running command with one port open at most is legal. -/
theorem Running.legal {s : State} (h : Running s) (hp : s.status.inWait = true → s.status.outWait = false) :
    ControlLegal s where
  busy_pos _ := ⟨h.pos, h.stage⟩
  busy_clear _ := ⟨h.kind, h.done⟩
  idle_pos hb := by simp [h.busy] at hb
  idle_stage hb := by simp [h.busy] at hb
  idle_ports hb := by simp [h.busy] at hb
  one_port := hp
  cause_kind _ := h.cause
  reset_idle hr := by simp [h.notReset] at hr

/-- Raising an error with the ports closed is legal: nothing runs, and ERROR holds the record (R247). -/
theorem raise_legal {s : State} {k : ErrKind} {c : Cause} (hp : PortsClosed s) (hk : k ≠ .none)
    (hc : k ≠ .corruptStream → c = .none) : ControlLegal (raise k c s) where
  busy_pos hb := by simp at hb
  busy_clear hb := by simp at hb
  idle_pos _ := rfl
  idle_stage _ := .inr ⟨hk, rfl, rfl⟩
  idle_ports _ := ⟨hp.inWait, hp.outWait, hp.inAnswer⟩
  one_port _ := hp.outWait
  cause_kind := hc
  reset_idle _ := rfl

/-- Completing a command with the ports closed is legal: nothing runs, in IDLE and without an error (R224). -/
theorem complete_legal {s : State} (hp : PortsClosed s) (hk : s.err.kind = .none) (hc : s.err.cause = .none) :
    ControlLegal (complete s) where
  busy_pos hb := by simp at hb
  busy_clear hb := by simp at hb
  idle_pos _ := rfl
  idle_stage _ := .inl ⟨hk, rfl⟩
  idle_ports _ := ⟨hp.inWait, hp.outWait, hp.inAnswer⟩
  one_port _ := hp.outWait
  cause_kind _ := hc
  reset_idle _ := rfl

/-- An operation that branches ends legally when both its branches do. -/
theorem ControlLegal.ite {c : Prop} [Decidable c] {x y : State} (hx : ControlLegal x) (hy : ControlLegal y) :
    ControlLegal (if c then x else y) := iteInduction (fun _ => hx) (fun _ => hy)

/-! ## Moves of the core -/

/-- The class of a decoded symbol value stands where the value is acted on (spec/30_encoding.md R100). -/
theorem standsAt_of_symbol {s : State} {i : Instr} (hp : s.pos = .symbolReady)
    (hi : i = decodeSymbol s.used.toNat s.loop.symbol) : standsAt s.pos i = true := by
  rw [hp, hi]
  exact decodeSymbol_standsAt _ _

/-- An element that stands at the position of a running command ends legally. -/
theorem ElementEnd.legal {s t : State} (h : ElementEnd s t) (hr : Running s) (hp : PortsClosed s) : ControlLegal t := by
  cases h with
  | goOn t hf hpos hstage =>
    have ht : Running t :=
      ⟨hf.status ▸ hr.busy, hf.status ▸ hr.done, hf.err ▸ hr.kind, hf.err ▸ hr.cause, hf.inReset.trans hr.notReset,
        hpos, hstage hr.stage⟩
    exact ht.legal fun _ => hf.status ▸ hp.outWait
  | raised k c t hf _ hk =>
    have ht : PortsClosed t := ⟨hf.status ▸ hp.inWait, hf.status ▸ hp.outWait, hf.inAnswer.trans hp.inAnswer⟩
    rcases hk with rfl | ⟨rfl, rfl⟩
    · exact raise_legal ht (by decide) (by simp)
    · exact raise_legal ht (by decide) (by simp)

section
variable {s : State} (hr : Running s) (hp : PortsClosed s)
include hr hp

theorem runCheckStreamCrc_legal : ControlLegal (runCheckStreamCrc s) :=
  .ite
    (.ite (raise_legal { hp with } (by decide) (by simp)) (complete_legal { hp with } hr.kind hr.cause))
    (complete_legal hp hr.kind hr.cause)

theorem checkBlockSize_legal (h : s.pos = .blockEntry) : ControlLegal (checkBlockSize s) :=
  have hs : s.stage = .readHeader := hr.stage.trans (congrArg Pos.stage h)
  .ite (Running.legal { hr with pos := nofun, stage := hs } fun _ => hp.outWait)
    (raise_legal hp (by decide) (by simp))

theorem startSymbol_legal (h : s.pos = .nextSymbol) : ControlLegal (startSymbol s) :=
  have hs : s.stage = .decodeMtfRle2 := hr.stage.trans (congrArg Pos.stage h)
  .ite (raise_legal hp (by decide) (by simp))
    (Running.legal { hr with pos := nofun, stage := hs } fun _ => hp.outWait)

theorem extractTurn_legal (h : s.pos = .extract) : ControlLegal (extractTurn s) := by
  have hs : s.stage = .emitRle1 := hr.stage.trans (congrArg Pos.stage h)
  rcases extractTurn_cases s with ⟨-, e⟩ | ⟨-, -, e⟩ | ⟨-, -, e⟩ <;> rw [e]
  · exact Running.legal { hr with pos := nofun, stage := rfl } fun _ => hp.outWait
  · exact Running.legal { hr with pos := nofun, stage := hs } fun _ => hp.outWait
  · exact Running.legal { hr with pos := nofun, stage := hs } fun hi => absurd (hp.inWait.symm.trans hi) (by decide)

theorem repeatTurn_legal (h : s.pos = .repeatCopies) : ControlLegal (repeatTurn s) := by
  have hs : s.stage = .emitRle1 := hr.stage.trans (congrArg Pos.stage h)
  rcases repeatTurn_cases s with ⟨-, e⟩ | ⟨n, -, e⟩ <;> rw [e]
  · exact Running.legal { hr with pos := nofun, stage := hs } fun _ => hp.outWait
  · exact Running.legal { hr with pos := nofun, stage := hs } fun hi => absurd (hp.inWait.symm.trans hi) (by decide)

theorem doneCheck_legal : ControlLegal (doneCheck s) :=
  .ite (raise_legal hp (by decide) (by simp)) (complete_legal { hp with } hr.kind hr.cause)

/-- Behind an accepted byte the emission goes on in its stage. -/
theorem finishEmit_legal {p : Pos} (h : s.stage = p.stage) (hn : p ≠ .rest) :
    ControlLegal { finishEmit s with pos := p } :=
  Running.legal { hr with pos := hn, stage := h } fun _ => hp.outWait

/-- A request leaves the other port closed. -/
theorem requestByte_legal : ControlLegal (requestByte s) :=
  Running.legal { hr with } fun _ => hp.outWait

end

/-- Every move of the core ends legally. -/
theorem CoreMove.legal {s t : State} (hs : ControlLegal s) (hc : coreCanStep s = true) (h : CoreMove s t) :
    ControlLegal t := by
  have hr : Running s := hs.running hc
  obtain ⟨-, hi, ho, -⟩ := (coreCanStep_iff s).1 hc
  have closed (ha : s.inAnswer = none) : PortsClosed s := ⟨hi, ho, ha⟩
  cases h with
  | load b _ => exact Running.legal { hr with } fun _ => ho
  | endOfStream _ => exact raise_legal ⟨hi, ho, rfl⟩ (by decide) (by simp)
  | request slot n ha _ _ => exact requestByte_legal hr (closed ha)
  | keep slot n r ha _ _ _ => exact Running.legal { hr with } fun _ => ho
  | element slot n i s' ha _ _ _ hst he =>
    have hend : ElementEnd { consume n s with loop.elem := [] } t := element_end hst he
    exact hend.legal { hr with } { closed ha with }
  | symbol i s' ha hp hi he =>
    have hend : ElementEnd s t := element_end (standsAt_of_symbol hp hi) he
    exact hend.legal hr (closed ha)
  | readMore ha _ _ => exact requestByte_legal hr (closed ha)
  | readDone ha _ _ => exact complete_legal { closed ha with } hr.kind hr.cause
  | checkCrc ha _ => exact runCheckStreamCrc_legal hr (closed ha)
  | clearCrc ha _ => exact complete_legal { closed ha with } hr.kind hr.cause
  | blockEntry ha hp => exact checkBlockSize_legal hr (closed ha) hp
  | codeLength ha _ => exact raise_legal (closed ha) (by decide) (by simp)
  | startSymbol ha hp => exact startSymbol_legal hr (closed ha) hp
  | buckets ha hp => exact Running.legal { hr with pos := nofun, stage := rfl } fun _ => ho
  | extract ha hp => exact extractTurn_legal hr (closed ha) hp
  | emitted ha hp => exact finishEmit_legal hr (closed ha) (by rw [hr.stage, hp]; rfl) (by decide)
  | repeatTurn ha hp => exact repeatTurn_legal hr (closed ha) hp
  | repeated ha hp => exact finishEmit_legal hr (closed ha) (by rw [hr.stage, hp]; rfl) (by decide)
  | doneCheck ha _ => exact doneCheck_legal hr (closed ha)
  | rest _ _ hp => exact absurd hp hr.pos

/-! ## Command words and ports -/

/-- The acceptance of a command starts it (R215): its first position stands in its first stage. -/
theorem accept_legal {s : State} {st : Stage} {p : Pos} (hs : ControlLegal s) (hres : s.inReset = false)
    (hr : ready s = true) (hp : p ≠ .rest) (hst : st = p.stage) : ControlLegal (accept st p s) := by
  obtain ⟨hb, hk⟩ := (ready_iff s).1 hr
  have ht : Running (accept st p s) := ⟨rfl, rfl, hk, hs.cause_kind (by simp [hk]), hres, hp, hst⟩
  obtain ⟨-, ho, -⟩ := hs.idle_ports hb
  exact ht.legal fun _ => ho

/-- Behind a reset nothing runs, nothing is recorded and no port transaction is open (R271). -/
theorem softReset_legal (s : State) : ControlLegal (softReset s) where
  busy_pos := nofun
  busy_clear := nofun
  idle_pos _ := rfl
  idle_stage _ := .inl ⟨rfl, rfl⟩
  idle_ports _ := ⟨rfl, rfl, rfl⟩
  one_port := nofun
  cause_kind _ := rfl
  reset_idle _ := rfl

theorem resetAssert_legal (s : State) : ControlLegal (resetAssert s) :=
  { softReset_legal s with reset_idle := fun _ => rfl }

/-- Every command word ends legally, accepted or rejected. -/
theorem CommandMove.legal {w : Word} {s t : State} (hs : ControlLegal s) (hres : s.inReset = false)
    (h : CommandMove w s t) : ControlLegal t := by
  cases h with
  | reject => exact { hs with }
  | nop => exact hs
  | softReset _ => exact softReset_legal s
  | clearError hb =>
    exact { hs with
      busy_pos := fun h => absurd (hb.symm.trans h) (by decide)
      busy_clear := fun _ => ⟨rfl, rfl⟩
      idle_stage := fun _ => .inl ⟨rfl, rfl⟩
      cause_kind := fun _ => rfl }
  | readBits n hr _ => exact accept_legal { hs with } hres hr (by decide) rfl
  | decodeBlock hr => exact accept_legal { hs with } hres hr (by decide) rfl
  | checkStreamCrc hr => exact accept_legal { hs with } hres hr (by decide) rfl
  | clearStreamCrc hr => exact accept_legal hs hres hr (by decide) rfl

/-- A port transaction is open while a command runs only. -/
theorem ControlLegal.busy_of_port {s : State} (hs : ControlLegal s)
    (h : s.status.inWait = true ∨ s.status.outWait = true) : s.status.busy = true := by
  cases hb : s.status.busy with
  | true => rfl
  | false =>
    obtain ⟨hi, ho, -⟩ := hs.idle_ports hb
    simp [hi, ho] at h

/-- The source's answer ends the request and waits for the core. -/
theorem ControlLegal.source {s : State} (hs : ControlLegal s) (hw : s.status.inWait = true) (a : Answer)
    (rest : List Answer) :
    ControlLegal { s with status.inWait := false, status.inEos := decide (a = .eos), inAnswer := some a,
                          source := rest, atCut := true } :=
  have hb : s.status.busy = true := hs.busy_of_port (.inl hw)
  { hs with
    idle_ports := fun h => absurd (hb.symm.trans h) (by decide)
    one_port := nofun }

/-- The sink's acceptance ends the offer. -/
theorem ControlLegal.sink {s : State} (hs : ControlLegal s) (hw : s.status.outWait = true) :
    ControlLegal { s with status.outWait := false, sink := s.sink ++ [s.outHold], atCut := true } :=
  have hb : s.status.busy = true := hs.busy_of_port (.inr hw)
  { hs with
    idle_ports := fun h => absurd (hb.symm.trans h) (by decide)
    one_port := fun _ => rfl }

/-- Settles O47: each kind of move of a step keeps control legal. -/
theorem controlLegalIsKept : Obligations.ControlLegalIsKept := fun _ _ hs e =>
  step_keeps (P := ControlLegal)
    (schedule := fun _ _ h => { h with })
    (core := fun s _ h hc hm => CoreMove.legal (s := { s with atCut := false }) { h with } hc hm)
    (host := fun _ _ _ _ h => { h with })
    (command := fun _ _ _ h hres _ hm => hm.legal h hres)
    (ctrl := fun _ _ h => { h with })
    (arg := fun _ _ h => { h with })
    (source := fun _ a rest h hw _ => h.source hw a rest)
    (sink := fun _ h hw => h.sink hw)
    (assert := fun s _ => resetAssert_legal s)
    (release := fun _ h => { h with reset_idle := nofun })
    hs e

end Sys2Proof.Machine

/-! The order of the stages (spec/10_state.md R53, spec/60_exceptions.md R251). -/

namespace Sys2Proof.Machine

/-- The stages that one step can lead to from stage p: itself, IDLE, ERROR, and the next of the sequence. -/
def StageNext (p q : Stage) : Prop := q = p ∨ q = .idle ∨ q = .error ∨ stageFollows p q = true

theorem StageNext.refl (p : Stage) : StageNext p p := .inl rfl

theorem stageNext_idle (p : Stage) : StageNext p .idle := .inr (.inl rfl)

theorem stageNext_error (p : Stage) : StageNext p .error := .inr (.inr (.inl rfl))

theorem StageNext.of_follows {p q : Stage} (h : stageFollows p q = true) : StageNext p q := .inr (.inr (.inr h))

/-- An operation that branches follows the order when both its branches do. -/
theorem StageNext.ite {p : Stage} {c : Prop} [Decidable c] {x y : State} (hx : StageNext p x.stage)
    (hy : StageNext p y.stage) : StageNext p (if c then x else y).stage :=
  iteInduction (motive := fun u : State => StageNext p u.stage) (fun _ => hx) (fun _ => hy)

/-! ## Elements -/

/-- READ_SYMBOL_MAP goes on with its next range, or ends in READ_TABLES or in an error (R170, R172). -/
theorem toRange_stage (i : Nat) {s : State} (hs : s.stage = .readSymbolMap) :
    StageNext s.stage (toRange i s).stage := by
  unfold toRange
  split
  · exact .refl _
  · rw [hs]
    exact .ite (stageNext_error _) (.of_follows rfl)

theorem execSelectorMtf_stage {r : Nat} {s t : State} (h : execSelectorMtf r s = .next t) :
    StageNext s.stage t.stage := by
  unfold execSelectorMtf at h
  split at h <;> injection h with h <;> subst h
  · exact stageNext_error _
  · exact .ite (.refl _) (.refl _)

theorem addRun_stage (n : Word) (s : State) : StageNext s.stage (addRun n s).stage :=
  .ite (stageNext_error _) (.refl _)

theorem literal_stage (v : BitVec 9) (s : State) : StageNext s.stage (literal v s).stage :=
  .ite (stageNext_error _) (.refl _)

/-- The symbols end in BUILD_BUCKET_ARRAY or in an error (R188). -/
theorem endDecode_stage (s : State) : StageNext .decodeMtfRle2 (endDecode s).stage :=
  .ite (stageNext_error _) (.of_follows rfl)

/-- An element that stands at the core's position keeps the stage, or ends in an error or in the next stage. -/
theorem element_stage {i : Instr} {s t : State} (hi : standsAt s.pos i = true) (hs : s.stage = s.pos.stage)
    (h : exec i s = .next t) : StageNext s.stage t.stage := by
  have hp : standing i = some s.pos := of_decide_eq_true hi
  cases i <;> first
    | cases hp
    | injection hp with hp; rw [← hp] at hs
  case selectorMtf r => exact execSelectorMtf_stage h
  all_goals injection h with h; subst h
  case origPtr p => rw [hs]; exact .of_follows rfl
  case usedRanges u => exact toRange_stage 0 (s := { s with loop.used16 := u, symMap := [] }) hs
  case usedSub u => exact toRange_stage _ (s := { s with symMap := s.symMap ++ rangeBytes s.loop.rangeIdx u }) hs
  case clDeltaEnd => exact .ite (.refl _) (.ite (.refl _) (by rw [hs]; exact .of_follows rfl))
  case runA | runB => exact addRun_stage _ s
  case lit v => exact flushRun_stage s ▸ literal_stage v (flushRun s)
  case eob => rw [hs]; exact endDecode_stage (flushRun s)
  case randomised | nSelectors => exact .ite (stageNext_error _) (.refl _)
  case nTables | huffmanCodeword => exact .ite (.refl _) (stageNext_error _)
  all_goals exact .refl _

/-! ## Moves of the core -/

/-- Every move of a core that stands in the stage of its position follows the order. -/
theorem CoreMove.stage {s t : State} (hs : s.stage = s.pos.stage) (h : CoreMove s t) : StageNext s.stage t.stage := by
  cases h with
  | endOfStream | codeLength => exact stageNext_error _
  | load | request | keep | readMore | emitted | repeated | rest => exact .refl _
  | readDone | clearCrc => exact stageNext_idle _
  | element slot n i _ _ _ _ _ hst he => exact element_stage (s := { consume n s with loop.elem := [] }) hst hs he
  | symbol i _ _ hp hi he => exact element_stage (standsAt_of_symbol hp hi) hs he
  | checkCrc => exact .ite (.ite (stageNext_error _) (stageNext_idle _)) (stageNext_idle _)
  | blockEntry => exact .ite (.refl _) (stageNext_error _)
  | startSymbol => exact .ite (stageNext_error _) (.refl _)
  | buckets _ hp => rw [hs, hp]; exact .of_follows rfl
  | extract _ hp =>
    rw [hs, hp]
    rcases extractTurn_cases s with ⟨-, e⟩ | ⟨-, -, e⟩ | ⟨-, -, e⟩ <;> rw [e]
    · exact .of_follows rfl
    · exact .inl (hs.trans (congrArg Pos.stage hp))
    · exact .inl (hs.trans (congrArg Pos.stage hp))
  | repeatTurn =>
    rcases repeatTurn_cases s with ⟨-, e⟩ | ⟨n, -, e⟩ <;> rw [e] <;> exact .refl _
  | doneCheck => exact .ite (stageNext_error _) (stageNext_idle _)

/-! ## The other moves -/

/-- A command word is accepted from IDLE into its first stage, or leads to IDLE, or leaves the stage. -/
theorem CommandMove.stage {w : Word} {s t : State} (hs : ControlLegal s) (h : CommandMove w s t) :
    StageNext s.stage t.stage := by
  have idle (hr : ready s = true) : s.stage = .idle := by
    obtain ⟨hb, hk⟩ := (ready_iff s).1 hr
    rcases hs.idle_stage hb with ⟨-, h⟩ | ⟨h, -⟩
    · exact h
    · exact absurd hk h
  cases h with
  | reject | nop => exact .refl _
  | softReset | clearError => exact stageNext_idle _
  | readBits _ hr | decodeBlock hr | checkStreamCrc hr | clearStreamCrc hr => rw [idle hr]; exact .of_follows rfl

theorem HostMove.stage {words : Word → Prop} {s t : State} (hs : ControlLegal s) (h : HostMove words s t) :
    StageNext s.stage t.stage := by
  cases h with
  | quiet | ctrl | arg => exact .refl _
  | command h b w _ _ _ ho =>
    exact CommandMove.stage (s := { s with host := h, bus := b }) { hs with } (offerCommand_move ho)

/-- Settles O58: by the kinds of moves a step can be. -/
theorem stagesFollowInOrder : Obligations.StagesFollowInOrder := by
  intro s s' hs e
  show StageNext s.stage s'.stage
  cases step_move e with
  | pass => exact .refl _
  | core r _ hc h =>
    have hr : Running s := hs.running hc
    exact CoreMove.stage (s := { s with schedule := r, atCut := false }) hr.stage (coreStep_move h)
  | access a r _ _ _ h | procedure r _ _ h => exact HostMove.stage (s := { s with schedule := r }) { hs with } h
  | source r =>
    rcases sourceAnswer_cases { s with schedule := r } with h | ⟨_, _, _, _, h⟩ <;> rw [h] <;> exact .refl _
  | sink r => rcases sinkAccept_cases { s with schedule := r } with h | ⟨_, h⟩ <;> rw [h] <;> exact .refl _
  | resetAssert => exact stageNext_idle _
  | resetRelease => exact .refl _

end Sys2Proof.Machine

/-! The bit queue (spec/10_state.md R36, R54, spec/40_bitreader.md R110, R112, R115): how much BITQ holds, and when a byte
is asked for. -/

namespace Sys2Proof.Machine

/-! ## What the core's moves do to the bit reader -/

/-- BITQ, the pending request and its answer stay, and the core does not stand at a READ_BITS. -/
structure ReaderStill (s t : State) : Prop where
  bitq : t.bitq = s.bitq
  inAnswer : t.inAnswer = s.inAnswer
  inWait : t.status.inWait = s.status.inWait
  pos : t.pos ≠ .readBits

/-- An operation that branches leaves the reader still when both its branches do. -/
theorem ReaderStill.ite {s : State} {c : Prop} [Decidable c] {x y : State} (hx : ReaderStill s x)
    (hy : ReaderStill s y) : ReaderStill s (if c then x else y) := iteInduction (fun _ => hx) (fun _ => hy)

/-- READ_BITS is entered from IDLE only, so a running command's position that leads to its stage is its own. -/
theorem pos_of_stageNext_readBits {p : Pos} (h : StageNext p.stage .readBits) : p = .rest ∨ p = .readBits := by
  cases p <;> simp [StageNext, Pos.stage, stageFollows] at h ⊢

theorem standsAt_ne {p : Pos} {i : Instr} (h : standsAt p i = true) : p ≠ .rest ∧ p ≠ .readBits := by
  have hp : standing i = some p := of_decide_eq_true h
  constructor <;> rintro rfl <;> cases i <;> cases hp

/-- A slot is due at none of the positions that read no element. -/
theorem pos_ne_readBits_of_dueSlot {s : State} {d : Slot × Nat} (h : dueSlot s = some d) : s.pos ≠ .readBits := by
  intro hp
  simp [dueSlot, hp] at h

/-- An element leaves the reader where its fetch has put it. -/
theorem element_still {i : Instr} {s t : State} (hi : standsAt s.pos i = true) (hs : s.stage = s.pos.stage)
    (h : exec i s = .next t) : ReaderStill s t := by
  have hn : StageNext s.pos.stage t.stage := hs ▸ element_stage hi hs h
  obtain ⟨hp, hq⟩ := standsAt_ne hi
  cases element_end hi h with
  | goOn t hf _ hst =>
    refine ⟨hf.bitq, hf.inAnswer, congrArg Status.inWait hf.status, fun ht => ?_⟩
    rw [hst hs, ht] at hn
    exact (pos_of_stageNext_readBits hn).elim hp hq
  | raised k c u hf _ _ =>
    have hw : u.status.inWait = s.status.inWait := congrArg Status.inWait hf.status
    exact ⟨hf.bitq, hf.inAnswer, hw, nofun⟩

theorem extractTurn_still (s : State) : ReaderStill s (extractTurn s) := by
  rcases extractTurn_cases s with ⟨-, e⟩ | ⟨-, -, e⟩ | ⟨-, -, e⟩ <;> rw [e] <;> exact ⟨rfl, rfl, rfl, nofun⟩

theorem repeatTurn_still (s : State) : ReaderStill s (repeatTurn s) := by
  rcases repeatTurn_cases s with ⟨-, e⟩ | ⟨n, -, e⟩ <;> rw [e] <;> exact ⟨rfl, rfl, rfl, nofun⟩

theorem runCheckStreamCrc_still (s : State) : ReaderStill s (runCheckStreamCrc s) :=
  .ite (.ite ⟨rfl, rfl, rfl, nofun⟩ ⟨rfl, rfl, rfl, nofun⟩) ⟨rfl, rfl, rfl, nofun⟩

/-- What a move of the core does to the bit reader: it uses the source's answer; it asks for a byte that the read due
needs; it consumes the bits of the read due; or it reads nothing, where no read of more than one bit is due. -/
inductive ReaderMove (s : State) : State → Prop where
  | load (b : Byte) (ha : s.inAnswer = some (.data b)) : ReaderMove s (loadByte b s)
  | endOfStream (ha : s.inAnswer = some .eos) :
      ReaderMove s (raise .endOfStream .none { s with inAnswer := none })
  | request (ha : s.inAnswer = none) (hl : s.bitq.length < bitsNeeded s) : ReaderMove s (requestByte s)
  | read (t : State) (ha : s.inAnswer = none) (ht : ReaderStill (consume (bitsNeeded s) s) t) : ReaderMove s t
  | still (t : State) (ha : s.inAnswer = none) (hn : bitsNeeded s ≤ 1) (ht : ReaderStill s t) : ReaderMove s t

theorem CoreMove.reader {s t : State} (hs : s.stage = s.pos.stage) (h : CoreMove s t) : ReaderMove s t := by
  cases h with
  | load b ha => exact .load b ha
  | endOfStream ha => exact .endOfStream ha
  | request slot n ha hd hl => exact .request ha (dueSlot_bitsNeeded hd ▸ hl)
  | readMore ha hp hl => exact .request ha (by simpa [bitsNeeded, hp] using hl)
  | keep slot n r ha hd _ _ =>
    have hp : s.pos ≠ .readBits := pos_ne_readBits_of_dueSlot hd
    refine .read _ ha ?_
    rw [← dueSlot_bitsNeeded hd]
    exact ⟨rfl, rfl, rfl, hp⟩
  | element slot n i _ ha hd _ _ hst he =>
    refine .read _ ha ?_
    rw [← dueSlot_bitsNeeded hd]
    exact { element_still (s := { consume n s with loop.elem := [] }) hst hs he with }
  | readDone ha hp _ =>
    have hn : s.loop.readCount.toNat = bitsNeeded s := by simp [bitsNeeded, hp]
    refine .read _ ha ?_
    rw [← hn]
    exact ⟨rfl, rfl, rfl, nofun⟩
  | symbol i _ ha hp hi he =>
    exact .still _ ha (by simp [bitsNeeded, hp]) (element_still (standsAt_of_symbol hp hi) hs he)
  | checkCrc ha hp => exact .still _ ha (by simp [bitsNeeded, hp]) (runCheckStreamCrc_still s)
  | clearCrc ha hp | codeLength ha hp | buckets ha hp | emitted ha hp | repeated ha hp =>
    exact .still _ ha (by simp [bitsNeeded, hp]) ⟨rfl, rfl, rfl, nofun⟩
  | blockEntry ha hp | startSymbol ha hp | doneCheck ha hp =>
    exact .still _ ha (by simp [bitsNeeded, hp]) (.ite ⟨rfl, rfl, rfl, nofun⟩ ⟨rfl, rfl, rfl, nofun⟩)
  | extract ha hp => exact .still _ ha (by simp [bitsNeeded, hp]) (extractTurn_still s)
  | repeatTurn ha hp => exact .still _ ha (by simp [bitsNeeded, hp]) (repeatTurn_still s)
  | rest ha _ hp => exact .still _ ha (by simp [bitsNeeded, hp]) ⟨rfl, rfl, rfl, by simp [hp]⟩

/-! ## The core's atomic step -/

theorem inCoreStep_iff (s : State) : inCoreStep s = true ↔ coreCanStep s = true ∧ s.atCut = false := by
  simp [inCoreStep]

/-- No request is pending inside a core step. -/
theorem inWait_of_inCoreStep {s : State} (h : inCoreStep s = true) : s.status.inWait = false := by
  obtain ⟨hc, -⟩ := (inCoreStep_iff s).1 h
  obtain ⟨-, hi, -⟩ := (coreCanStep_iff s).1 hc
  exact hi

/-- While a port transaction is open the core is at a cut. -/
theorem inCoreStep_of_port {s : State} (h : s.status.inWait = true ∨ s.status.outWait = true) :
    inCoreStep s = false := by
  rcases h with h | h <;> simp [inCoreStep, coreCanStep, h]

/-- Inside a core step hardware reset is not asserted, so its release does not end the step. -/
theorem inCoreStep_resetRelease {s : State} (h : inCoreStep s = true) : inCoreStep (resetRelease s) = true := by
  obtain ⟨hc, ha⟩ := (inCoreStep_iff s).1 h
  obtain ⟨hb, hi, ho, -⟩ := (coreCanStep_iff s).1 hc
  exact (inCoreStep_iff _).2 ⟨(coreCanStep_iff _).2 ⟨hb, hi, ho, rfl⟩, ha⟩

/-! ## The bound on BITQ -/

/-- No read takes more than 32 bits (spec/30_encoding.md R93). -/
theorem BitqLegal.bitsNeeded_le {s : State} (h : BitqLegal s) : bitsNeeded s ≤ 32 := by
  unfold bitsNeeded
  split
  · next hp => exact (h.count hp).2
  all_goals omega

/-- Outside a core step BITQ holds at most 31 bits. -/
theorem BitqLegal.le_of_cut {s : State} (h : BitqLegal s) (hq : inCoreStep s = false) : s.bitq.length ≤ 31 := by
  rcases h.settled with hl | ⟨hc, -⟩
  · exact hl
  · simp [hq] at hc

/-- With an answer at hand BITQ holds at most 31 bits, so that a byte fits. -/
theorem BitqLegal.le_of_answer {s : State} (h : BitqLegal s) (ha : s.inAnswer ≠ none) : s.bitq.length ≤ 31 := by
  rcases h.settled with hl | ⟨-, hn, -⟩
  · exact hl
  · exact absurd hn ha

/-- A state with no port transaction open, at most 31 bits and no READ_BITS ahead is legal. -/
theorem bitqLegal_of_closed {s : State} (hp : s.pos ≠ .readBits) (hi : s.status.inWait = false)
    (ha : s.inAnswer = none) (hl : s.bitq.length ≤ 31) : BitqLegal s where
  count h := absurd h hp
  lazy h := by simp [hi, ha] at h
  bound := by omega
  settled := .inl hl

/-- A loaded byte leaves more than 31 bits only where the read due now takes all but at most 7 of them. -/
theorem BitqLegal.load {s : State} (h : BitqLegal s) (hc : inCoreStep s = true) {b : Byte}
    (ha : s.inAnswer = some (.data b)) : BitqLegal (loadByte b s) := by
  have hw : s.status.inWait = false := inWait_of_inCoreStep hc
  have hlen : (loadByte b s).bitq.length = s.bitq.length + 8 := by simp
  have hl : s.bitq.length ≤ 31 := h.le_of_answer (by simp [ha])
  have hd : s.bitq.length < bitsNeeded s := h.lazy (.inr (by simp [ha]))
  have hn : bitsNeeded s ≤ 32 := h.bitsNeeded_le
  exact {
    count := h.count
    lazy := fun hp => by simp [hw] at hp
    bound := by omega
    settled := by
      by_cases h31 : s.bitq.length + 8 ≤ 31
      · exact .inl (hlen ▸ h31)
      · refine .inr ⟨hc, rfl, ?_, ?_⟩
        · show bitsNeeded s ≤ _
          omega
        · show _ ≤ bitsNeeded s + 7
          omega }

/-- Every move of the core inside its step keeps the queue legal. -/
theorem ReaderMove.bitqLegal {s t : State} (h : BitqLegal s) (hc : inCoreStep s = true) (hm : ReaderMove s t) :
    BitqLegal t := by
  have hw : s.status.inWait = false := inWait_of_inCoreStep hc
  cases hm with
  | load b ha => exact h.load hc ha
  | endOfStream ha => exact bitqLegal_of_closed nofun hw rfl (h.le_of_answer (by simp [ha]))
  | request ha hl =>
    have hl' : s.bitq.length ≤ 31 := by have := h.bitsNeeded_le; omega
    exact { count := h.count, lazy := fun _ => hl, bound := h.bound, settled := .inl hl' }
  | read t ha ht =>
    refine bitqLegal_of_closed ht.pos (ht.inWait.trans hw) (ht.inAnswer.trans ha) ?_
    have hlen : t.bitq.length = s.bitq.length - bitsNeeded s := by simp [ht.bitq]
    rcases h.settled with hs | ⟨-, -, -, hs⟩ <;> omega
  | still t ha hn ht =>
    refine bitqLegal_of_closed ht.pos (ht.inWait.trans hw) (ht.inAnswer.trans ha) ?_
    rw [ht.bitq]
    rcases h.settled with hs | ⟨-, -, -, hs⟩ <;> omega

/-! ## The other moves -/

/-- An accepted command finds the ports closed; its count, if it is READ_BITS, is 1..32. -/
theorem CommandMove.bitqLegal {w : Word} {s t : State} (hs : ControlLegal s) (h : BitqLegal s)
    (hq : inCoreStep s = false) (hm : CommandMove w s t) : BitqLegal t := by
  have hl : s.bitq.length ≤ 31 := h.le_of_cut hq
  have closed (hr : ready s = true) : PortsClosed s := by
    obtain ⟨hi, ho, ha⟩ := hs.idle_ports ((ready_iff s).1 hr).1
    exact ⟨hi, ho, ha⟩
  cases hm with
  | reject => exact { h with }
  | nop => exact h
  | softReset _ => exact bitqLegal_of_closed nofun rfl rfl (Nat.zero_le _)
  | clearError _ => exact { h with settled := .inl hl }
  | readBits n hr hn =>
    exact {
      count := fun _ => hn
      lazy := fun hp => by simp [(closed hr).inWait, (closed hr).inAnswer] at hp
      bound := h.bound
      settled := .inl hl }
  | decodeBlock hr | checkStreamCrc hr | clearStreamCrc hr =>
    exact bitqLegal_of_closed nofun (closed hr).inWait (closed hr).inAnswer hl

/-- A core that can move goes on inside its step. -/
theorem BitqLegal.enterStep {s : State} (h : BitqLegal s) (hc : coreCanStep s = true) :
    inCoreStep { s with atCut := false } = true ∧ BitqLegal { s with atCut := false } := by
  have hin : inCoreStep { s with atCut := false } = true := (inCoreStep_iff _).2 ⟨hc, rfl⟩
  exact ⟨hin, { h with settled := h.settled.imp_right fun ⟨_, hr⟩ => ⟨hin, hr⟩ }⟩

/-- The source answers a request that the read due needs. -/
theorem BitqLegal.source {s : State} (h : BitqLegal s) (hw : s.status.inWait = true) (a : Answer)
    (rest : List Answer) :
    BitqLegal { s with status.inWait := false, status.inEos := decide (a = .eos), inAnswer := some a,
                       source := rest, atCut := true } :=
  { h with
    lazy := fun _ => h.lazy (.inl hw)
    settled := .inl (h.le_of_cut (inCoreStep_of_port (.inl hw))) }

theorem BitqLegal.sink {s : State} (h : BitqLegal s) (hw : s.status.outWait = true) :
    BitqLegal { s with status.outWait := false, sink := s.sink ++ [s.outHold], atCut := true } :=
  { h with settled := .inl (h.le_of_cut (inCoreStep_of_port (.inr hw))) }

theorem BitqLegal.release {s : State} (h : BitqLegal s) : BitqLegal (resetRelease s) :=
  { h with settled := h.settled.imp_right fun ⟨hc, hr⟩ => ⟨inCoreStep_resetRelease hc, hr⟩ }

/-- Settles O48: each kind of move of a step keeps the bit queue legal in a state whose control is. -/
theorem bitqLegalIsKept : Obligations.BitqLegalIsKept := fun _ _ hs hb e =>
  (step_keeps (P := fun s => ControlLegal s ∧ BitqLegal s)
    (schedule := fun _ _ ⟨hs, hb⟩ => ⟨{ hs with }, { hb with }⟩)
    (core := fun s _ ⟨hs, hb⟩ hc hm =>
      have hs' : ControlLegal { s with atCut := false } := { hs with }
      have ⟨hin, hb'⟩ := hb.enterStep hc
      ⟨hm.legal hs' hc, (hm.reader (hs'.running hc).stage).bitqLegal hb' hin⟩)
    (host := fun _ _ _ _ ⟨hs, hb⟩ => ⟨{ hs with }, { hb with }⟩)
    (command := fun _ _ _ ⟨hs, hb⟩ hres hq hm => ⟨hm.legal hs hres, hm.bitqLegal hs hb hq⟩)
    (ctrl := fun _ _ ⟨hs, hb⟩ => ⟨{ hs with }, { hb with }⟩)
    (arg := fun _ _ ⟨hs, hb⟩ => ⟨{ hs with }, { hb with }⟩)
    (source := fun _ a rest ⟨hs, hb⟩ hw _ => ⟨hs.source hw a rest, hb.source hw a rest⟩)
    (sink := fun _ ⟨hs, hb⟩ hw => ⟨hs.sink hw, hb.sink hw⟩)
    (assert := fun s _ => ⟨resetAssert_legal s, bitqLegal_of_closed nofun rfl rfl (Nat.zero_le _)⟩)
    (release := fun _ ⟨hs, hb⟩ => ⟨{ hs with reset_idle := nofun }, hb.release⟩)
    ⟨hs, hb⟩ e).2

end Sys2Proof.Machine

/-! Move-to-front (spec/10_state.md R58, spec/42_mtf.md R130, R131): LIT_MTF and SEL_MTF are set to the identity, and else
only promoted, so they stay permutations of 0..255. -/

namespace Sys2Proof.Machine

/-! ## Elements -/

/-- A promoted permutation is one. -/
theorem promote_identity {name : Config.MemName} {m : List Byte} (h : m.Perm identityMtf) (k : Nat) :
    (promote name m k).2.Perm identityMtf := (promote_perm name m k).trans h

/-- An operation that branches keeps the permutations when both its branches do. -/
theorem MtfPermutations.ite {c : Prop} [Decidable c] {x y : State} (hx : MtfPermutations x) (hy : MtfPermutations y) :
    MtfPermutations (if c then x else y) := iteInduction (fun _ => hx) (fun _ => hy)

section
variable {s : State} (h : MtfPermutations s)
include h

theorem toRange_mtf (i : Nat) : MtfPermutations (toRange i s) := by
  unfold toRange
  split
  · exact h
  · exact .ite h h

theorem flushRun_mtf : MtfPermutations (flushRun s) := by
  rcases flushRun_cases s with ⟨-, e⟩ | ⟨-, v, -, e⟩ <;> rw [e] <;> exact h

/-- LIT promotes LIT_MTF (R185). -/
theorem literal_mtf (v : BitVec 9) : MtfPermutations (literal v s) := .ite h ⟨promote_identity h.1 _, h.2⟩

/-- Entering DECODE_MTF_RLE2 sets LIT_MTF to the identity (R180); building the tables leaves both lists. -/
theorem enterDecode_mtf : MtfPermutations (enterDecode (huffBuildAll s)) := by
  obtain ⟨mn, mx, ba, li, pe, e⟩ := huffBuildAll_eq s
  rw [e]
  exact ⟨.refl _, h.2⟩

/-- SELECTOR_MTF promotes SEL_MTF (R152). -/
theorem execSelectorMtf_mtf {r : Nat} {t : State} (e : execSelectorMtf r s = .next t) : MtfPermutations t := by
  unfold execSelectorMtf at e
  split at e <;> injection e with e <;> subst e
  · exact h
  · have hp : (promote .selMtf s.selMtf r).2.Perm identityMtf := promote_identity h.2 r
    exact .ite ⟨h.1, hp⟩ ⟨h.1, hp⟩

/-- Every instruction keeps the permutations. -/
theorem exec_mtf {i : Instr} {t : State} (e : exec i s = .next t) : MtfPermutations t := by
  cases i
  case selectorMtf r => exact execSelectorMtf_mtf h e
  case levelDigit d =>
    simp only [exec, execLevelDigit] at e
    split at e <;> injection e with e <;> subst e <;> exact h
  all_goals injection e with e; subst e
  case nSelectors n => exact .ite h ⟨h.1, .refl _⟩
  case clDeltaEnd => exact .ite h (.ite h (enterDecode_mtf h))
  case lit v => exact literal_mtf (flushRun_mtf h) v
  case usedRanges u => exact toRange_mtf (s := { s with loop.used16 := u, symMap := [] }) h 0
  case usedSub u => exact toRange_mtf (s := { s with symMap := s.symMap ++ rangeBytes s.loop.rangeIdx u }) h _
  case eob => exact .ite (flushRun_mtf h) (flushRun_mtf h)
  case softReset => exact ⟨.refl _, .refl _⟩
  case clearError | readBits | decodeBlock | checkStreamCrc | clearStreamCrc | randomised | nTables | huffmanCodeword
    | runA | runB => exact .ite h h
  all_goals exact h

/-! ## The other moves -/

/-- Every move of the core keeps the permutations: beside the elements none touches the lists. -/
theorem CoreMove.mtf {t : State} (m : CoreMove s t) : MtfPermutations t := by
  cases m with
  | element slot n i _ _ _ _ _ _ he => exact exec_mtf (s := { consume n s with loop.elem := [] }) h he
  | symbol i _ _ _ _ he => exact exec_mtf h he
  | checkCrc => exact .ite (.ite h h) h
  | blockEntry | startSymbol | doneCheck => exact .ite h h
  | extract => rcases extractTurn_cases s with ⟨-, e⟩ | ⟨-, -, e⟩ | ⟨-, -, e⟩ <;> rw [e] <;> exact h
  | repeatTurn => rcases repeatTurn_cases s with ⟨-, e⟩ | ⟨n, -, e⟩ <;> rw [e] <;> exact h
  | _ => exact h

theorem CommandMove.mtf {w : Word} {t : State} (m : CommandMove w s t) : MtfPermutations t := by
  cases m with
  | softReset => exact ⟨.refl _, .refl _⟩
  | _ => exact h

end

/-- Settles O49: each kind of move of a step keeps the permutations. -/
theorem mtfPermutationsAreKept : Obligations.MtfPermutationsAreKept := fun _ _ hs e =>
  step_keeps (P := MtfPermutations)
    (schedule := fun _ _ h => h)
    (core := fun s _ h _ m => CoreMove.mtf (s := { s with atCut := false }) h m)
    (host := fun _ _ _ _ h => h)
    (command := fun _ _ _ h _ _ m => m.mtf h)
    (ctrl := fun _ _ h => h)
    (arg := fun _ _ h => h)
    (source := fun _ _ _ h _ _ => h)
    (sink := fun _ h _ => h)
    (assert := fun _ _ => ⟨.refl _, .refl _⟩)
    (release := fun _ h => h)
    hs e

end Sys2Proof.Machine

/-! The register window (spec/10_state.md section 1, spec/20_memory.md R71, R72): what a legal access reads and writes. -/

namespace Sys2Proof.Machine

/-! ## Reads -/

/-- A register reads as its word: a result register while no command runs, any other in any case (R52). -/
theorem hostAccess_read_word {s : State} {a : Nat} {r : Reg} (hres : s.inReset = false) (hl : legalAccess a 4 = true)
    (ha : regAt a = r) (hf : s.status.busy = false ∨ undefinedWhileBusy r = false) :
    hostAccess (.read a 4) s = .next { s with bus := .data (regWord s r) } := by
  have hfree : readsFree r s = false := by rcases hf with h | h <;> simp [readsFree, h]
  simp [hostAccess, hostRead, hl, ha, readValue, hres, hfree]

/-- A result register read while a command runs gives some value and counts the read (R52; log 6). -/
theorem hostAccess_read_free {s : State} {a : Nat} {r : Reg} (hres : s.inReset = false) (hl : legalAccess a 4 = true)
    (ha : regAt a = r) (hu : undefinedWhileBusy r = true) (hb : s.status.busy = true) :
    ∃ w, hostAccess (.read a 4) s = .next { s with bus := .data w, freeCount := s.freeCount + 1 } := by
  have hfree : readsFree r s = true := by simp [readsFree, hb, hu, hres]
  exact ⟨Config.busyRead s.freeCount, by simp [hostAccess, hostRead, hl, ha, readValue, hres, hfree]⟩

/-- The offsets above SYM_COUNT are reserved (R51). -/
theorem regAt_reserved {a : Nat} (h : 0x48 ≤ a) : regAt a = .reserved := by
  unfold regAt
  split <;> first | omega | rfl

/-- The registers that read the same whether or not a command runs, by their offsets (R20). -/
def plainRegs : List (Nat × Reg) :=
  [(0x00, .id), (0x04, .ctrl), (0x08, .cmd), (0x0C, .status), (0x10, .err), (0x14, .arg)]

/-- The result registers, by their offsets (R20). -/
def resultRegs : List (Nat × Reg) :=
  [(0x18, .result), (0x1C, .expectedCrc), (0x20, .computedCrc), (0x24, .streamCrc), (0x28, .origPtr), (0x2C, .bwtLen),
   (0x30, .outCount), (0x34, .bitCount), (0x38, .blockCount), (0x3C, .tableInfo), (0x40, .nSelectors),
   (0x44, .symCount)]

theorem plainRegs_spec :
    ∀ e ∈ plainRegs, legalAccess e.1 4 = true ∧ regAt e.1 = e.2 ∧ undefinedWhileBusy e.2 = false := by decide

theorem resultRegs_spec :
    ∀ e ∈ resultRegs, legalAccess e.1 4 = true ∧ regAt e.1 = e.2 ∧ undefinedWhileBusy e.2 = true := by decide

/-- Settles O13: each offset's register by the two tables, and a read of it by what a read of its kind gives. -/
theorem registerWindowReads : Obligations.RegisterWindowReads := by
  intro s hres
  refine ⟨fun a v h => ?_, fun a h1 h2 h3 => ?_, fun a v h => ?_⟩
  · have h' : (a, v) ∈ plainRegs.map fun e => (e.1, regWord s e.2) := h
    obtain ⟨⟨a, r⟩, he, heq⟩ := List.mem_map.1 h'
    obtain ⟨rfl, rfl⟩ := Prod.mk.inj heq
    obtain ⟨hl, hr, hu⟩ := plainRegs_spec _ he
    exact hostAccess_read_word hres hl hr (.inr hu)
  · have hl : legalAccess a 4 = true := by simp [legalAccess, Config.windowBytes]; omega
    exact hostAccess_read_word hres hl (regAt_reserved h1) (.inr rfl)
  · have h' : (a, v) ∈ resultRegs.map fun e => (e.1, regWord s e.2) := h
    obtain ⟨⟨a, r⟩, he, heq⟩ := List.mem_map.1 h'
    obtain ⟨rfl, rfl⟩ := Prod.mk.inj heq
    obtain ⟨hl, hr, hu⟩ := resultRegs_spec _ he
    exact ⟨fun hb => hostAccess_read_word hres hl hr (.inl hb), hostAccess_read_free hres hl hr hu⟩

/-! ## The fields of STATUS and ERR -/

/-- The eight flags of STATUS (R27 to R34). -/
theorem statusWord_flags (s : State) :
    (statusWord s).getLsbD 0 = s.status.busy ∧ (statusWord s).getLsbD 1 = s.status.done
    ∧ (statusWord s).getLsbD 2 = errFlag s ∧ (statusWord s).getLsbD 3 = s.status.rejected
    ∧ (statusWord s).getLsbD 4 = s.status.scrcMismatch ∧ (statusWord s).getLsbD 5 = s.status.inEos
    ∧ (statusWord s).getLsbD 6 = s.status.inWait ∧ (statusWord s).getLsbD 7 = s.status.outWait := by
  simp only [statusWord, BitVec.getLsbD_append, BitVec.getLsbD_ofBool]
  simp

/-- STATE, BITQ_LEN and the reserved bits of STATUS (R26, R35, R36). -/
theorem statusWord_fields (s : State) :
    (statusWord s).extractLsb' 8 4 = s.stage.code ∧ (statusWord s).extractLsb' 12 5 = BitVec.ofNat 5 s.bitq.length
    ∧ (statusWord s).extractLsb' 17 15 = 0 := by
  simp (disch := decide) only [statusWord, BitVec.extractLsb'_append_eq_of_le, BitVec.extractLsb'_append_eq_of_add_le]
  simp only [Nat.reduceSub, BitVec.extractLsb'_eq_self, and_self]

/-- The fields of ERR and its reserved bits (R37). -/
theorem errWord_fields (s : State) :
    (errWord s).extractLsb' 0 4 = s.err.kind.code ∧ (errWord s).extractLsb' 4 4 = 0
    ∧ (errWord s).extractLsb' 8 8 = s.err.cause.code ∧ (errWord s).extractLsb' 16 4 = s.err.stage.code
    ∧ (errWord s).extractLsb' 20 12 = 0 := by
  simp (disch := decide) only [errWord, BitVec.extractLsb'_append_eq_of_le, BitVec.extractLsb'_append_eq_of_add_le]
  simp only [Nat.reduceSub, BitVec.extractLsb'_eq_self, and_self]

/-- Settles O14: each flag and field by its place in the word, each code by its row of the table. -/
theorem statusAndErrFields : Obligations.StatusAndErrFields := by
  rintro s stages kinds causes rfl rfl rfl
  obtain ⟨hbusy, hdone, herr, hrej, hscrc, heos, hin, hout⟩ := statusWord_flags s
  obtain ⟨hstate, hlen, hres⟩ := statusWord_fields s
  obtain ⟨hkind, hlow, hcause, hstage, hhigh⟩ := errWord_fields s
  refine ⟨hbusy, hdone, herr, hrej, hscrc, heos, hin, hout, ?_, fun hl => ?_, hres, ?_, hlow, ?_, ?_, hhigh⟩
  · rw [hstate]
    cases s.stage <;> decide
  · rw [hlen, BitVec.toNat_ofNat]
    omega
  · rw [hkind]
    cases s.err.kind <;> decide
  · rw [hcause]
    cases s.err.cause <;> decide
  · rw [hstage]
    cases s.err.stage <;> decide

/-! ## Writes -/

/-- A legal write to a register other than CMD is answered, and does what such a write does (spec/20_memory.md R72). -/
theorem hostAccess_write_plain {a : Nat} {r : Reg} (v : Word) (s : State) (hl : legalAccess a 4 = true)
    (ha : regAt a = r) (hr : r ≠ .cmd) :
    hostAccess (.write a 4 v) s = .next { writePlainReg r v s with bus := .written } := by
  simp [hostAccess, hostWrite, hl, ha, hr]

/-- CTRL keeps the six bits of its fields and reads the others as 0 (R22 to R25). -/
theorem ctrlWord_writeCtrl (v : Word) (s : State) : ctrlWord (writeCtrl v s) = v &&& 0x3F := by
  apply BitVec.eq_of_getLsbD_eq
  intro i hi
  simp only [ctrlWord, writeCtrl_ctrl, BitVec.getLsbD_append, BitVec.getLsbD_and, BitVec.getLsbD_ofBool,
    BitVec.getLsbD_extractLsb']
  interval_cases i <;> simp

/-- Settles O15: the write of each register, and the read of the word it holds behind it. -/
theorem ctrlAndArgWritesReadBack : Obligations.CtrlAndArgWritesReadBack := by
  intro v s hres
  have hctrl : writePlainReg .ctrl v s = writeCtrl v s := by simp [writePlainReg, hres]
  have harg : writePlainReg .arg v s = writeArg v s := by simp [writePlainReg, hres]
  have hreadCtrl := hostAccess_read_word (s := { writeCtrl v s with bus := .written }) (a := 0x04) (r := .ctrl) hres rfl
    rfl (.inr rfl)
  have hreadArg := hostAccess_read_word (s := { writeArg v s with bus := .written }) (a := 0x14) (r := .arg) hres rfl
    rfl (.inr rfl)
  refine ⟨{ writeCtrl v s with bus := .written }, { writeArg v s with bus := .written }, ?_, rfl, rfl, rfl, rfl, ?_, ?_,
    rfl, hreadArg⟩
  · rw [← hctrl]
    exact hostAccess_write_plain v s rfl rfl (by decide)
  · rw [← ctrlWord_writeCtrl v s]
    exact hreadCtrl
  · rw [← harg]
    exact hostAccess_write_plain v s rfl rfl (by decide)

end Sys2Proof.Machine

/-! The accesses that change no state of the hardware (spec/20_memory.md R71, R72): reads, illegal accesses, and writes
anywhere but at CTRL, CMD and ARG. -/

namespace Sys2Proof.Machine

theorem legalAccess_iff (a width : Nat) : legalAccess a width = true ↔ width = 4 ∧ a % 4 = 0 ∧ a < 0x80 :=
  decide_eq_true_iff

theorem hostAccess_read_illegal {a width : Nat} (h : ¬ legalAccess a width = true) (s : State) :
    hostAccess (.read a width) s = .next { s with bus := .busError } := by
  simp only [hostAccess, hostRead, if_neg h]

theorem hostAccess_write_illegal {a width : Nat} (h : ¬ legalAccess a width = true) (v : Word) (s : State) :
    hostAccess (.write a width v) s = .next { s with bus := .busError } := by
  simp only [hostAccess, hostWrite, if_neg h]

/-- Settles O12: R71's conditions are those of a legal access. -/
theorem illegalAccessGetsBusError : Obligations.IllegalAccessGetsBusError := by
  intro a width v s h
  have hl : ¬ legalAccess a width = true := mt (legalAccess_iff a width).1 h
  exact ⟨hostAccess_read_illegal hl s, hostAccess_write_illegal hl v s⟩

/-- CTRL and ARG are at their offsets and nowhere else (spec/10_state.md R20). -/
theorem regAt_ne_of_offset_ne {a : Nat} (hctrl : a ≠ 0x04) (harg : a ≠ 0x14) :
    regAt a ≠ .ctrl ∧ regAt a ≠ .arg := by
  unfold regAt
  split <;> simp at hctrl harg ⊢

/-- Away from CTRL and ARG a write to a register changes nothing, reset asserted or not. -/
theorem writePlainReg_of_ne {r : Reg} (hc : r ≠ .ctrl) (ha : r ≠ .arg) (v : Word) (s : State) :
    writePlainReg r v s = s := by
  rcases writePlainReg_cases r v s with h | ⟨-, h, -⟩ | ⟨-, h, -⟩
  · exact h
  · exact absurd h hc
  · exact absurd h ha

/-- Settles O16: a read by what every read changes; a write by whether it is legal, and then by its register. -/
theorem onlyThreeWritesHaveEffect : Obligations.OnlyThreeWritesHaveEffect := by
  intro a width v s
  constructor
  · obtain ⟨b, f, h⟩ := hostRead_eq a width s
    exact ⟨b, f, congrArg Host.Outcome.next h⟩
  · intro hctrl hcmd harg
    by_cases hl : legalAccess a width = true
    · obtain ⟨rfl, -, -⟩ := (legalAccess_iff a width).1 hl
      obtain ⟨hc, ha⟩ := regAt_ne_of_offset_ne hctrl harg
      refine ⟨.written, ?_⟩
      rw [hostAccess_write_plain v s hl rfl (mt regAt_eq_cmd hcmd), writePlainReg_of_ne hc ha]
    · exact ⟨.busError, hostAccess_write_illegal hl v s⟩

end Sys2Proof.Machine

/-! The canonical form of the internal memories (spec/20_memory.md R79 to R82; log 5): they are changed by writes and
fills only, or set to the memories that list nothing. -/

namespace Sys2Proof.Machine

/-! ## Elements -/

theorem unspecified_canonical : MemoriesCanonical Mems.unspecified := by constructor <;> exact memory_wf_nil

/-- An operation that branches keeps the canonical form when both its branches do. -/
theorem MemoriesCanonical.ite {c : Prop} [Decidable c] {x y : State} (hx : MemoriesCanonical x.mem)
    (hy : MemoriesCanonical y.mem) : MemoriesCanonical (if c then x else y).mem :=
  iteInduction (motive := fun u : State => MemoriesCanonical u.mem) (fun _ => hx) (fun _ => hy)

section
variable {s : State} (h : MemoriesCanonical s.mem)
include h

theorem toRange_canonical (i : Nat) : MemoriesCanonical (toRange i s).mem := by
  unfold toRange
  split
  · exact h
  · exact .ite h h

/-- LIT writes one byte of the buffer and counts it (R185, R186). -/
theorem literal_canonical (v : BitVec 9) : MemoriesCanonical (literal v s).mem :=
  .ite h { h with byteCount := memWrite_wf _ _ h.byteCount, bwt := memWrite_wf _ _ h.bwt }

/-- Entering DECODE_MTF_RLE2 clears BYTECOUNT (R180). -/
theorem enterDecode_canonical : MemoriesCanonical (enterDecode s).mem :=
  { h with byteCount := memFill_wf _ _ _ h.byteCount }

/-- SELECTOR_MTF writes one selector (R153). -/
theorem execSelectorMtf_canonical {r : Nat} {t : State} (e : execSelectorMtf r s = .next t) :
    MemoriesCanonical t.mem := by
  unfold execSelectorMtf at e
  split at e <;> injection e with e <;> subst e
  · exact h
  · exact .ite { h with sel := memWrite_wf _ _ h.sel } { h with sel := memWrite_wf _ _ h.sel }

/-- The end of a code length writes it; behind the last one the tables are built (R154, R156). -/
theorem execClDeltaEnd_canonical {t : State} (e : execClDeltaEnd s = .next t) : MemoriesCanonical t.mem := by
  have hlen (c : BitVec 5) (k : Nat) : MemoriesCanonical { s.mem with len := memWrite s.mem.len k c } :=
    { h with len := memWrite_wf _ _ h.len }
  injection e with e
  subst e
  exact .ite (hlen _ _) (.ite (hlen _ _) (enterDecode_canonical (huffBuildAll_canonical (hlen _ _))))

/-- Every instruction keeps the canonical form. -/
theorem exec_canonical {i : Instr} {t : State} (e : exec i s = .next t) : MemoriesCanonical t.mem := by
  cases i
  case selectorMtf r => exact execSelectorMtf_canonical h e
  case clDeltaEnd => exact execClDeltaEnd_canonical h e
  case levelDigit d =>
    simp only [exec, execLevelDigit] at e
    split at e <;> injection e with e <;> subst e <;> exact h
  all_goals injection e with e; subst e
  case lit v => exact literal_canonical (flushRun_canonical h) v
  case eob => exact .ite (flushRun_canonical h) (flushRun_canonical h)
  case usedRanges u => exact toRange_canonical (s := { s with loop.used16 := u, symMap := [] }) h 0
  case usedSub u => exact toRange_canonical (s := { s with symMap := s.symMap ++ rangeBytes s.loop.rangeIdx u }) h _
  case softReset => exact unspecified_canonical
  case clearError | readBits | decodeBlock | checkStreamCrc | clearStreamCrc | randomised | nTables | nSelectors
    | huffmanCodeword | runA | runB => exact .ite h h
  all_goals exact h

/-! ## The other moves -/

/-- BUILD_BUCKET_ARRAY writes CHARBASE and BUCKET (R195, R196). -/
theorem buildBuckets_canonical : MemoriesCanonical (buildBuckets s).mem :=
  { h with charBase := (fillBuckets_wf h).1, bucket := (fillBuckets_wf h).2 }

/-- Every move of the core keeps the canonical form: beside the elements only BUILD_BUCKET_ARRAY writes a memory. -/
theorem CoreMove.canonical {t : State} (m : CoreMove s t) : MemoriesCanonical t.mem := by
  cases m with
  | element slot n i _ _ _ _ _ _ he => exact exec_canonical (s := { consume n s with loop.elem := [] }) h he
  | symbol i _ _ _ _ he => exact exec_canonical h he
  | buckets => exact buildBuckets_canonical h
  | checkCrc => exact .ite (.ite h h) h
  | blockEntry | startSymbol | doneCheck => exact .ite h h
  | extract => rcases extractTurn_cases s with ⟨-, e⟩ | ⟨-, -, e⟩ | ⟨-, -, e⟩ <;> rw [e] <;> exact h
  | repeatTurn => rcases repeatTurn_cases s with ⟨-, e⟩ | ⟨n, -, e⟩ <;> rw [e] <;> exact h
  | _ => exact h

theorem CommandMove.canonical {w : Word} {t : State} (m : CommandMove w s t) : MemoriesCanonical t.mem := by
  cases m with
  | softReset => exact unspecified_canonical
  | _ => exact h

end

/-- Settles O46: each kind of move of a step keeps the canonical form. -/
theorem canonicalMemoriesAreKept : Obligations.CanonicalMemoriesAreKept := fun _ _ hs e =>
  step_keeps (P := fun s => MemoriesCanonical s.mem)
    (schedule := fun _ _ h => h)
    (core := fun s _ h _ m => CoreMove.canonical (s := { s with atCut := false }) h m)
    (host := fun _ _ _ _ h => h)
    (command := fun _ _ _ h _ _ m => m.canonical h)
    (ctrl := fun _ _ h => h)
    (arg := fun _ _ h => h)
    (source := fun _ _ _ h _ _ => h)
    (sink := fun _ h _ => h)
    (assert := fun _ _ => unspecified_canonical)
    (release := fun _ h => h)
    hs e

end Sys2Proof.Machine

/-! The queues of the two ports (spec/20_memory.md R73, R75, spec/70_reset_and_hazards.md R282, R283): only a port's own
transaction moves its queue, by one element. -/

namespace Sys2Proof.Machine

/-- Both ports' queues stay. -/
structure QueuesStill (s t : State) : Prop where
  source : t.source = s.source
  sink : t.sink = s.sink

/-- No command word moves a queue, not even SOFT_RESET (R273). -/
theorem CommandMove.queues {w : Word} {s t : State} (h : CommandMove w s t) : QueuesStill s t := by
  cases h <;> exact ⟨rfl, rfl⟩

/-- The host reaches the ports by command words only, so it moves no queue. -/
theorem HostMove.queues {words : Word → Prop} {s t : State} (h : HostMove words s t) : QueuesStill s t := by
  cases h with
  | command h b w _ _ _ ho =>
    have hq : QueuesStill { s with host := h, bus := b } t := (offerCommand_move ho).queues
    exact ⟨hq.source, hq.sink⟩
  | quiet | ctrl | arg => exact ⟨rfl, rfl⟩

/-- Settles O55: the answer of the source and the acceptance of the sink by what each does; every other move leaves both
queues. -/
theorem portsMoveOneByteAtATime : Obligations.PortsMoveOneByteAtATime := by
  intro s s' e
  cases step_move e with
  | pass | resetAssert | resetRelease => exact ⟨.inl rfl, .inl rfl⟩
  | core r _ _ h => exact ⟨.inl (coreStep_others h).source, .inl (coreStep_others h).sink⟩
  | access a r _ _ _ h | procedure r _ _ h => exact ⟨.inl h.queues.source, .inl h.queues.sink⟩
  | source r =>
    rcases sourceAnswer_cases { s with schedule := r } with h | ⟨a, rest, hw, hs, h⟩ <;> rw [h]
    · exact ⟨.inl rfl, .inl rfl⟩
    · exact ⟨.inr ⟨a, hs, hw, rfl, rfl, rfl⟩, .inl rfl⟩
  | sink r =>
    rcases sinkAccept_cases { s with schedule := r } with h | ⟨hw, h⟩ <;> rw [h]
    · exact ⟨.inl rfl, .inl rfl⟩
    · exact ⟨.inl rfl, .inr ⟨rfl, hw, rfl⟩⟩

end Sys2Proof.Machine

/-! Decoding undoes encoding (spec/30_encoding.md R90 to R100), and every legal instruction has a place to stand. -/

namespace Sys2Proof

/-! ## The round trip -/

/-- The round trip of any instruction: its constructor's own. -/
theorem roundTrip (i : Instr) : Laws.RoundTrip.Statement i := by
  cases i with
  | nop => exact Laws.RoundTrip.nop
  | softReset => exact Laws.RoundTrip.softReset
  | clearError => exact Laws.RoundTrip.clearError
  | readBits n => exact Laws.RoundTrip.readBits n
  | decodeBlock => exact Laws.RoundTrip.decodeBlock
  | checkStreamCrc => exact Laws.RoundTrip.checkStreamCrc
  | clearStreamCrc => exact Laws.RoundTrip.clearStreamCrc
  | streamMagic => exact Laws.RoundTrip.streamMagic
  | levelDigit d => exact Laws.RoundTrip.levelDigit d
  | blockMagic => exact Laws.RoundTrip.blockMagic
  | eosMagic => exact Laws.RoundTrip.eosMagic
  | streamCrc c => exact Laws.RoundTrip.streamCrc c
  | blkCrcHi c => exact Laws.RoundTrip.blkCrcHi c
  | blkCrcLo c => exact Laws.RoundTrip.blkCrcLo c
  | randomised flag => exact Laws.RoundTrip.randomised flag
  | origPtr p => exact Laws.RoundTrip.origPtr p
  | usedRanges u => exact Laws.RoundTrip.usedRanges u
  | usedSub u => exact Laws.RoundTrip.usedSub u
  | nTables t => exact Laws.RoundTrip.nTables t
  | nSelectors n => exact Laws.RoundTrip.nSelectors n
  | selectorMtf r => exact Laws.RoundTrip.selectorMtf r
  | clStart l => exact Laws.RoundTrip.clStart l
  | clDeltaEnd => exact Laws.RoundTrip.clDeltaEnd
  | clDeltaInc => exact Laws.RoundTrip.clDeltaInc
  | clDeltaDec => exact Laws.RoundTrip.clDeltaDec
  | huffmanCodeword h => exact Laws.RoundTrip.huffmanCodeword h
  | runA => exact Laws.RoundTrip.runA
  | runB => exact Laws.RoundTrip.runB
  | lit v => exact Laws.RoundTrip.lit v
  | eob => exact Laws.RoundTrip.eob

/-! ## A slot for every legal instruction -/

/-- A slot that has room for every legal value of the instruction's operand: as many tables and used symbols as the
format allows (R97, R100), and a table whose codewords all have the codeword's length, where a codeword ends in any case
(R99). -/
def Instr.homeSlot : Instr → Slot
  | .nop | .softReset | .clearError | .readBits _ | .decodeBlock | .checkStreamCrc | .clearStreamCrc => .command
  | .streamMagic => .streamMagic
  | .levelDigit _ => .levelDigit
  | .blockMagic | .eosMagic => .blockOrEosMagic
  | .streamCrc _ => .streamCrc
  | .blkCrcHi _ => .blkCrcHi
  | .blkCrcLo _ => .blkCrcLo
  | .randomised _ => .randomised
  | .origPtr _ => .origPtr
  | .usedRanges _ => .usedRanges
  | .usedSub _ => .usedSub
  | .nTables _ => .nTables
  | .nSelectors _ => .nSelectors
  | .selectorMtf _ => .selectorMtf Config.maxTables
  | .clStart _ => .clStart
  | .clDeltaEnd | .clDeltaInc | .clDeltaDec => .clDelta
  | .huffmanCodeword h => .huffmanCodeword h.length h.length []
  | .runA | .runB | .lit _ | .eob => .symbol 256

/-- Only a selector's rank and a literal need to be legal: every other operand fits at every value. -/
theorem admits_homeSlot {i : Instr} (hi : i.wellFormed = true) : i.homeSlot.admits i = true := by
  cases i with
  | selectorMtf r => exact hi
  | lit s => exact hi
  | huffmanCodeword h => exact decide_eq_true ⟨le_rfl, .inr le_rfl⟩
  | _ => rfl

/-- Settles O44: the round trip of each constructor, and the home slot of each legal instruction. -/
theorem encodingRoundTrips : Obligations.EncodingRoundTrips :=
  ⟨roundTrip, fun i hi => ⟨i.homeSlot, admits_homeSlot hi⟩⟩

/-- Settles O43: the decoder run on each word. -/
theorem wordsDecodeAsTheTablesSay : Obligations.WordsDecodeAsTheTablesSay :=
  ⟨rfl, rfl, rfl, rfl, rfl, rfl, rfl, rfl, rfl, rfl⟩

end Sys2Proof

/-! Rejected command words (spec/30_encoding.md R92, spec/48_host_commands.md R215, R216): an undefined word either does
not decode or is a READ_BITS whose count no acceptance takes. -/

namespace Sys2Proof.Machine

open Host (Outcome)

/-! ## Undefined words -/

/-- The undefined words (R92), by the fields of R90. -/
def UndefinedWord (w : Word) : Prop :=
  reservedOf w ≠ 0
    ∨ opcodeOf w ∉ [0x00#8, 0x01#8, 0x02#8, 0x10#8, 0x20#8, 0x30#8, 0x31#8]
    ∨ (countOf w ≠ 0 ∧ opcodeOf w ≠ 0x10)
    ∨ (opcodeOf w = 0x10 ∧ ((countOf w).toNat = 0 ∨ 32 < (countOf w).toNat))

/-- A word of the table other than READ_BITS is defined when N and RSVD are 0. -/
theorem not_undefinedWord {w : Word} (hr : reservedOf w = 0) (hc : countOf w = 0)
    (ho : opcodeOf w ∈ [0x00#8, 0x01#8, 0x02#8, 0x20#8, 0x30#8, 0x31#8]) : ¬ UndefinedWord w := by
  have hsub : [0x00#8, 0x01#8, 0x02#8, 0x20#8, 0x30#8, 0x31#8]
      ⊆ [0x00#8, 0x01#8, 0x02#8, 0x10#8, 0x20#8, 0x30#8, 0x31#8] := by decide
  rintro (h | h | ⟨h, -⟩ | ⟨h, -⟩)
  · exact h hr
  · exact h (hsub ho)
  · exact h hc
  · exact absurd (h ▸ ho) (by decide)

/-- A READ_BITS word with RSVD = 0 is undefined by its count alone (R92). -/
theorem count_of_undefinedWord {w : Word} (h : UndefinedWord w) (hr : reservedOf w = 0) (ho : opcodeOf w = 0x10) :
    ¬ (1 ≤ (countOf w).toNat ∧ (countOf w).toNat ≤ 32) := by
  rcases h with h | h | ⟨-, h⟩ | ⟨-, h⟩
  · exact absurd hr h
  · rw [ho] at h
    exact absurd (by decide) h
  · exact absurd ho h
  · omega

/-- The only undefined words that decode are those of READ_BITS with a count outside 1..32 (log 14). -/
theorem decodeCommand_undefinedWord {w : Word} {i : Instr} (h : UndefinedWord w) (hd : decodeCommand w = .ok i) :
    ∃ n, i = .readBits n ∧ ¬ (1 ≤ n.toNat ∧ n.toNat ≤ 32) := by
  obtain ⟨hr, hc⟩ := decodeCommand_ok hd
  have hno (hn : countOf w = 0) {o : BitVec 8} (ho : opcodeOf w = o)
      (hm : o ∈ [0x00#8, 0x01#8, 0x02#8, 0x20#8, 0x30#8, 0x31#8]) : False :=
    not_undefinedWord hr hn (ho ▸ hm) h
  rcases hc with ⟨ho, hn, -⟩ | ⟨ho, hn, -⟩ | ⟨ho, hn, -⟩ | ⟨ho, rfl⟩ | ⟨ho, hn, -⟩ | ⟨ho, hn, -⟩ | ⟨ho, hn, -⟩
  case inr.inr.inr.inl => exact ⟨countOf w, rfl, count_of_undefinedWord h hr ho⟩
  all_goals exact (hno hn ho (by decide)).elim

/-! ## Rejection -/

theorem exec_readBits_of_count {n : BitVec 8} (h : ¬ (1 ≤ n.toNat ∧ n.toNat ≤ 32)) (s : State) :
    exec (.readBits n) s = .next (reject s) :=
  congrArg Outcome.next (if_neg (by simp [h]))

/-- Undefined words are rejected in any state (R92). -/
theorem offerCommand_undefinedWord {w : Word} (h : UndefinedWord w) (s : State) :
    offerCommand w s = .next (reject s) := by
  unfold offerCommand
  split
  · next i hd =>
    obtain ⟨n, rfl, hn⟩ := decodeCommand_undefinedWord h hd
    exact exec_readBits_of_count hn s
  · rfl

/-- Outside reset the host's write to CMD offers the word (R26, R270). -/
theorem hostAccess_write_cmd {s : State} (hres : s.inReset = false) (w : Word) :
    hostAccess (.write 0x08 4 w) s = offerCommand w { s with bus := .written } :=
  if_pos ⟨rfl, hres⟩

/-- A running command or a recorded error keeps the core from being ready (R215). -/
theorem not_ready {s : State} (h : s.status.busy = true ∨ s.err.kind ≠ .none) : ¬ ready s = true := by
  rw [ready_iff]
  rintro ⟨hb, hk⟩
  rcases h with h | h
  · rw [hb] at h
    cases h
  · exact h hk

/-- The commands that need a ready core are rejected without one (R215, R216). -/
theorem exec_of_not_ready {s : State} (h : ¬ ready s = true) (n : BitVec 8) :
    exec (.readBits n) s = .next (reject s) ∧ exec .decodeBlock s = .next (reject s)
      ∧ exec .checkStreamCrc s = .next (reject s) ∧ exec .clearStreamCrc s = .next (reject s) :=
  ⟨congrArg Outcome.next (if_neg (by simp [h])), congrArg Outcome.next (if_neg h), congrArg Outcome.next (if_neg h),
    congrArg Outcome.next (if_neg h)⟩

/-- CLEAR_ERROR is rejected while busy (R215, R219). -/
theorem exec_clearError_of_busy {s : State} (h : s.status.busy = true) : exec .clearError s = .next (reject s) :=
  congrArg Outcome.next (if_pos h)

/-- Settles O4: undefined words by what decodes of them, failed conditions by each command's own. -/
theorem rejectedWordsOnlySetRejected : Obligations.RejectedWordsOnlySetRejected := by
  refine ⟨fun w s h => ?_, fun s n => ⟨exec_clearError_of_busy, fun h => exec_of_not_ready (not_ready h) n⟩⟩
  have hw : UndefinedWord w := h
  refine ⟨offerCommand_undefinedWord hw s, fun hres => ⟨.written, ?_⟩⟩
  rw [hostAccess_write_cmd hres]
  exact offerCommand_undefinedWord hw _

end Sys2Proof.Machine

/-! The bit cursor (spec/40_bitreader.md R110 to R112, R115 to R117): what moves BITQ and BIT_COUNT, and when a byte is
asked for. No premise about the state is needed: an element leaves both where its fetch has put them. -/

namespace Sys2Proof.Machine

/-- Settles O9: the core uses the EOS it holds by raising EndOfStream. -/
theorem endOfStreamConsumesNothing : Obligations.EndOfStreamConsumesNothing := fun _ h => coreStep_of_some h

/-! ## Moves that leave the cursor -/

/-- BITQ and BIT_COUNT both stay, and no request is raised. -/
structure CursorStill (s t : State) : Prop where
  bitq : t.bitq = s.bitq
  bitCount : t.regs.bitCount = s.regs.bitCount
  noRequest : t.status.inWait = true → s.status.inWait = true

/-- An operation that branches leaves the cursor when both its branches do. -/
theorem CursorStill.ite {s : State} {c : Prop} [Decidable c] {x y : State} (hx : CursorStill s x)
    (hy : CursorStill s y) : CursorStill s (if c then x else y) := iteInduction (fun _ => hx) (fun _ => hy)

/-- An element leaves the cursor where its fetch has put it. -/
theorem ElementEnd.cursor {s t : State} (h : ElementEnd s t) : CursorStill s t := by
  cases h with
  | goOn t hf _ _ => exact ⟨hf.bitq, hf.bitCount, fun hw => hf.status ▸ hw⟩
  | raised k c u hf _ _ =>
    have hw (h : u.status.inWait = true) : s.status.inWait = true := hf.status ▸ h
    exact ⟨hf.bitq, hf.bitCount, hw⟩

theorem runCheckStreamCrc_cursor (s : State) : CursorStill s (runCheckStreamCrc s) :=
  .ite (.ite ⟨rfl, rfl, id⟩ ⟨rfl, rfl, id⟩) ⟨rfl, rfl, id⟩

theorem extractTurn_cursor (s : State) : CursorStill s (extractTurn s) := by
  rcases extractTurn_cases s with ⟨-, e⟩ | ⟨-, -, e⟩ | ⟨-, -, e⟩ <;> rw [e] <;> exact ⟨rfl, rfl, id⟩

theorem repeatTurn_cursor (s : State) : CursorStill s (repeatTurn s) := by
  rcases repeatTurn_cases s with ⟨-, e⟩ | ⟨n, -, e⟩ <;> rw [e] <;> exact ⟨rfl, rfl, id⟩

/-! ## What a move of the core does to the cursor -/

/-- A move of the core loads the byte that the source answered, asks for a byte that the read due needs, consumes the
bits of the read due, or leaves the cursor. -/
inductive CursorMove (s : State) : State → Prop where
  | load (b : Byte) (ha : s.inAnswer = some (.data b)) : CursorMove s (loadByte b s)
  | request (ha : s.inAnswer = none) (hl : s.bitq.length < bitsNeeded s) : CursorMove s (requestByte s)
  | read (t : State) (hl : bitsNeeded s ≤ s.bitq.length) (ht : CursorStill (consume (bitsNeeded s) s) t) :
      CursorMove s t
  | still (t : State) (ht : CursorStill s t) : CursorMove s t

theorem CoreMove.cursor {s t : State} (h : CoreMove s t) : CursorMove s t := by
  have readBits (hp : s.pos = .readBits) : s.loop.readCount.toNat = bitsNeeded s := by simp [bitsNeeded, hp]
  cases h with
  | load b ha => exact .load b ha
  | request slot n ha hd hl => exact .request ha (dueSlot_bitsNeeded hd ▸ hl)
  | readMore ha hp hl => exact .request ha (readBits hp ▸ hl)
  | keep slot n r _ hd hl _ =>
    obtain rfl := dueSlot_bitsNeeded hd
    exact .read _ hl ⟨rfl, rfl, id⟩
  | element slot n i _ _ hd hl _ hst he =>
    obtain rfl := dueSlot_bitsNeeded hd
    have hend : ElementEnd { consume (bitsNeeded s) s with loop.elem := [] } t := element_end hst he
    exact .read _ hl { hend.cursor with }
  | readDone _ hp hl =>
    rw [readBits hp] at hl ⊢
    exact .read _ hl ⟨rfl, rfl, id⟩
  | symbol i _ _ hp hi he => exact .still _ (element_end (standsAt_of_symbol hp hi) he).cursor
  | checkCrc => exact .still _ (runCheckStreamCrc_cursor s)
  | blockEntry | startSymbol | doneCheck => exact .still _ (.ite ⟨rfl, rfl, id⟩ ⟨rfl, rfl, id⟩)
  | extract => exact .still _ (extractTurn_cursor s)
  | repeatTurn => exact .still _ (repeatTurn_cursor s)
  | endOfStream | clearCrc | codeLength | buckets | emitted | repeated | rest => exact .still _ ⟨rfl, rfl, id⟩

/-! ## The other moves -/

/-- Behind SOFT_RESET every element is at its reset value (R273). -/
theorem softReset_atResetValues (s : State) : AtResetValues (softReset s) where
  status := rfl
  err := rfl
  stage := rfl
  bitq := rfl
  results := rfl
  crcAcc := rfl
  latches := ⟨rfl, rfl⟩
  map := ⟨rfl, rfl, rfl, rfl⟩
  mtf := ⟨rfl, rfl⟩
  sym := rfl
  emit := rfl
  outHold := rfl
  inAnswer := rfl

/-- Behind the assertion of hardware reset they are as well (R271; log 11). -/
theorem resetAssert_atResetValues (s : State) : AtResetValues (resetAssert s) :=
  { softReset_atResetValues s with }

/-- Of the command words only SOFT_RESET's moves the cursor (R117). -/
theorem CommandMove.cursor {w : Word} {s t : State} (h : CommandMove w s t) :
    CursorStill s t ∨ (w = 0x00000001 ∧ AtResetValues t) := by
  cases h with
  | softReset hw => exact .inr ⟨hw, softReset_atResetValues s⟩
  | _ => exact .inl ⟨rfl, rfl, id⟩

/-- The host moves the cursor only by the word of SOFT_RESET, outside reset. -/
theorem HostMove.cursor {words : Word → Prop} {s t : State} (h : HostMove words s t) :
    CursorStill s t ∨ (s.inReset = false ∧ words 0x00000001 ∧ AtResetValues t) := by
  cases h with
  | command h b w _ hr hw ho =>
    rcases (offerCommand_move ho).cursor with hc | ⟨rfl, ht⟩
    · exact .inl { hc with }
    · exact .inr ⟨hr, hw, ht⟩
  | quiet | ctrl | arg => exact .inl ⟨rfl, rfl, id⟩

/-! ## The step -/

/-- What a step does to the cursor: nothing, or the core's move of a running command, or a reset. -/
inductive CursorStep (s : State) : State → Prop where
  | still (t : State) (h : CursorStill s t) : CursorStep s t
  | core (r : List Event) (t : State) (hb : s.status.busy = true)
      (h : CursorMove { s with schedule := r, atCut := false } t) : CursorStep s t
  | reset (t : State) (hr : resetsNext s) (h : AtResetValues t) : CursorStep s t

theorem step_cursor {s t : State} (e : step s = .next t) : CursorStep s t := by
  cases step_move e with
  | pass | resetRelease => exact .still _ ⟨rfl, rfl, id⟩
  | core r _ hc h =>
    obtain ⟨hb, -⟩ := (coreCanStep_iff s).1 hc
    exact .core r _ hb (coreStep_move h).cursor
  | access a r _ hq hs h =>
    rcases h.cursor with hc | ⟨hr, rfl, ht⟩
    · exact .still _ { hc with }
    · exact .reset _ ⟨hq, .inr ⟨hr, congrArg List.head? hs⟩⟩ ht
  | procedure r _ _ h =>
    rcases h.cursor with hc | ⟨-, hw, -⟩
    · exact .still _ { hc with }
    · exact absurd rfl hw
  | source r =>
    rcases sourceAnswer_cases { s with schedule := r } with h | ⟨a, rest, hw, -, h⟩ <;> rw [h]
    · exact .still _ ⟨rfl, rfl, id⟩
    · exact .still _ ⟨rfl, rfl, fun _ => hw⟩
  | sink r =>
    rcases sinkAccept_cases { s with schedule := r } with h | ⟨-, h⟩ <;> rw [h] <;> exact .still _ ⟨rfl, rfl, id⟩
  | resetAssert r hq hs =>
    exact .reset _ ⟨hq, .inl (congrArg List.head? hs)⟩ (resetAssert_atResetValues _)

/-- Settles O53: by what a step does to the cursor, and by what the core's move does. -/
theorem bitCursorMovesOnlySo : Obligations.BitCursorMovesOnlySo := by
  intro s s' e
  cases step_cursor e with
  | still _ h => exact .inl ⟨h.bitq, h.bitCount⟩
  | reset _ hr h => exact .inr (.inr (.inr ⟨hr, h⟩))
  | core r _ hb h =>
    cases h with
    | load b ha => exact .inr (.inl ⟨b, hb, ha, rfl, rfl⟩)
    | request => exact .inl ⟨rfl, rfl⟩
    | read _ hl ht => exact .inr (.inr (.inl ⟨bitsNeeded s, hb, rfl, hl, ht.bitq, ht.bitCount⟩))
    | still _ ht => exact .inl ⟨ht.bitq, ht.bitCount⟩

/-- Settles O54: of all a step can do to the cursor only the core's request raises IN_WAIT. -/
theorem bytesAreRequestedOnlyWhenNeeded : Obligations.BytesAreRequestedOnlyWhenNeeded := by
  intro s s' e hw hw'
  have raised {P : Prop} (h : s'.status.inWait = true → s.status.inWait = true) : P :=
    absurd (hw.symm.trans (h hw')) (by decide)
  cases step_cursor e with
  | still _ h => exact raised h.noRequest
  | reset _ _ h => exact raised fun hi => by simp [h.status] at hi
  | core r _ hb h =>
    cases h with
    | load => exact raised id
    | request ha hl => exact ⟨hl, rfl, hb, ha⟩
    | read _ _ ht => exact raised ht.noRequest
    | still _ ht => exact raised ht.noRequest

end Sys2Proof.Machine

/-! Check values of the CRC-32 unit (spec/41_crc.md R121 to R123, R129): a named lemma for each computed value. -/

namespace Sys2Proof.Machine

/-- Entries of CRC_ROM as R121 lists them: the 8 rounds run on each index. -/
theorem crcRom_listed : crcRom 0 = 0x00000000 ∧ crcRom 1 = 0x04C11DB7 ∧ crcRom 4 = 0x130476DC
    ∧ crcRom 0x80 = 0x690CE0EE ∧ crcRom 0xFF = 0xB1F740B4 := by decide

/-- R122's example: 'a' folded into the seed. -/
theorem crcStep_seed_a : crcStep 0xFFFFFFFF 0x61 = 0xE66C6494 := by decide

/-- CRC_ACC behind "123456789" is the complement of the CRC-32/BZIP2 check value (R129). -/
theorem crcStep_digits :
    [0x31, 0x32, 0x33, 0x34, 0x35, 0x36, 0x37, 0x38, 0x39].foldl crcStep 0xFFFFFFFF = ~~~0xFC891918 := by decide

/-- Settles O38: the listed entries of CRC_ROM, and the complements of what the recurrence leaves of the seed. -/
theorem crcCheckValues : Obligations.CrcCheckValues := by
  obtain ⟨h00, h01, h04, h80, hFF⟩ := crcRom_listed
  refine ⟨h00, h01, h04, h80, hFF, crcStep_seed_a, BitVec.not_allOnes, ?_⟩
  rw [crcStep_digits, BitVec.not_not]

end Sys2Proof.Machine

/-! Move-to-front (spec/42_mtf.md R131, R133): what promote leaves at each index, and that promotes inside a front part
of the list reorder that part alone. -/

namespace Sys2Proof.Machine

/-! ## One promote (R131) -/

/-- Settles O36: in front the entry itself, behind it the list without that entry. -/
theorem promoteMovesToFront : Obligations.PromoteMovesToFront := by
  intro name m idx v hv
  obtain ⟨hi, rfl⟩ := List.getElem?_eq_some_iff.1 hv
  rw [promote_of_lt name hi]
  refine ⟨rfl, fun k => ?_⟩
  cases k with
  | zero => rfl
  | succ k => simp [List.getElem?_eraseIdx]

theorem length_promote (name : Config.MemName) (m : List Byte) (i : Nat) :
    (promote name m i).2.length = m.length := (promote_perm name m i).length_eq

theorem promote_fst_mem (name : Config.MemName) {m : List Byte} {i : Nat} (h : i < m.length) :
    (promote name m i).1 ∈ m := by
  rw [promote_of_lt name h]
  exact List.getElem_mem h

/-- A promote at an index in the front part p does to p what it would alone, and leaves what stands behind p. -/
theorem promote_append (name : Config.MemName) {p : List Byte} (q : List Byte) {i : Nat} (h : i < p.length) :
    promote name (p ++ q) i = ((promote name p i).1, (promote name p i).2 ++ q) := by
  have hpq : i < (p ++ q).length := by rw [List.length_append]; omega
  rw [promote_of_lt name h, promote_of_lt name hpq, List.getElem_append_left h, List.eraseIdx_append_of_lt_length h]
  rfl

/-! ## A sequence of promotes (R133) -/

/-- What promotes at the indexes idxs, one after the other, leave of m. -/
def promotes (name : Config.MemName) (m : List Byte) (idxs : List Nat) : List Byte :=
  idxs.foldl (fun m i => (promote name m i).2) m

theorem promotes_cons (name : Config.MemName) (m : List Byte) (i : Nat) (is : List Nat) :
    promotes name m (i :: is) = promotes name (promote name m i).2 is := rfl

theorem promotes_perm (name : Config.MemName) (m : List Byte) (idxs : List Nat) : (promotes name m idxs).Perm m := by
  induction idxs generalizing m with
  | nil => exact .refl m
  | cons i is ih => exact (ih _).trans (promote_perm name m i)

/-- Promotes at indexes in the front part p reorder p alone. -/
theorem promotes_append (name : Config.MemName) (p q : List Byte) {idxs : List Nat} (h : ∀ i ∈ idxs, i < p.length) :
    promotes name (p ++ q) idxs = promotes name p idxs ++ q := by
  induction idxs generalizing p with
  | nil => rfl
  | cons i is ih =>
    obtain ⟨hi, his⟩ := List.forall_mem_cons.1 h
    rw [promotes_cons, promotes_cons, promote_append name q hi]
    exact ih _ fun j hj => by rw [length_promote]; exact his j hj

theorem identityMtf_take {k : Nat} (h : k ≤ 256) : identityMtf.take k = (List.range k).map (BitVec.ofNat 8) := by
  rw [identityMtf, ← List.map_take, List.take_range, Nat.min_eq_left h]

theorem toNat_lt_of_mem_identityMtf_take {k : Nat} (h : k ≤ 256) {v : Byte} (hv : v ∈ identityMtf.take k) :
    v.toNat < k := by
  rw [identityMtf_take h] at hv
  obtain ⟨j, hj, rfl⟩ := List.mem_map.1 hv
  exact (Nat.mod_le j _).trans_lt (List.mem_range.1 hj)

/-- R133's shape: promotes below k leave the identity from k on, behind a permutation of its first k entries. -/
theorem promotes_identityMtf (name : Config.MemName) {k : Nat} {idxs : List Nat} (hk : k ≤ 256)
    (h : ∀ i ∈ idxs, i < k) :
    ∃ p, p.Perm (identityMtf.take k) ∧ p.length = k ∧ promotes name identityMtf idxs = p ++ identityMtf.drop k := by
  have hlen : (identityMtf.take k).length = k := by rw [List.length_take, length_identityMtf, Nat.min_eq_left hk]
  have hp := promotes_perm name (identityMtf.take k) idxs
  refine ⟨_, hp, hp.length_eq.trans hlen, ?_⟩
  rw [← promotes_append name _ _ (by rwa [hlen]), List.take_append_drop]

/-- Settles O37: the first k entries are a front part, which the promotes only reorder. -/
theorem promotesBelowKStayBelowK : Obligations.PromotesBelowKStayBelowK := by
  intro name k idxs hk hidxs m hm
  obtain ⟨p, hp, hlen, hsplit⟩ := promotes_identityMtf name hk hidxs
  rw [hm.trans hsplit]
  refine ⟨?_, List.drop_left' hlen, fun i hi => ?_⟩
  · rwa [List.take_left' hlen, ← identityMtf_take hk]
  · have hip : i < p.length := by rwa [hlen]
    rw [promote_append name _ hip]
    exact toNat_lt_of_mem_identityMtf_take hk (hp.mem_iff.1 (promote_fst_mem name hip))

end Sys2Proof.Machine

/-! Huffman tables (spec/43_huffman.md R135 to R142): the arithmetic of canonical codes, what huffBuild leaves in the
tables, and that each codeword decodes to its symbol. -/

namespace Sys2Proof.Machine

/-! ## One codeword (R137, R157, R158) -/

/-- A codeword within its length's limit gives a symbol and is counted. -/
theorem exec_huffmanCodeword_of_le {h : Bits} {s : State} (hle : valOf h ≤ limitOf s s.loop.table h.length) :
    exec (.huffmanCodeword h) s = .next { s with
      loop.symbol := symbolOf s s.loop.table h, sym.symIdx := s.sym.symIdx + 1, pos := .symbolReady } :=
  congrArg Host.Outcome.next (if_pos hle)

/-- A codeword above it is none of the table's. -/
theorem exec_huffmanCodeword_of_lt {h : Bits} {s : State} (hlt : limitOf s s.loop.table h.length < valOf h) :
    exec (.huffmanCodeword h) s = .next (raise .corruptStream .codeword s) :=
  congrArg Host.Outcome.next (if_neg hlt.not_ge)

theorem limitOf_of_some {s : State} {t l : Nat} {v : Word} (h : memRead? s.mem.limit (32 * t + l) = some v) :
    limitOf s t l = v.toNat := congrArg BitVec.toNat (memRead_of_some h)

theorem baseOf_of_some {s : State} {t l : Nat} {v : Word} (h : memRead? s.mem.base (32 * t + l) = some v) :
    baseOf s t l = v.toNat := congrArg BitVec.toNat (memRead_of_some h)

theorem symbolOf_of_some {s : State} {t : Nat} {h : Bits} {v : BitVec 9}
    (hv : memRead? s.mem.perm (258 * t + (valOf h - baseOf s t h.length)) = some v) : symbolOf s t h = v :=
  memRead_of_some hv

/-- Settles O31: the three entries the codeword reads, and the limit on either side. -/
theorem codewordGivesItsSymbol : Obligations.CodewordGivesItsSymbol := by
  intro s h lim base v hlim
  have hl := limitOf_of_some hlim
  refine ⟨fun hle hbase hperm => ?_, fun hlt => exec_huffmanCodeword_of_lt (hl ▸ hlt)⟩
  rw [← baseOf_of_some hbase] at hperm
  rw [exec_huffmanCodeword_of_le (hl ▸ hle), symbolOf_of_some hperm]

/-! ## The lengths of a table (R135) -/

theorem tableLengths.ne_nil {lens : List Nat} : tableLengths lens → lens ≠ []
  | ⟨h, _, _⟩ => h

theorem tableLengths.length_le {lens : List Nat} : tableLengths lens → lens.length ≤ 258
  | ⟨_, h, _⟩ => h

theorem tableLengths.pos {lens : List Nat} {l : Nat} : tableLengths lens → l ∈ lens → 1 ≤ l
  | ⟨_, _, h⟩, hl => (h l hl).1

theorem tableLengths.le {lens : List Nat} {l : Nat} : tableLengths lens → l ∈ lens → l ≤ 20
  | ⟨_, _, h⟩, hl => (h l hl).2

theorem tableLengths.count_zero {lens : List Nat} (h : tableLengths lens) : lens.count 0 = 0 :=
  List.count_eq_zero.2 fun h0 => absurd (h.pos h0) (by omega)

theorem min?_getD_mem {lens : List Nat} (h : lens ≠ []) : lens.min?.getD 0 ∈ lens := by
  rw [List.min?_eq_some_min h]
  exact List.min_mem h

theorem max?_getD_mem {lens : List Nat} (h : lens ≠ []) : lens.max?.getD 0 ∈ lens := by
  rw [List.max?_eq_some_max h]
  exact List.max_mem h

/-! ## First codewords (R136, R142) -/

theorem shorterCount_succ {lens : List Nat} (h0 : lens.count 0 = 0) (l : Nat) :
    shorterCount lens (l + 1) = shorterCount lens l + lens.count l := by
  rw [shorterCount, List.range_succ, List.map_append, List.sum_append]
  cases l <;> simp [h0, shorterCount]

theorem firstCode_succ {lens : List Nat} (h0 : lens.count 0 = 0) (l : Nat) :
    firstCode lens (l + 1) = (firstCode lens l + lens.count l) * 2 := by
  have hterm : ∀ j ∈ List.range l, (if j = 0 then 0 else lens.count j * 2 ^ (l + 1 - j))
      = (if j = 0 then 0 else lens.count j * 2 ^ (l - j)) * 2 := by
    intro j hj
    rw [show l + 1 - j = l - j + 1 by have := List.mem_range.1 hj; omega, pow_succ]
    split <;> ring
  rw [firstCode, List.range_succ, List.map_append, List.sum_append, List.map_congr_left hterm,
    List.sum_map_mul_right, add_mul]
  cases l <;> simp [h0, firstCode]

theorem cumBelow_eq_shorterCount {lens : List Nat} (h0 : lens.count 0 = 0) (l : Nat) :
    cumBelow lens l = shorterCount lens l := by
  induction l with
  | zero => rfl
  | succ l ih =>
    rw [shorterCount_succ h0, cumBelow, ih]
    split
    · next hl => rw [hl, h0]
    · rfl

theorem shorterCount_le_firstCode {lens : List Nat} (h0 : lens.count 0 = 0) (l : Nat) :
    shorterCount lens l ≤ firstCode lens l := by
  induction l with
  | zero => exact le_rfl
  | succ l ih => rw [shorterCount_succ h0, firstCode_succ h0]; omega

/-- No codeword is shorter than the shortest, so the first one of its length is 0. -/
theorem firstCode_eq_zero {lens : List Nat} {m : Nat} (h : ∀ l ∈ lens, m ≤ l) : firstCode lens m = 0 := by
  refine List.sum_eq_zero fun x hx => ?_
  obtain ⟨j, hj, rfl⟩ := List.mem_map.1 hx
  have hcount : lens.count j = 0 :=
    List.count_eq_zero.2 fun hmem => absurd (h j hmem) (by have := List.mem_range.1 hj; omega)
  simp [hcount]

/-- The codewords of length n, extended to a greater length, come before the first codeword of that length. -/
theorem firstCode_add_count_mul_le {lens : List Nat} (h0 : lens.count 0 = 0) {n l : Nat} (hnl : n < l) :
    (firstCode lens n + lens.count n) * 2 ^ (l - n) ≤ firstCode lens l := by
  induction l, hnl using Nat.le_induction with
  | base => rw [firstCode_succ h0, show n + 1 - n = 1 by omega, pow_one]
  | succ l hl ih =>
    rw [firstCode_succ h0, show l + 1 - n = l - n + 1 by omega, pow_succ, ← mul_assoc]
    exact Nat.mul_le_mul_right 2 (ih.trans (Nat.le_add_right _ _))

/-- From the shortest length on, some codeword comes before the ones that are longer. -/
theorem firstCode_add_count_pos {lens : List Nat} (h0 : lens.count 0 = 0) {m n : Nat} (hm : m ∈ lens) (hmn : m ≤ n) :
    0 < firstCode lens n + lens.count n := by
  have hcount : 0 < lens.count m := List.count_pos_iff.2 hm
  rcases hmn.eq_or_lt with rfl | hlt
  · omega
  · have hpos : 0 < (firstCode lens m + lens.count m) * 2 ^ (n - m) :=
      Nat.mul_pos (by omega) (Nat.two_pow_pos _)
    have := firstCode_add_count_mul_le h0 hlt
    omega

/-! ## Kraft sums -/

/-- The Kraft sum of the lengths below l, in units of 2^-20. -/
def kraftBelow (lens : List Nat) (l : Nat) : Nat := ((lens.filter (· < l)).map fun x => 2 ^ (20 - x)).sum

theorem kraftBelow_zero (lens : List Nat) : kraftBelow lens 0 = 0 := by simp [kraftBelow]

theorem kraftBelow_cons (x : Nat) (lens : List Nat) (l : Nat) :
    kraftBelow (x :: lens) l = kraftBelow lens l + if x < l then 2 ^ (20 - x) else 0 := by
  by_cases hx : x < l <;> simp [kraftBelow, hx, Nat.add_comm]

theorem kraftBelow_succ (lens : List Nat) (l : Nat) :
    kraftBelow lens (l + 1) = kraftBelow lens l + lens.count l * 2 ^ (20 - l) := by
  induction lens with
  | nil => simp [kraftBelow]
  | cons x lens ih =>
    rw [kraftBelow_cons, kraftBelow_cons, ih, List.count_cons, add_mul]
    rcases lt_trichotomy x l with hx | rfl | hx
    · simp [hx, hx.ne, Nat.lt_succ_of_lt hx]; omega
    · simp [Nat.add_assoc]
    · simp [hx.ne', hx.not_gt, hx.not_ge]

theorem kraftBelow_le (lens : List Nat) (l : Nat) :
    kraftBelow lens l ≤ (lens.map fun x => 2 ^ (20 - x)).sum :=
  (List.filter_sublist.map _).sum_le_sum fun _ _ => Nat.zero_le _

/-- The first codeword of length l, as a fraction of the code space, is what the shorter codewords take of it. -/
theorem firstCode_mul_eq_kraftBelow {lens : List Nat} (h0 : lens.count 0 = 0) {l : Nat} (hl : l ≤ 20) :
    firstCode lens l * 2 ^ (20 - l) = kraftBelow lens l := by
  induction l with
  | zero => rw [kraftBelow_zero]; exact Nat.zero_mul _
  | succ l ih =>
    rw [firstCode_succ h0, kraftBelow_succ, ← ih (by omega), ← add_mul,
      show 20 - l = 20 - (l + 1) + 1 by omega, pow_succ]
    ring

theorem firstCode_add_count_mul_le_kraft {lens : List Nat} (h0 : lens.count 0 = 0) {l : Nat} (hl : l ≤ 20) :
    (firstCode lens l + lens.count l) * 2 ^ (20 - l) ≤ (lens.map fun x => 2 ^ (20 - x)).sum := by
  rw [add_mul, firstCode_mul_eq_kraftBelow h0 hl, ← kraftBelow_succ]
  exact kraftBelow_le _ _

/-- R139: every codeword, and the end of each length's codewords, fits a word of 32 bits. -/
theorem firstCode_add_count_lt {lens : List Nat} (h : tableLengths lens) {l : Nat} (hl : l ≤ 20) :
    firstCode lens l + lens.count l < 2 ^ 32 := by
  have hkraft := firstCode_add_count_mul_le_kraft h.count_zero hl
  have hlen := h.length_le
  have hsum : (lens.map fun x => 2 ^ (20 - x)).sum ≤ lens.length * 2 ^ 20 := by
    have := List.sum_le_card_nsmul (lens.map fun x => 2 ^ (20 - x)) (2 ^ 20) fun y hy => by
      obtain ⟨x, -, rfl⟩ := List.mem_map.1 hy
      exact Nat.pow_le_pow_right (by omega) (Nat.sub_le _ _)
    simpa using this
  have hself := Nat.le_mul_of_pos_right (firstCode lens l + lens.count l) (Nat.two_pow_pos (20 - l))
  omega

/-- Under Kraft's inequality the codewords of length l are numbers of l bits. -/
theorem firstCode_add_count_le_of_kraft {lens : List Nat} (h0 : lens.count 0 = 0) (hk : kraft lens) {l : Nat}
    (hl : l ≤ 20) : firstCode lens l + lens.count l ≤ 2 ^ l := by
  have hle := (firstCode_add_count_mul_le_kraft h0 hl).trans hk
  rw [show 2 ^ 20 = 2 ^ l * 2 ^ (20 - l) by rw [← pow_add, Nat.add_sub_of_le hl]] at hle
  exact Nat.le_of_mul_le_mul_right hle (Nat.two_pow_pos _)

/-! ## The sorted symbols (R136) -/

theorem length_filter_range_getElem? (lens : List Nat) (l : Nat) {k : Nat} (hk : k ≤ lens.length) :
    ((List.range k).filter fun i => lens[i]? = some l).length = (lens.take k).count l := by
  induction k with
  | zero => rfl
  | succ k ih =>
    have hlt : k < lens.length := hk
    rw [List.range_succ, List.filter_append, List.length_append, ih (by omega), List.take_add_one, List.count_append]
    by_cases hl : lens[k] = l <;> simp [hlt, hl]

/-- The numbers below n, cut at k. -/
theorem range_split {k n : Nat} (h : k < n) :
    List.range n = List.range k ++ k :: List.range' (k + 1) (n - k - 1) := by
  obtain ⟨d, rfl⟩ := Nat.exists_eq_add_of_lt h
  rw [← List.range'_succ, List.range_eq_range', List.range_eq_range', show k + d + 1 - k - 1 = d by omega,
    Nat.add_assoc, ← List.range'_append_1, Nat.zero_add]

/-- The symbols of length l, in order. -/
def symbolsOfLength (lens : List Nat) (l : Nat) : List Nat :=
  (List.range lens.length).filter fun k => lens[k]? = some l

theorem sortedSymbols_eq (lens : List Nat) : sortedSymbols lens = (List.range 32).flatMap (symbolsOfLength lens) := rfl

theorem mem_symbolsOfLength {lens : List Nat} {l k : Nat} : k ∈ symbolsOfLength lens l ↔ lens[k]? = some l := by
  rw [symbolsOfLength, List.mem_filter, List.mem_range, decide_eq_true_eq, and_iff_right_iff_imp]
  exact fun h => (List.getElem?_eq_some_iff.1 h).1

theorem length_symbolsOfLength (lens : List Nat) (l : Nat) : (symbolsOfLength lens l).length = lens.count l := by
  rw [symbolsOfLength, length_filter_range_getElem? lens l le_rfl, List.take_length]

theorem length_flatMap_symbolsOfLength {lens : List Nat} (h0 : lens.count 0 = 0) (l : Nat) :
    ((List.range l).flatMap (symbolsOfLength lens)).length = shorterCount lens l := by
  induction l with
  | zero => rfl
  | succ l ih =>
    rw [List.range_succ, List.flatMap_append, List.length_append, ih, shorterCount_succ h0]
    simp [length_symbolsOfLength]

/-- A symbol stands behind those of its length that come before it. -/
theorem symbolsOfLength_rankOf {lens : List Nat} {k : Nat} (hk : k < lens.length) :
    (symbolsOfLength lens (lens.getD k 0))[rankOf lens k]? = some k := by
  rw [symbolsOfLength, rankOf, ← length_filter_range_getElem? lens _ hk.le, range_split hk, List.filter_append,
    List.filter_cons_of_pos (by simp [hk]), List.getElem?_append_right le_rfl, Nat.sub_self]
  rfl

theorem rankOf_lt_count {lens : List Nat} {k : Nat} (hk : k < lens.length) :
    rankOf lens k < lens.count (lens.getD k 0) := by
  rw [← length_symbolsOfLength]
  exact (List.getElem?_eq_some_iff.1 (symbolsOfLength_rankOf hk)).1

/-- Behind the shorter symbols come those of length l. -/
theorem sortedSymbols_getElem? {lens : List Nat} (h0 : lens.count 0 = 0) {l : Nat} (hl : l < 32) {r k : Nat}
    (hr : (symbolsOfLength lens l)[r]? = some k) : (sortedSymbols lens)[shorterCount lens l + r]? = some k := by
  have hlt : r < (symbolsOfLength lens l).length := (List.getElem?_eq_some_iff.1 hr).1
  rw [sortedSymbols_eq, range_split hl, List.flatMap_append, List.flatMap_cons,
    ← length_flatMap_symbolsOfLength h0, List.getElem?_append_right (Nat.le_add_right _ _), Nat.add_sub_cancel_left,
    List.getElem?_append_left hlt, hr]

theorem pairwise_sortedSymbols (lens : List Nat) : (sortedSymbols lens).Pairwise fun a b =>
    lens.getD a 0 < lens.getD b 0 ∨ (lens.getD a 0 = lens.getD b 0 ∧ a < b) := by
  have hgetD : ∀ {l k}, k ∈ symbolsOfLength lens l → lens.getD k 0 = l := fun h => by
    rw [List.getD_eq_getElem?_getD, mem_symbolsOfLength.1 h, Option.getD_some]
  rw [sortedSymbols_eq, List.pairwise_flatMap]
  refine ⟨fun l _ => ?_, List.pairwise_lt_range.imp fun hlt a ha b hb => ?_⟩
  · refine (List.pairwise_lt_range.filter _).imp_of_mem fun ha hb hlt => .inr ⟨?_, hlt⟩
    rw [hgetD ha, hgetD hb]
  · rw [hgetD ha, hgetD hb]
    exact .inl hlt

/-- The sorted symbols are all the symbols, where every length is below 32. -/
theorem sortedSymbols_perm {lens : List Nat} (h : ∀ l ∈ lens, l < 32) :
    (sortedSymbols lens).Perm (List.range lens.length) := by
  have hnodup : (sortedSymbols lens).Nodup := (pairwise_sortedSymbols lens).imp fun hab => by
    rintro rfl
    omega
  refine (List.perm_ext_iff_of_nodup hnodup List.nodup_range).2 fun k => ?_
  rw [sortedSymbols_eq, List.mem_flatMap, List.mem_range]
  constructor
  · rintro ⟨l, -, hk⟩
    exact (List.getElem?_eq_some_iff.1 (mem_symbolsOfLength.1 hk)).1
  · intro hk
    exact ⟨lens[k], List.mem_range.2 (h _ (List.getElem_mem hk)), mem_symbolsOfLength.2 (List.getElem?_eq_getElem hk)⟩

/-! ## The rows of the tables (R136) -/

theorem mem_levels {mn mx l : Nat} : l ∈ levels mn mx ↔ mn ≤ l ∧ l ≤ mx := by
  simp only [levels, List.mem_map, List.mem_range]
  constructor
  · rintro ⟨j, hj, rfl⟩; omega
  · rintro ⟨h₁, h₂⟩; exact ⟨l - mn, by omega, by omega⟩

/-- The loop's code, started at the first codeword of the length mn, is the first codeword of each length. -/
theorem levelCodes_range' {lens : List Nat} (h0 : lens.count 0 = 0) (mn n : Nat) :
    levelCodes lens (List.range' mn n) (firstCode lens mn)
      = (List.range' mn n).map fun l => (l, firstCode lens l) := by
  induction n generalizing mn with
  | zero => rfl
  | succ n ih => rw [List.range'_succ, levelCodes, List.map_cons, ← firstCode_succ h0, ih]

theorem levelCodes_levels {lens : List Nat} (h0 : lens.count 0 = 0) {mn : Nat} (hmn : ∀ l ∈ lens, mn ≤ l) (mx : Nat) :
    levelCodes lens (levels mn mx) 0 = (levels mn mx).map fun l => (l, firstCode lens l) := by
  have hlevels : levels mn mx = List.range' mn (mx + 1 - mn) := by
    rw [List.range'_eq_map_range, levels]
    simp only [Nat.add_comm]
  rw [hlevels, ← firstCode_eq_zero hmn]
  exact levelCodes_range' h0 _ _

/-- Writes at pairwise distinct keys: each is read back. -/
theorem memRead?_foldl_memWrite_of_mem {α β : Type} {key : β → Nat} (hkey : Function.Injective key) (val : β → α)
    (m : Mem α) {rows : List β} {r : β} (hr : r ∈ rows) :
    memRead? (rows.foldl (fun m r => memWrite m (key r) (val r)) m) (key r) = some (val r) := by
  induction rows using List.reverseRecOn with
  | nil => simp at hr
  | append_singleton rows q ih =>
    rw [List.foldl_append, List.foldl_cons, List.foldl_nil]
    by_cases hq : q = r
    · rw [hq, memRead?_memWrite_self]
    · rw [memRead?_memWrite_of_ne _ _ (hkey.ne hq)]
      rcases List.mem_append.1 hr with h | h
      · exact ih h
      · exact absurd (List.mem_singleton.1 h).symm hq

theorem memRead?_foldl_memWrite_of_forall_ne {α β : Type} {key : β → Nat} (val : β → α) (m : Mem α) {rows : List β}
    {a : Nat} (ha : ∀ r ∈ rows, key r ≠ a) :
    memRead? (rows.foldl (fun m r => memWrite m (key r) (val r)) m) a = memRead? m a := by
  induction rows generalizing m with
  | nil => rfl
  | cons r rows ih =>
    obtain ⟨hr, hrows⟩ := List.forall_mem_cons.1 ha
    rw [List.foldl_cons, ih _ hrows, memRead?_memWrite_of_ne _ _ hr]

theorem levelKey_injective (t : Nat) : Function.Injective (levelKey t) := fun _ _ h => Nat.add_left_cancel h

/-! ## What huffBuild leaves (R136) -/

section Built

variable {s : State} {t : Nat}

theorem minLenOf_huffBuild (h : tableLengths (lengthsOf s t)) :
    minLenOf (huffBuild s t) t = (lengthsOf s t).min?.getD 0 := by
  have := h.le (min?_getD_mem h.ne_nil)
  have hread : memRead .minLen (huffBuild s t).mem.minLen t = BitVec.ofNat 5 ((lengthsOf s t).min?.getD 0) :=
    memRead_of_some (memRead?_memWrite_self _ _ _)
  rw [minLenOf, hread, BitVec.toNat_ofNat, Nat.mod_eq_of_lt (by omega)]

theorem maxLenOf_huffBuild (h : tableLengths (lengthsOf s t)) :
    maxLenOf (huffBuild s t) t = (lengthsOf s t).max?.getD 0 := by
  have := h.le (max?_getD_mem h.ne_nil)
  have hread : memRead .maxLen (huffBuild s t).mem.maxLen t = BitVec.ofNat 5 ((lengthsOf s t).max?.getD 0) :=
    memRead_of_some (memRead?_memWrite_self _ _ _)
  rw [maxLenOf, hread, BitVec.toNat_ofNat, Nat.mod_eq_of_lt (by omega)]

theorem minLenOf_huffBuild_mem (h : tableLengths (lengthsOf s t)) :
    minLenOf (huffBuild s t) t ∈ lengthsOf s t := minLenOf_huffBuild h ▸ min?_getD_mem h.ne_nil

theorem maxLenOf_huffBuild_mem (h : tableLengths (lengthsOf s t)) :
    maxLenOf (huffBuild s t) t ∈ lengthsOf s t := maxLenOf_huffBuild h ▸ max?_getD_mem h.ne_nil

theorem minLenOf_huffBuild_le (h : tableLengths (lengthsOf s t)) {l : Nat} (hl : l ∈ lengthsOf s t) :
    minLenOf (huffBuild s t) t ≤ l := minLenOf_huffBuild h ▸ List.min?_getD_le_of_mem hl

theorem le_maxLenOf_huffBuild (h : tableLengths (lengthsOf s t)) {l : Nat} (hl : l ∈ lengthsOf s t) :
    l ≤ maxLenOf (huffBuild s t) t := maxLenOf_huffBuild h ▸ List.le_max?_getD_of_mem hl

theorem maxLenOf_huffBuild_le (h : tableLengths (lengthsOf s t)) : maxLenOf (huffBuild s t) t ≤ 20 :=
  h.le (maxLenOf_huffBuild_mem h)

/-- The rows that huffBuild writes, a length with its first codeword each. -/
theorem levelCodes_huffBuild (h : tableLengths (lengthsOf s t)) :
    levelCodes (lengthsOf s t) (levels ((lengthsOf s t).min?.getD 0) ((lengthsOf s t).max?.getD 0)) 0
      = (levels (minLenOf (huffBuild s t) t) (maxLenOf (huffBuild s t) t)).map
          fun l => (l, firstCode (lengthsOf s t) l) := by
  rw [minLenOf_huffBuild h, maxLenOf_huffBuild h]
  exact levelCodes_levels h.count_zero (fun _ => List.min?_getD_le_of_mem) _

/-- huffBuild's writes to a table with a row a length, by the first codewords. -/
theorem foldl_levelCodes_huffBuild (h : tableLengths (lengthsOf s t)) (val : Nat × Nat → Word) (m : Mem Word) :
    (levelCodes (lengthsOf s t) (levels ((lengthsOf s t).min?.getD 0) ((lengthsOf s t).max?.getD 0)) 0).foldl
        (fun m r => memWrite m (levelKey t r.1) (val r)) m
      = (levels (minLenOf (huffBuild s t) t) (maxLenOf (huffBuild s t) t)).foldl
        (fun m l => memWrite m (levelKey t l) (val (l, firstCode (lengthsOf s t) l))) m := by
  rw [levelCodes_huffBuild h, List.foldl_map]

theorem huffBuild_limit (h : tableLengths (lengthsOf s t)) :
    (huffBuild s t).mem.limit = (levels (minLenOf (huffBuild s t) t) (maxLenOf (huffBuild s t) t)).foldl
      (fun m l => memWrite m (levelKey t l)
        (BitVec.ofNat 32 (firstCode (lengthsOf s t) l + (lengthsOf s t).count l - 1))) s.mem.limit :=
  foldl_levelCodes_huffBuild h (fun r => BitVec.ofNat 32 (r.2 + (lengthsOf s t).count r.1 - 1)) _

theorem huffBuild_base (h : tableLengths (lengthsOf s t)) :
    (huffBuild s t).mem.base = (levels (minLenOf (huffBuild s t) t) (maxLenOf (huffBuild s t) t)).foldl
      (fun m l => memWrite m (levelKey t l)
        (BitVec.ofNat 32 (firstCode (lengthsOf s t) l - shorterCount (lengthsOf s t) l))) s.mem.base := by
  simp only [← cumBelow_eq_shorterCount h.count_zero]
  exact foldl_levelCodes_huffBuild h (fun r => BitVec.ofNat 32 (r.2 - cumBelow (lengthsOf s t) r.1)) _

theorem limitOf_huffBuild (h : tableLengths (lengthsOf s t)) {l : Nat} (hmn : minLenOf (huffBuild s t) t ≤ l)
    (hmx : l ≤ maxLenOf (huffBuild s t) t) :
    limitOf (huffBuild s t) t l = firstCode (lengthsOf s t) l + (lengthsOf s t).count l - 1 := by
  have := firstCode_add_count_lt h (hmx.trans (maxLenOf_huffBuild_le h))
  rw [limitOf, huffBuild_limit h, memRead_of_some
    (memRead?_foldl_memWrite_of_mem (levelKey_injective t) _ _ (mem_levels.2 ⟨hmn, hmx⟩)),
    BitVec.toNat_ofNat, Nat.mod_eq_of_lt (by omega)]

theorem baseOf_huffBuild (h : tableLengths (lengthsOf s t)) {l : Nat} (hmn : minLenOf (huffBuild s t) t ≤ l)
    (hmx : l ≤ maxLenOf (huffBuild s t) t) :
    baseOf (huffBuild s t) t l = firstCode (lengthsOf s t) l - shorterCount (lengthsOf s t) l := by
  have := firstCode_add_count_lt h (hmx.trans (maxLenOf_huffBuild_le h))
  rw [baseOf, huffBuild_base h, memRead_of_some
    (memRead?_foldl_memWrite_of_mem (levelKey_injective t) _ _ (mem_levels.2 ⟨hmn, hmx⟩)),
    BitVec.toNat_ofNat, Nat.mod_eq_of_lt (by omega)]

/-- No row of table t stands outside its 32 entries. -/
theorem levelKey_ne_of_mem_levels (h : tableLengths (lengthsOf s t)) {a : Nat} (ha : a < 32 * t ∨ 32 * t + 32 ≤ a) :
    ∀ l ∈ levels (minLenOf (huffBuild s t) t) (maxLenOf (huffBuild s t) t), levelKey t l ≠ a := by
  intro l hl
  have := (mem_levels.1 hl).2.trans (maxLenOf_huffBuild_le h)
  rw [levelKey]
  omega

theorem huffBuild_rows_frame (h : tableLengths (lengthsOf s t)) {a : Nat} (ha : a < 32 * t ∨ 32 * t + 32 ≤ a) :
    memRead? (huffBuild s t).mem.base a = memRead? s.mem.base a
      ∧ memRead? (huffBuild s t).mem.limit a = memRead? s.mem.limit a := by
  rw [huffBuild_base h, huffBuild_limit h]
  exact ⟨memRead?_foldl_memWrite_of_forall_ne _ _ (levelKey_ne_of_mem_levels h ha),
    memRead?_foldl_memWrite_of_forall_ne _ _ (levelKey_ne_of_mem_levels h ha)⟩

theorem sortedSymbols_lengthsOf_perm (h : tableLengths (lengthsOf s t)) :
    (sortedSymbols (lengthsOf s t)).Perm (List.range (lengthsOf s t).length) :=
  sortedSymbols_perm fun _ hl => (h.le hl).trans_lt (by omega)

/-- PERM[t] lists the sorted symbols; the entries behind them and those of other tables stay. -/
theorem memRead?_huffBuild_perm (h : tableLengths (lengthsOf s t)) (a : Nat) :
    memRead? (huffBuild s t).mem.perm a = if 258 * t ≤ a ∧ a < 258 * t + (lengthsOf s t).length
      then ((sortedSymbols (lengthsOf s t))[a - 258 * t]?).map (BitVec.ofNat 9) else memRead? s.mem.perm a := by
  have hlen : ((sortedSymbols (lengthsOf s t)).map (BitVec.ofNat 9)).length = (lengthsOf s t).length := by
    rw [List.length_map, (sortedSymbols_lengthsOf_perm h).length_eq, List.length_range]
  rw [← List.getElem?_map, ← hlen]
  exact memRead?_memWriteList _ _ _ _

end Built

/-- Settles O28: each table by its own lemma, its entries and its frame. -/
theorem huffmanTablesAreBuilt : Obligations.HuffmanTablesAreBuilt := by
  rintro s t _ rfl h
  have h0 := h.count_zero
  refine ⟨_, _, _, rfl, rfl, rfl, minLenOf_huffBuild_mem h, maxLenOf_huffBuild_mem h,
    fun l hl => ⟨minLenOf_huffBuild_le h hl, le_maxLenOf_huffBuild h hl⟩,
    fun l hmn hmx => ⟨limitOf_huffBuild h hmn hmx, baseOf_huffBuild h hmn hmx, shorterCount_le_firstCode h0 l⟩,
    ⟨sortedSymbols (lengthsOf s t), sortedSymbols_lengthsOf_perm h, pairwise_sortedSymbols _, fun j hj => ?_⟩, rfl,
    fun a ha => ⟨memRead?_memWrite_of_ne _ _ ha.symm, memRead?_memWrite_of_ne _ _ ha.symm⟩,
    fun a ha => huffBuild_rows_frame h ha, fun a ha => ?_⟩
  · rw [memRead?_huffBuild_perm h, if_pos (by omega), Nat.add_sub_cancel_left]
  · have := h.length_le
    rw [memRead?_huffBuild_perm h, if_neg (by omega)]

/-! ## Decoding (R137, R142) -/

theorem limitsOf_getD (s : State) (t : Nat) {l : Nat} (hl : l < 32) : (limitsOf s t).getD l 0 = limitOf s t l := by
  simp [limitsOf, hl]

/-- Bits from MINLEN on that are within their length's limit are a codeword. -/
theorem decode_codeword_of_le {s : State} {t mx : Nat} {bs : Bits} (hmn : minLenOf s t ≤ bs.length)
    (hl : bs.length < 32) (hle : valOf bs ≤ limitOf s t bs.length) :
    decode (.huffmanCodeword (minLenOf s t) mx (limitsOf s t)) (.bits bs) = .ok (.huffmanCodeword bs) :=
  if_pos ⟨hmn, .inl (hle.trans_eq (limitsOf_getD s t hl).symm)⟩

/-- Fewer bits than MINLEN, or bits above the limit and fewer than MAXLEN, are not yet a codeword. -/
theorem decode_codeword_incomplete {s : State} {t mx : Nat} {bs : Bits} (hmx : bs.length < mx)
    (hl : bs.length < 32) (hlt : minLenOf s t ≤ bs.length → limitOf s t bs.length < valOf bs) :
    decode (.huffmanCodeword (minLenOf s t) mx (limitsOf s t)) (.bits bs) = .error .incomplete :=
  if_neg fun ⟨hmn, h⟩ => by
    rw [limitsOf_getD s t hl] at h
    have := hlt hmn
    omega

@[simp] theorem length_codewordBits (l code : Nat) : (codewordBits l code).length = l := length_bitsOf _

theorem valOf_codewordBits {l code : Nat} (h : code < 2 ^ l) : valOf (codewordBits l code) = code := by
  rw [codewordBits, valOf_bitsOf, BitVec.toNat_ofNat, Nat.mod_eq_of_lt h]

/-- The first n bits of a codeword are its value without the last l - n. -/
theorem valOf_take_codewordBits {l code n : Nat} (h : code < 2 ^ l) (hn : n ≤ l) :
    valOf ((codewordBits l code).take n) = code / 2 ^ (l - n) := by
  rw [codewordBits, bitsOf, ← List.map_take, List.take_range, Nat.min_eq_left hn, valOf_take_bitsOf _ _ hn,
    BitVec.toNat_ofNat, Nat.mod_eq_of_lt h, Nat.shiftRight_eq_div_pow]

/-- A codeword of length l, cut to n bits, is above every codeword of length n. -/
theorem firstCode_add_count_le_div {lens : List Nat} (h0 : lens.count 0 = 0) {n l : Nat} (hnl : n < l) (r : Nat) :
    firstCode lens n + lens.count n ≤ (firstCode lens l + r) / 2 ^ (l - n) :=
  (Nat.le_div_iff_mul_le (Nat.two_pow_pos _)).2
    ((firstCode_add_count_mul_le h0 hnl).trans (Nat.le_add_right _ _))

/-! ## The codeword of a symbol (R142) -/

/-- The codeword of symbol k: the first of its length plus its rank. -/
def codewordOf (lens : List Nat) (k : Nat) : Bits :=
  codewordBits (lens.getD k 0) (firstCode lens (lens.getD k 0) + rankOf lens k)

@[simp] theorem length_codewordOf (lens : List Nat) (k : Nat) : (codewordOf lens k).length = lens.getD k 0 :=
  length_codewordBits _ _

theorem getD_mem {lens : List Nat} {k : Nat} (hk : k < lens.length) : lens.getD k 0 ∈ lens := by
  rw [List.getD_eq_getElem _ _ hk]
  exact List.getElem_mem hk

/-- Kraft's inequality leaves room for the codeword in its bits. -/
theorem firstCode_add_rankOf_lt {lens : List Nat} (h : tableLengths lens) (hkraft : kraft lens) {k : Nat}
    (hk : k < lens.length) : firstCode lens (lens.getD k 0) + rankOf lens k < 2 ^ lens.getD k 0 :=
  (Nat.add_lt_add_left (rankOf_lt_count hk) _).trans_le
    (firstCode_add_count_le_of_kraft h.count_zero hkraft (h.le (getD_mem hk)))

theorem valOf_codewordOf {lens : List Nat} (h : tableLengths lens) (hkraft : kraft lens) {k : Nat}
    (hk : k < lens.length) : valOf (codewordOf lens k) = firstCode lens (lens.getD k 0) + rankOf lens k :=
  valOf_codewordBits (firstCode_add_rankOf_lt h hkraft hk)

section Codeword

variable {s : State} {t k : Nat} (h : tableLengths (lengthsOf s t)) (hkraft : kraft (lengthsOf s t))
  (hk : k < (lengthsOf s t).length)
include h hkraft hk

/-- The codewords of a length end at its LIMIT. -/
theorem valOf_codewordOf_le_limitOf : valOf (codewordOf (lengthsOf s t) k)
    ≤ limitOf (huffBuild s t) t (codewordOf (lengthsOf s t) k).length := by
  have hrank := rankOf_lt_count hk
  rw [length_codewordOf, valOf_codewordOf h hkraft hk,
    limitOf_huffBuild h (minLenOf_huffBuild_le h (getD_mem hk)) (le_maxLenOf_huffBuild h (getD_mem hk))]
  omega

theorem decode_codewordOf : decode (.huffmanCodeword (minLenOf (huffBuild s t) t) (maxLenOf (huffBuild s t) t)
    (limitsOf (huffBuild s t) t)) (.bits (codewordOf (lengthsOf s t) k))
      = .ok (.huffmanCodeword (codewordOf (lengthsOf s t) k)) := by
  refine decode_codeword_of_le ?_ ?_ (valOf_codewordOf_le_limitOf h hkraft hk) <;> rw [length_codewordOf]
  · exact minLenOf_huffBuild_le h (getD_mem hk)
  · exact (h.le (getD_mem hk)).trans_lt (by omega)

/-- Cut to n bits the codeword is above LIMIT: all codewords of length n come before it. -/
theorem decode_take_codewordOf {n : Nat} (hn : n < (lengthsOf s t).getD k 0) :
    decode (.huffmanCodeword (minLenOf (huffBuild s t) t) (maxLenOf (huffBuild s t) t)
      (limitsOf (huffBuild s t) t)) (.bits ((codewordOf (lengthsOf s t) k).take n)) = .error .incomplete := by
  have hlen : ((codewordOf (lengthsOf s t) k).take n).length = n := by
    rw [List.length_take, length_codewordOf, Nat.min_eq_left hn.le]
  have hmx := hn.trans_le (le_maxLenOf_huffBuild h (getD_mem hk))
  have h20 := maxLenOf_huffBuild_le h
  refine decode_codeword_incomplete ?_ ?_ ?_ <;> rw [hlen]
  · exact hmx
  · omega
  · intro hmn
    have hpos := firstCode_add_count_pos h.count_zero (minLenOf_huffBuild_mem h) hmn
    have habove := firstCode_add_count_le_div h.count_zero hn (rankOf (lengthsOf s t) k)
    rw [limitOf_huffBuild h hmn hmx.le, codewordOf,
      valOf_take_codewordBits (firstCode_add_rankOf_lt h hkraft hk) hn.le]
    omega

/-- Less BASE, the codeword is its symbol's index in PERM: its rank behind the shorter symbols. -/
theorem valOf_codewordOf_sub_baseOf : valOf (codewordOf (lengthsOf s t) k)
    - baseOf (huffBuild s t) t (codewordOf (lengthsOf s t) k).length
      = shorterCount (lengthsOf s t) ((lengthsOf s t).getD k 0) + rankOf (lengthsOf s t) k := by
  have hle := shorterCount_le_firstCode h.count_zero ((lengthsOf s t).getD k 0)
  rw [length_codewordOf, valOf_codewordOf h hkraft hk,
    baseOf_huffBuild h (minLenOf_huffBuild_le h (getD_mem hk)) (le_maxLenOf_huffBuild h (getD_mem hk))]
  omega

theorem symbolOf_codewordOf :
    symbolOf (huffBuild s t) t (codewordOf (lengthsOf s t) k) = BitVec.ofNat 9 k := by
  have hsorted := sortedSymbols_getElem? h.count_zero ((h.le (getD_mem hk)).trans_lt (by omega))
    (symbolsOfLength_rankOf hk)
  have hlt := (List.getElem?_eq_some_iff.1 hsorted).1
  rw [(sortedSymbols_lengthsOf_perm h).length_eq, List.length_range] at hlt
  refine symbolOf_of_some ?_
  rw [valOf_codewordOf_sub_baseOf h hkraft hk, memRead?_huffBuild_perm h, if_pos (by omega), Nat.add_sub_cancel_left,
    hsorted, Option.map_some]

end Codeword

/-- Settles O29: at its length the codeword is within LIMIT, and its rank behind the shorter symbols is its index in
PERM; cut short it is above LIMIT, as all codewords of a length come before the longer ones. -/
theorem canonicalCodewordsDecode : Obligations.CanonicalCodewordsDecode := by
  rintro s t _ rfl h hkraft k hk _ _ _ _ rfl rfl rfl rfl
  exact ⟨decode_codewordOf h hkraft hk, fun _ => decode_take_codewordOf h hkraft hk,
    valOf_codewordOf_le_limitOf h hkraft hk, symbolOf_codewordOf h hkraft hk⟩

end Sys2Proof.Machine

/-! READ_TABLES (spec/44_selectors.md R150 to R157, R159): the counts, the selectors and the code lengths, and the
selector a symbol is read with. -/

namespace Sys2Proof.Machine

open Host (Outcome)

/-! ## One entry written (spec/20_memory.md R82) -/

/-- No canonical form is needed for a read behind one write. -/
theorem memRead?_memWrite_eq {α : Type} (m : Mem α) (a : Nat) (v : α) (b : Nat) :
    memRead? (memWrite m a v) b = if b = a then some v else memRead? m b := by
  split
  · next h => rw [h, memRead?_memWrite_self]
  · next h => exact memRead?_memWrite_of_ne m v (Ne.symm h)

/-! ## Selectors (R152, R153) -/

/-- A rank below NTAB: the promoted value is selector k, and the next selector or the first code lengths come. -/
theorem exec_selectorMtf_of_lt {s : State} {r : Nat} (h : r < s.nTab.toNat) :
    exec (.selectorMtf r) s = .next { s with
      selMtf := (promote .selMtf s.selMtf r).2
      mem.sel := memWrite s.mem.sel s.loop.selIdx ((promote .selMtf s.selMtf r).1.setWidth 3)
      loop.selIdx := s.loop.selIdx + 1
      loop.table := if s.loop.selIdx + 1 < s.nSel.toNat then s.loop.table else 0
      pos := if s.loop.selIdx + 1 < s.nSel.toNat then .selector else .clStart } := by
  rw [exec, execSelectorMtf, if_neg (by omega)]
  by_cases hk : s.loop.selIdx + 1 < s.nSel.toNat <;> simp only [hk, if_true, if_false]

/-- A rank of NTAB is none of a table. -/
theorem exec_selectorMtf_of_le {s : State} {r : Nat} (h : s.nTab.toNat ≤ r) :
    exec (.selectorMtf r) s = .next (raise .corruptStream .selectorRank s) := if_pos h

/-- Settles O24: the entry written is the value promote gives. -/
theorem selectorIsPromotedAndStored : Obligations.SelectorIsPromotedAndStored := by
  intro s r v hv
  refine ⟨fun hr => ⟨_, exec_selectorMtf_of_lt hr, fun a => ?_, rfl⟩, exec_selectorMtf_of_le⟩
  obtain ⟨hlen, rfl⟩ := List.getElem?_eq_some_iff.1 hv
  rw [memRead?_memWrite_eq, promote_of_lt .selMtf hlen]

/-! ## Code lengths (R154, R156) -/

/-- The running length stored as the length of the symbol at hand, the next symbol at hand. -/
def storeLength (s : State) : State :=
  { s with mem.len := memWrite s.mem.len (symKey s.loop.table s.loop.symIdx) s.loop.curr,
           loop.symIdx := s.loop.symIdx + 1 }

theorem memRead?_storeLength_len (s : State) (a : Nat) : memRead? (storeLength s).mem.len a =
    if a = 258 * s.loop.table + s.loop.symIdx then some s.loop.curr else memRead? s.mem.len a :=
  memRead?_memWrite_eq _ _ _ _

section DeltaEnd

variable {s : State}

/-- With a symbol of the table left, it comes next. -/
theorem exec_clDeltaEnd_of_symbol (hs : s.loop.symIdx + 1 < alphaSize s) :
    exec .clDeltaEnd s = .next { storeLength s with pos := .clDelta } :=
  congrArg Outcome.next (if_pos hs)

/-- With none but a table left, that comes next. -/
theorem exec_clDeltaEnd_of_table (hs : alphaSize s ≤ s.loop.symIdx + 1) (ht : s.loop.table + 1 < s.nTab.toNat) :
    exec .clDeltaEnd s = .next { storeLength s with loop.table := s.loop.table + 1, pos := .clStart } :=
  congrArg Outcome.next ((if_neg hs.not_gt).trans (if_pos ht))

/-- With neither left, the tables are built and decoding begins. -/
theorem exec_clDeltaEnd_of_last (hs : alphaSize s ≤ s.loop.symIdx + 1) (ht : s.nTab.toNat ≤ s.loop.table + 1) :
    exec .clDeltaEnd s = .next (enterDecode (huffBuildAll (storeLength s))) :=
  congrArg Outcome.next ((if_neg hs.not_gt).trans (if_neg ht.not_gt))

end DeltaEnd

/-- The histogram is empty at the entry to DECODE_MTF_RLE2 (spec/46_symbol_decode.md R180). -/
theorem memRead?_enterDecode_byteCount (s : State) {v : Nat} (hv : v < 256) :
    memRead? (enterDecode s).mem.byteCount v = some 0 :=
  (memRead?_memFill _ _ _ _ _).trans (if_pos (by omega))

/-- Settles O27: by what comes next, a symbol, a table or the decoding; building the tables writes these only. -/
theorem codeLengthIsStored : Obligations.CodeLengthIsStored := by
  intro s
  have hlen := memRead?_storeLength_len s
  rcases lt_or_ge (s.loop.symIdx + 1) (s.used.toNat + 2) with hs | hs
  · exact ⟨_, exec_clDeltaEnd_of_symbol hs, hlen, fun _ => rfl, fun h => absurd hs h.not_gt,
      fun h => absurd hs h.not_gt⟩
  rcases lt_or_ge (s.loop.table + 1) s.nTab.toNat with ht | ht
  · exact ⟨_, exec_clDeltaEnd_of_table hs ht, hlen, fun h => absurd h hs.not_gt, fun _ _ => rfl,
      fun _ h => absurd ht h.not_gt⟩
  · obtain ⟨mn, mx, ba, li, pe, hbuilt⟩ := huffBuildAll_eq (storeLength s)
    have hexec := (exec_clDeltaEnd_of_last hs ht).trans (congrArg (Outcome.next ∘ enterDecode) hbuilt)
    refine ⟨_, hexec, hlen, fun h => absurd h hs.not_gt, fun _ h => absurd h ht.not_gt, fun _ _ u hu => ?_⟩
    obtain rfl := hu.trans hbuilt
    exact ⟨rfl, fun _ => memRead?_enterDecode_byteCount _, rfl, rfl, rfl, rfl⟩

/-! ## The counts and the deltas (R150, R151, R154) -/

/-- Settles O23: each count by its check. -/
theorem tableAndSelectorCounts : Obligations.TableAndSelectorCounts := by
  intro s t n
  refine ⟨fun ht => congrArg Outcome.next (if_pos ht), fun ht => congrArg Outcome.next (if_neg ht), fun hn => ?_,
    fun hn => congrArg Outcome.next (if_pos hn)⟩
  have h0 : n ≠ 0 := by rintro rfl; exact absurd hn (by decide)
  exact congrArg Outcome.next (if_neg h0)

/-- Settles O25: by the meaning of each element. -/
theorem codeLengthDeltas : Obligations.CodeLengthDeltas := fun _ _ => ⟨rfl, rfl, rfl⟩

/-! ## Steps of the core that read no element (R155, R157, R159) -/

/-- With no answer to use and no element due, the core takes its position's own step. -/
theorem coreStep_of_dueSlot_none {s : State} (ha : s.inAnswer = none) (hd : dueSlot s = none) :
    coreStep s = runInternal { s with atCut := false } := by
  have hd' : dueSlot { s with atCut := false } = none := hd
  rw [coreStep_of_none ha, runPos, hd']

/-- Before the first bit of a delta a running length out of range leaves no element due. -/
theorem dueSlot_clDelta_of_outOfRange {s : State} (hp : s.pos = .clDelta) (he : s.loop.elem = [])
    (hr : ¬ (1 ≤ s.loop.curr.toNat ∧ s.loop.curr.toNat ≤ 20)) : dueSlot s = none := by
  have hout : codeLengthInRange s = false := decide_eq_false hr
  simp only [dueSlot, hp, he, hout, and_self, if_true]

/-- Settles O26: no delta is due, so the step at its position is the error. -/
theorem codeLengthIsCheckedBeforeEachDelta : Obligations.CodeLengthIsCheckedBeforeEachDelta := by
  intro s hp he ha hr
  rw [coreStep_of_dueSlot_none ha (dueSlot_clDelta_of_outOfRange hp he hr)]
  simp only [runInternal, hp]
  rfl

/-- The step at the head of nextSymbol() reads no bit. -/
theorem coreStep_of_nextSymbol {s : State} (hp : s.pos = .nextSymbol) (ha : s.inAnswer = none) :
    coreStep s = .next (startSymbol { s with atCut := false }) := by
  rw [coreStep_of_dueSlot_none ha (by simp only [dueSlot, hp])]
  simp only [runInternal, hp]

/-- With a selector for the symbol, its table is taken. -/
theorem startSymbol_of_lt {s : State} {v : BitVec 3} (hg : s.sym.symIdx.toNat / 50 < s.nSel.toNat)
    (hv : memRead? s.mem.sel (s.sym.symIdx.toNat / 50) = some v) :
    startSymbol s = { s with loop.table := v.toNat, loop.elem := [], pos := .codeword } := by
  rw [← memRead_of_some (name := .sel) hv]
  exact if_neg hg.not_ge

/-- With none left, the block has too many symbols. -/
theorem startSymbol_of_le {s : State} (hg : s.nSel.toNat ≤ s.sym.symIdx.toNat / 50) :
    startSymbol s = raise .corruptStream .tooManySymbols s := if_pos hg

/-- Settles O30: with a selector left and with none, the step is nextSymbol()'s head. -/
theorem selectorChoosesTheTable : Obligations.SelectorChoosesTheTable := by
  intro s v hp ha
  rw [coreStep_of_nextSymbol hp ha]
  exact ⟨fun hg hv => congrArg Outcome.next (startSymbol_of_lt (s := { s with atCut := false }) hg hv),
    fun hg => congrArg Outcome.next (startSymbol_of_le (s := { s with atCut := false }) hg)⟩

end Sys2Proof.Machine

/-! READ_HEADER and READ_SYMBOL_MAP (spec/45_block_header.md R165 to R173): the entry to a block, its header's fields, how
SYMMAP is collected, and that every step keeps it ascending. -/

namespace Sys2Proof.Machine

open Host (Outcome)

/-! ## The elements of the symbol map (R169, R170) -/

/-- The j-th bit read of a 16-bit element is its bit 15 - j. -/
theorem getMsbD_sixteen (u : BitVec 16) {j : Nat} (hj : j < 16) : u.getMsbD j = u.getLsbD (15 - j) := by
  rw [BitVec.getMsbD_eq_getLsbD, decide_eq_true hj, Bool.true_and]

/-- The first used range from i on is the one that nextRange gives. -/
theorem nextRange_eq_some {u : BitVec 16} {i j : Nat} (hij : i ≤ j) (hj : j < 16) (hu : u.getLsbD (15 - j) = true)
    (hfirst : ∀ k, i ≤ k → k < j → u.getLsbD (15 - k) = false) : nextRange u i = some j := by
  refine List.find?_range_eq_some.2 ⟨?_, List.mem_range.2 hj, fun k hk => ?_⟩
  · rw [getMsbD_sixteen u hj, hu, decide_eq_true hij, Bool.true_and]
  · by_cases hik : i ≤ k
    · rw [getMsbD_sixteen u (hk.trans hj), hfirst k hik hk, Bool.and_false, Bool.not_false]
    · rw [decide_eq_false hik, Bool.false_and, Bool.not_false]

/-- With no used range from i on it gives none. -/
theorem nextRange_eq_none {u : BitVec 16} {i : Nat} (hu : ∀ k, i ≤ k → k < 16 → u.getLsbD (15 - k) = false) :
    nextRange u i = none := by
  cases h : nextRange u i with
  | none => rfl
  | some j =>
    obtain ⟨hij, hj, hbit, -⟩ := nextRange_some h
    rw [getMsbD_sixteen u hj, hu j hij hj] at hbit
    cases hbit

theorem mem_rangeBytes {i : Nat} (hi : i < 16) (u : BitVec 16) (b : Byte) :
    b ∈ rangeBytes i u ↔ ∃ j < 16, u.getLsbD (15 - j) = true ∧ b.toNat = 16 * i + j := by
  simp only [rangeBytes, List.mem_map, List.mem_filter, List.mem_range]
  refine exists_congr fun j => ⟨?_, ?_⟩
  · rintro ⟨⟨hj, hu⟩, rfl⟩
    exact ⟨hj, getMsbD_sixteen u hj ▸ hu, rangeBytes_toNat hi hj⟩
  · rintro ⟨hj, hu, hb⟩
    exact ⟨⟨hj, (getMsbD_sixteen u hj).trans hu⟩, BitVec.eq_of_toNat_eq ((rangeBytes_toNat hi hj).trans hb.symm)⟩

/-- The values of a range, in increasing order, are one list only. -/
theorem eq_rangeBytes {i : Nat} (hi : i < 16) {u : BitVec 16} {l : List Byte} (hl : l.Pairwise (· < ·))
    (hm : ∀ b : Byte, b ∈ l ↔ ∃ j < 16, u.getLsbD (15 - j) = true ∧ b.toNat = 16 * i + j) : l = rangeBytes i u :=
  hl.eq_of_mem_iff (rangeBytes_sorted hi u).1 fun b => (hm b).trans (mem_rangeBytes hi u b).symm

/-! ## What comes next (R170, R172, R173) -/

theorem toRange_of_some {s : State} {i j : Nat} (h : nextRange s.loop.used16 i = some j) :
    toRange i s = { s with loop.rangeIdx := j, pos := .usedSub } := by
  rw [toRange, h]

theorem toRange_of_none {s : State} {i : Nat} (h : nextRange s.loop.used16 i = none) : toRange i s = endSymbolMap s := by
  rw [toRange, h]

/-- An empty map ends the block. -/
theorem endSymbolMap_of_nil {s : State} (h : s.symMap = []) :
    endSymbolMap s = raise .corruptStream .emptyMap { s with used := 0, regs.usedSyms := 0 } := by
  rw [endSymbolMap, h]
  rfl

/-- A map of 1 to 256 values has a size other than 0 in the 9 bits of USED. -/
theorem endSymbolMap_of_ne_nil {s : State} (h : s.symMap ≠ []) (hl : s.symMap.length ≤ 256) :
    endSymbolMap s = { s with
      used := BitVec.ofNat 9 s.symMap.length, regs.usedSyms := BitVec.ofNat 9 s.symMap.length,
      stage := .readTables, pos := .nTables } := by
  have hpos : 0 < s.symMap.length := List.length_pos_iff.2 h
  refine if_neg fun h0 => ?_
  have hn : s.symMap.length % 512 = 0 := congrArg BitVec.toNat h0
  omega

/-- The state with the values of a range appended to SYMMAP (R170). -/
def appendMap (l : List Byte) (s : State) : State := { s with symMap := s.symMap ++ l }

/-- Settles O22: both elements append to the map, USED_RANGES the empty list to the empty map, and look for the next used
range. -/
theorem symbolMapIsCollected : Obligations.SymbolMapIsCollected := by
  intro s u t0 l i ins h
  obtain ⟨hexec, hstage⟩ : exec ins s = .next (toRange i (appendMap l t0)) ∧ t0.stage = s.stage := by
    rcases h with ⟨rfl, rfl, rfl, rfl⟩ | ⟨rfl, hi, rfl, rfl, hl, hm⟩
    · exact ⟨rfl, rfl⟩
    · rw [eq_rangeBytes hi hl hm]
      exact ⟨rfl, rfl⟩
  rw [hexec, ← hstage]
  refine ⟨fun j hij hj hu hfirst => ?_, fun hnone hlen => ?_⟩
  · exact congrArg Outcome.next (toRange_of_some (s := appendMap l t0) (nextRange_eq_some hij hj hu hfirst))
  rw [toRange_of_none (s := appendMap l t0) (nextRange_eq_none hnone)]
  refine ⟨fun hne => congrArg Outcome.next (endSymbolMap_of_ne_nil (s := appendMap l t0) hne hlen), fun hnil => ?_⟩
  rw [endSymbolMap_of_nil (s := appendMap l t0) hnil, appendMap, hnil]
  rfl

/-! ## The map stays ascending (R171) -/

/-- Away from USED_SUB's position only the map itself counts. -/
theorem SymMapAscending.elsewhere {s : State} (h : s.symMap.Pairwise (· < ·)) (hp : s.pos ≠ .usedSub) :
    SymMapAscending s := ⟨h, fun e => absurd e hp⟩

/-- An operation that branches keeps the map ascending when both its branches do. -/
theorem SymMapAscending.ite {c : Prop} [Decidable c] {x y : State} (hx : SymMapAscending x) (hy : SymMapAscending y) :
    SymMapAscending (if c then x else y) := iteInduction (fun _ => hx) (fun _ => hy)

theorem endSymbolMap_ascending {s : State} (h : s.symMap.Pairwise (· < ·)) : SymMapAscending (endSymbolMap s) :=
  .ite (.elsewhere h nofun) (.elsewhere h nofun)

/-- The range that comes next lies at i or behind it, so above every value below 16 i. -/
theorem toRange_ascending {s : State} {i : Nat} (h : s.symMap.Pairwise (· < ·))
    (hb : ∀ b ∈ s.symMap, b.toNat < 16 * i) : SymMapAscending (toRange i s) := by
  cases hr : nextRange s.loop.used16 i with
  | none => rw [toRange_of_none hr]; exact endSymbolMap_ascending h
  | some j =>
    obtain ⟨hij, hj, -⟩ := nextRange_some hr
    rw [toRange_of_some hr]
    exact ⟨h, fun _ => ⟨hj, fun b hm => (hb b hm).trans_le (Nat.mul_le_mul_left 16 hij)⟩⟩

/-- The values of range i follow those below 16 i, and stay below 16 (i + 1). -/
theorem append_rangeBytes_ascending {m : List Byte} {i : Nat} (hi : i < 16) (hm : m.Pairwise (· < ·))
    (hb : ∀ b ∈ m, b.toNat < 16 * i) (u : BitVec 16) : (m ++ rangeBytes i u).Pairwise (· < ·)
      ∧ ∀ b ∈ m ++ rangeBytes i u, b.toNat < 16 * (i + 1) := by
  obtain ⟨hs, hr⟩ := rangeBytes_sorted hi u
  refine ⟨List.pairwise_append.2 ⟨hm, hs, fun a ha c hc => (hb a ha).trans_le (hr c hc).1⟩, fun b hmem => ?_⟩
  rcases List.mem_append.1 hmem with h | h
  · exact (hb b h).trans_le (Nat.mul_le_mul_left 16 i.le_succ)
  · exact (hr b h).2

/-- Building the tables writes no map. -/
theorem huffBuildAll_symMap (s : State) : (huffBuildAll s).symMap = s.symMap := by
  obtain ⟨mn, mx, ba, li, pe, e⟩ := huffBuildAll_eq s
  rw [e]

theorem flushRun_symMap (s : State) : (flushRun s).symMap = s.symMap := by
  rcases flushRun_cases s with ⟨-, e⟩ | ⟨-, v, -, e⟩ <;> rw [e]

section
variable {s : State} (h : SymMapAscending s)
include h

/-- USED_SUB stands where its range lies above the map so far; USED_RANGES starts a new map; no other element writes the
map or goes to USED_SUB. -/
theorem element_ascending {i : Instr} {t : State} (hi : standsAt s.pos i = true) (e : exec i s = .next t) :
    SymMapAscending t := by
  obtain ⟨hm, hsub⟩ := h
  replace hi := of_decide_eq_true hi
  cases i <;> first
    | cases hi
    | injection hi with hp
  case selectorMtf r =>
    simp only [exec, execSelectorMtf] at e
    split at e <;> injection e with e <;> subst e
    · exact .elsewhere hm nofun
    · exact .ite (.elsewhere hm nofun) (.elsewhere hm nofun)
  all_goals injection e with e; subst e
  case usedRanges u => exact toRange_ascending .nil nofun
  case usedSub u =>
    obtain ⟨hr, hb⟩ := hsub hp.symm
    obtain ⟨hm', hb'⟩ := append_rangeBytes_ascending hr hm hb u
    exact toRange_ascending hm' hb'
  case clDeltaEnd =>
    refine .ite (.elsewhere hm nofun) (.ite (.elsewhere hm nofun) (.elsewhere ?_ nofun))
    exact (huffBuildAll_symMap _).symm ▸ hm
  case lit | eob =>
    have hm' := (flushRun_symMap s).symm ▸ hm
    exact .ite (.elsewhere hm' nofun) (.elsewhere hm' nofun)
  case randomised | nTables | nSelectors | huffmanCodeword | runA | runB =>
    exact .ite (.elsewhere hm nofun) (.elsewhere hm nofun)
  all_goals exact .elsewhere hm nofun

/-- Every move of the core keeps the map ascending: beside the elements none writes the map or goes to USED_SUB. -/
theorem CoreMove.ascending {t : State} (m : CoreMove s t) : SymMapAscending t := by
  cases m with
  | element slot n i _ _ _ _ _ hi he => exact element_ascending (s := { consume n s with loop.elem := [] }) h hi he
  | symbol i _ _ hp hi he => exact element_ascending h (standsAt_of_symbol hp hi) he
  | load | request | keep | readMore | rest => exact h
  | checkCrc => exact .ite (.ite (.elsewhere h.1 nofun) (.elsewhere h.1 nofun)) (.elsewhere h.1 nofun)
  | blockEntry | startSymbol | doneCheck => exact .ite (.elsewhere h.1 nofun) (.elsewhere h.1 nofun)
  | extract =>
    rcases extractTurn_cases s with ⟨-, e⟩ | ⟨-, -, e⟩ | ⟨-, -, e⟩ <;> rw [e] <;> exact .elsewhere h.1 nofun
  | repeatTurn => rcases repeatTurn_cases s with ⟨-, e⟩ | ⟨n, -, e⟩ <;> rw [e] <;> exact .elsewhere h.1 nofun
  | _ => exact .elsewhere h.1 nofun

theorem CommandMove.ascending {w : Word} {t : State} (m : CommandMove w s t) : SymMapAscending t := by
  cases m with
  | reject | nop | clearError => exact h
  | softReset => exact .elsewhere .nil nofun
  | readBits | decodeBlock | checkStreamCrc | clearStreamCrc => exact .elsewhere h.1 nofun

end

/-- Settles O50: each kind of move of a step keeps the map ascending. -/
theorem symMapStaysAscending : Obligations.SymMapStaysAscending := fun _ _ hs e =>
  step_keeps (P := SymMapAscending)
    (schedule := fun _ _ h => h)
    (core := fun s _ h _ m => CoreMove.ascending (s := { s with atCut := false }) h m)
    (host := fun _ _ _ _ h => h)
    (command := fun _ _ _ h _ _ m => m.ascending h)
    (ctrl := fun _ _ h => h)
    (arg := fun _ _ h => h)
    (source := fun _ _ _ h _ _ => h)
    (sink := fun _ h _ => h)
    (assert := fun _ _ => .elsewhere .nil nofun)
    (release := fun _ h => h)
    hs e

/-! ## The entry to a block (R165) -/

/-- A ready core accepts DECODE_BLOCK. -/
theorem exec_decodeBlock_of_ready {s : State} (h : ready s = true) : exec .decodeBlock s = .next
    (accept .readHeader .blockEntry { s with
      bsLatch := s.ctrl.blockSize, crcAcc := Config.crcSeed, regs.outCount := 0, sym.symIdx := 0, sym.bwtLen := 0 }) :=
  congrArg Outcome.next (if_pos h)

/-- The first step behind the acceptance checks the latch. -/
theorem coreStep_of_blockEntry {s : State} (hp : s.pos = .blockEntry) (ha : s.inAnswer = none) :
    coreStep s = .next (checkBlockSize { s with atCut := false }) := by
  rw [coreStep_of_dueSlot_none ha (by simp only [dueSlot, hp])]
  simp only [runInternal, hp]

/-- Settles O6: the acceptance, and its first step with a latch in range and with one out of range. -/
theorem decodeBlockEntersReadHeader : Obligations.DecodeBlockEntersReadHeader := by
  intro s hb hk ha
  exact ⟨_, _, exec_decodeBlock_of_ready ((ready_iff s).2 ⟨hb, hk⟩), rfl, coreStep_of_blockEntry rfl ha,
    fun hbs => if_pos hbs, fun hbs => if_neg hbs⟩

/-! ## The header's fields (R166 to R168) -/

/-- EXPECTED_CRC's halves side by side are its value. -/
theorem crcHalves_eq (hi lo : BitVec 16) : hi ++ lo = BitVec.ofNat 32 (hi.toNat * 65536 + lo.toNat) := by
  apply BitVec.eq_of_toNat_eq
  have := hi.isLt
  have := lo.isLt
  rw [BitVec.toNat_append, ← Nat.shiftLeft_add_eq_or_of_lt lo.isLt, Nat.shiftLeft_eq, BitVec.toNat_ofNat]
  omega

/-- Settles O21: by the meaning of each element, and the value of the CRC's two halves. -/
theorem headerFieldsAreTaken : Obligations.HeaderFieldsAreTaken := by
  intro s hi lo p
  refine ⟨⟨_, rfl, rfl, ?_⟩, rfl, rfl, rfl, rfl⟩
  rw [← crcHalves_eq]
  rfl

end Sys2Proof.Machine

/-! Symbol decoding (spec/46_symbol_decode.md R181 to R190): run symbols and the length they spell, what the flush of a
run, LIT and EOB leave in the buffer and the histogram, and that every step keeps the buffer legal. -/

namespace Sys2Proof.Machine

open Host (Outcome)

/-! ## Run symbols (R181 to R183) -/

/-- A run that fits the buffer goes on. -/
theorem addRun_of_le {n : Word} {s : State}
    (h : s.sym.bwtLen.toNat + (s.sym.runLen + n).toNat ≤ s.cap.toNat) : addRun n s = { s with
      sym.runLen := s.sym.runLen + n, sym.runBit := s.sym.runBit <<< 1, pos := .nextSymbol } :=
  if_neg h.not_gt

/-- A run that does not is an error, the two registers updated. -/
theorem addRun_of_lt {n : Word} {s : State}
    (h : s.cap.toNat < s.sym.bwtLen.toNat + (s.sym.runLen + n).toNat) : addRun n s =
      raise .corruptStream .bwtOverflow { s with
        sym.runLen := s.sym.runLen + n, sym.runBit := s.sym.runBit <<< 1 } :=
  if_pos h

/-- Settles O32: both symbols add to the run, and the run fits or does not. -/
theorem runSymbolsExtendTheRun : Obligations.RunSymbolsExtendTheRun := by
  intro s i n h
  have hexec : exec i s = .next (addRun n s) := by rcases h with ⟨rfl, rfl⟩ | ⟨rfl, rfl⟩ <;> rfl
  rw [hexec]
  exact ⟨fun hle => congrArg Outcome.next (addRun_of_le hle), fun hlt => congrArg Outcome.next (addRun_of_lt hlt)⟩

/-! ## The length that run symbols spell (R189) -/

/-- What the run symbol d adds to the run, RUN_BIT being b. -/
def runStep (b : Word) (d : Bool) : Word := b * BitVec.ofNat 32 (d.toNat + 1)

theorem shiftLeft_one_eq_mul (b : Word) : b <<< 1 = b * BitVec.ofNat 32 2 := BitVec.shiftLeft_eq_mul_twoPow b 1

theorem exec_runInstr (d : Bool) (s : State) : exec (runInstr d) s = .next (addRun (runStep s.sym.runBit d) s) := by
  cases d with
  | false => exact congrArg (fun n => Outcome.next (addRun n s)) (BitVec.mul_one _).symm
  | true => exact congrArg (fun n => Outcome.next (addRun n s)) (shiftLeft_one_eq_mul _)

theorem toNat_mul_ofNat_le (b : Word) (n : Nat) : (b * BitVec.ofNat 32 n).toNat ≤ b.toNat * n := by
  rw [BitVec.toNat_mul, BitVec.toNat_ofNat]
  exact (Nat.mod_le _ _).trans (Nat.mul_le_mul_left _ (Nat.mod_le _ _))

theorem toNat_add_le (a b : Word) : (a + b).toNat ≤ a.toNat + b.toNat :=
  (BitVec.toNat_add a b).trans_le (Nat.mod_le _ _)

/-- The state with the pending run's registers at these values. -/
def setRun (runLen runBit : Word) (s : State) : State := { s with sym.runLen := runLen, sym.runBit := runBit }

/-- A run symbol whose run fits the buffer changes these registers only. -/
theorem exec_runInstr_of_le {d : Bool} {s : State} (hp : s.pos = .nextSymbol)
    (h : s.sym.bwtLen.toNat + (s.sym.runLen + runStep s.sym.runBit d).toNat ≤ s.cap.toNat) :
    exec (runInstr d) s = .next (setRun (s.sym.runLen + runStep s.sym.runBit d) (s.sym.runBit <<< 1) s) := by
  rw [exec_runInstr, addRun_of_le h, ← hp]
  rfl

/-- Run symbols add RUN_BIT times the length they spell, and double RUN_BIT each. -/
theorem execAll_runInstr (ds : List Bool) : ∀ s : State, s.pos = .nextSymbol →
    s.sym.bwtLen.toNat + (s.sym.runLen.toNat + s.sym.runBit.toNat * runValue ds) ≤ s.cap.toNat →
    execAll (ds.map runInstr) s = .next (setRun (s.sym.runLen + s.sym.runBit * BitVec.ofNat 32 (runValue ds))
      (s.sym.runBit * BitVec.ofNat 32 (2 ^ ds.length)) s) := by
  induction ds with
  | nil =>
    intro s _ _
    simp [execAll, runValue, setRun]
  | cons d ds ih =>
    intro s hp hfit
    have hstep : (runStep s.sym.runBit d).toNat ≤ s.sym.runBit.toNat * (d.toNat + 1) := toNat_mul_ofNat_le _ _
    have hlen := toNat_add_le s.sym.runLen (runStep s.sym.runBit d)
    have hbit : (s.sym.runBit <<< 1).toNat * runValue ds ≤ s.sym.runBit.toNat * (2 * runValue ds) := by
      rw [shiftLeft_one_eq_mul, ← Nat.mul_assoc]
      exact Nat.mul_le_mul_right _ (toNat_mul_ofNat_le _ _)
    rw [runValue, Nat.mul_add] at hfit
    have hexec := exec_runInstr_of_le (d := d) hp (by omega)
    have hrest := ih (setRun (s.sym.runLen + runStep s.sym.runBit d) (s.sym.runBit <<< 1) s) hp
      (by simp only [setRun]; omega)
    have hsum : s.sym.runLen + runStep s.sym.runBit d + s.sym.runBit <<< 1 * BitVec.ofNat 32 (runValue ds)
        = s.sym.runLen + s.sym.runBit * BitVec.ofNat 32 (runValue (d :: ds)) := by
      rw [runStep, shiftLeft_one_eq_mul, BitVec.mul_assoc, ← BitVec.ofNat_mul, BitVec.add_assoc, ← BitVec.mul_add,
        ← BitVec.ofNat_add, runValue]
    have hpow : s.sym.runBit <<< 1 * BitVec.ofNat 32 (2 ^ ds.length)
        = s.sym.runBit * BitVec.ofNat 32 (2 ^ (d :: ds).length) := by
      rw [shiftLeft_one_eq_mul, BitVec.mul_assoc, ← BitVec.ofNat_mul, List.length_cons, Nat.pow_succ']
    rw [List.map_cons, execAll, hexec, ← hsum, ← hpow]
    exact hrest

/-- Every length has a spelling: the digit in front is 1 for an odd predecessor. -/
theorem runValue_surjective : Function.Surjective runValue := by
  intro n
  induction n using Nat.strong_induction_on with
  | _ n ih =>
    cases n with
    | zero => exact ⟨[], rfl⟩
    | succ m =>
      have hm := Nat.bodd_add_div2 m
      obtain ⟨ds, hds⟩ := ih m.div2 (by omega)
      exact ⟨m.bodd :: ds, by rw [runValue, hds]; omega⟩

/-- The digit in front is told by the length's parity, so two spellings of a length agree digit by digit. -/
theorem runValue_injective : Function.Injective runValue := by
  intro ds
  induction ds with
  | nil =>
    intro es h
    cases es with
    | nil => rfl
    | cons e es => rw [runValue, runValue] at h; omega
  | cons d ds ih =>
    intro es h
    cases es with
    | nil => rw [runValue, runValue] at h; omega
    | cons e es =>
      rw [runValue, runValue] at h
      have hd := d.toNat_le
      have he := e.toNat_le
      have hde : d.toNat = 1 ↔ e.toNat = 1 := by omega
      obtain rfl : d = e := Bool.eq_iff_iff.2 (by rwa [Bool.toNat_eq_one, Bool.toNat_eq_one] at hde)
      rw [ih (by omega : runValue ds = runValue es)]

/-- Settles O33: from an empty run RUN_BIT is 1 and the run is the length spelled; runValue is a bijection. -/
theorem runsAreBijectiveNumerals : Obligations.RunsAreBijectiveNumerals := by
  refine ⟨fun ds s hp hlen hbit _ hfit => ?_, fun n => ?_⟩
  · rw [execAll_runInstr ds s hp (by simpa [hlen, hbit] using hfit), hlen, hbit]
    simp [setRun]
  · exact Function.Bijective.existsUnique ⟨runValue_injective, runValue_surjective⟩ n

/-! ## Bytes stored behind the buffer (R184, R186) -/

/-- t's buffer is s's with n bytes b stored and counted behind it. -/
structure Stored (b : Byte) (n : Nat) (s t : State) : Prop where
  bwt : ∀ a, memRead? t.mem.bwt a =
    if s.sym.bwtLen.toNat ≤ a ∧ a < s.sym.bwtLen.toNat + n then some b else memRead? s.mem.bwt a
  byteCount : ∀ a, memRead? t.mem.byteCount a =
    if a = b.toNat then some (memRead .byteCount s.mem.byteCount b.toNat + BitVec.ofNat 20 n)
    else memRead? s.mem.byteCount a
  bwtLen : t.sym.bwtLen = BitVec.ofNat 20 (s.sym.bwtLen.toNat + n)

theorem add_ofNat_eq (x : BitVec 20) (n : Nat) : x + BitVec.ofNat 20 n = BitVec.ofNat 20 (x.toNat + n) := by
  rw [BitVec.ofNat_add, BitVec.ofNat_toNat, BitVec.setWidth_eq]

theorem Stored.bwtLen_toNat {b : Byte} {n : Nat} {s t : State} (h : Stored b n s t)
    (hfit : s.sym.bwtLen.toNat + n < 2 ^ 20) : t.sym.bwtLen.toNat = s.sym.bwtLen.toNat + n := by
  rw [h.bwtLen, BitVec.toNat_ofNat, Nat.mod_eq_of_lt hfit]

theorem toNat_ne_of_ne {v w : Byte} (h : v ≠ w) : v.toNat ≠ w.toNat := fun e => h (BitVec.eq_of_toNat_eq e)

theorem Stored.byteCount_self {b : Byte} {n : Nat} {s t : State} {c : BitVec 20} (h : Stored b n s t)
    (hc : memRead? s.mem.byteCount b.toNat = some c) :
    memRead? t.mem.byteCount b.toNat = some (c + BitVec.ofNat 20 n) := by
  rw [h.byteCount, if_pos rfl, memRead_of_some hc]

theorem Stored.byteCount_of_ne {b : Byte} {n : Nat} {s t : State} {a : Nat} (h : Stored b n s t) (ha : a ≠ b.toNat) :
    memRead? t.mem.byteCount a = memRead? s.mem.byteCount a := (h.byteCount a).trans (if_neg ha)

/-- A byte is counted once more for each time it is stored. -/
theorem Stored.byteCount_of_some {b v : Byte} {n : Nat} {s t : State} {c : BitVec 20} (h : Stored b n s t)
    (hc : memRead? s.mem.byteCount v.toNat = some c) :
    memRead? t.mem.byteCount v.toNat = some (c + BitVec.ofNat 20 (if v = b then n else 0)) := by
  by_cases hv : v = b
  · subst hv
    rw [if_pos rfl, h.byteCount_self hc]
  · rw [if_neg hv, h.byteCount_of_ne (toNat_ne_of_ne hv), hc, BitVec.add_zero]

/-- The byte of a pending run, SYMMAP[front(LIT_MTF)]. -/
def runByte (s : State) : Byte := symMapAt s (front .litMtf s.litMtf).toNat

theorem runByte_of_some {s : State} {r v : Byte} (hr : s.litMtf[0]? = some r) (hv : s.symMap[r.toNat]? = some v) :
    runByte s = v := by
  simp [runByte, symMapAt, front, List.head?_eq_getElem?, hr, hv]

/-- The flush stores the run's bytes, an empty run's too: it has none. -/
theorem flushRun_stored {s : State} {c : BitVec 20} (hc : memRead? s.mem.byteCount (runByte s).toNat = some c) :
    Stored (runByte s) s.sym.runLen.toNat s (flushRun s) := by
  rcases flushRun_cases s with ⟨h0, e⟩ | ⟨-, v, rfl, e⟩ <;> rw [e]
  · have hn : s.sym.runLen.toNat = 0 := congrArg BitVec.toNat h0
    refine ⟨fun a => ?_, fun a => ?_, ?_⟩
    · rw [hn, if_neg (by omega)]
    · rw [hn, memRead_of_some hc]
      split
      · next ha => rw [ha, hc]; simp
      · rfl
    · rw [hn, ← add_ofNat_eq]; simp
  · exact ⟨fun a => memRead?_memFill _ _ _ _ a,
      fun a => by rw [BitVec.ofNat_toNat]; exact memRead?_memWrite_eq _ _ _ a,
      by rw [← add_ofNat_eq, BitVec.ofNat_toNat]⟩

theorem flushRun_stored_of_some {s : State} {r v : Byte} {c : BitVec 20} (hr : s.litMtf[0]? = some r)
    (hv : s.symMap[r.toNat]? = some v) (hc : memRead? s.mem.byteCount v.toNat = some c) :
    Stored v s.sym.runLen.toNat s (flushRun s) := by
  obtain rfl := runByte_of_some hr hv
  exact flushRun_stored hc

/-- Behind the flush the run is empty, and nothing but the buffer and the histogram has changed. -/
theorem flushRun_eq (s : State) : ∃ bwt byteCount, flushRun s = { s with
    sym.bwtLen := BitVec.ofNat 20 (s.sym.bwtLen.toNat + s.sym.runLen.toNat), sym.runLen := 0,
    sym.runBit := if s.sym.runLen.toNat = 0 then s.sym.runBit else 1,
    mem := { s.mem with bwt := bwt, byteCount := byteCount } } := by
  rcases flushRun_cases s with ⟨h, e⟩ | ⟨h, v, -, e⟩ <;> rw [e]
  · have hn : s.sym.runLen.toNat = 0 := congrArg BitVec.toNat h
    refine ⟨s.mem.bwt, s.mem.byteCount, ?_⟩
    rw [if_pos hn, hn, Nat.add_zero, BitVec.ofNat_toNat, BitVec.setWidth_eq, ← h]
  · have hn : s.sym.runLen.toNat ≠ 0 := fun h0 => h (BitVec.eq_of_toNat_eq h0)
    rw [if_neg hn, ← add_ofNat_eq, BitVec.ofNat_toNat]
    exact ⟨_, _, rfl⟩

/-! ## LIT (R185, R186) -/

/-- The byte of LIT v: SYMMAP of the rank that promote gives. -/
def literalByte (v : BitVec 9) (s : State) : Byte := symMapAt s (promote .litMtf s.litMtf (v.toNat - 1)).1.toNat

/-- With room, the byte is stored behind the buffer and LIT_MTF promoted. -/
theorem literal_of_lt {v : BitVec 9} {s : State} (h : s.sym.bwtLen.toNat < s.cap.toNat) : literal v s = { s with
    litMtf := (promote .litMtf s.litMtf (v.toNat - 1)).2
    mem.byteCount := memWrite s.mem.byteCount (literalByte v s).toNat
      (memRead .byteCount s.mem.byteCount (literalByte v s).toNat + 1)
    mem.bwt := memWrite s.mem.bwt s.sym.bwtLen.toNat (literalByte v s)
    sym.bwtLen := s.sym.bwtLen + 1, pos := .nextSymbol } := if_neg (by omega)

/-- Without room, nothing is. -/
theorem literal_of_le {v : BitVec 9} {s : State} (h : s.cap.toNat ≤ s.sym.bwtLen.toNat) :
    literal v s = raise .corruptStream .bwtOverflow s := if_pos (by omega)

theorem literal_stored {v : BitVec 9} {s : State} (h : s.sym.bwtLen.toNat < s.cap.toNat) :
    Stored (literalByte v s) 1 s (literal v s) := by
  rw [literal_of_lt h]
  refine ⟨fun a => ?_, fun a => memRead?_memWrite_eq _ _ _ a, add_ofNat_eq _ 1⟩
  rw [memRead?_memWrite_eq]
  exact if_congr (by omega) rfl rfl

theorem literalByte_of_some {v : BitVec 9} {s : State} {r b : Byte} (hr : s.litMtf[v.toNat - 1]? = some r)
    (hb : s.symMap[r.toNat]? = some b) : literalByte v s = b := by
  simp [literalByte, symMapAt, promote, hr, hb]

/-- With room behind the run, nothing changes but the buffer, the histogram, the run and LIT_MTF. -/
theorem literal_flushRun_eq {v : BitVec 9} {s : State} {r : Byte} (hr : s.litMtf[v.toNat - 1]? = some r)
    (h : (flushRun s).sym.bwtLen.toNat < (flushRun s).cap.toNat) : ∃ bwt byteCount, literal v (flushRun s) = { s with
      litMtf := r :: s.litMtf.eraseIdx (v.toNat - 1)
      sym.bwtLen := BitVec.ofNat 20 (s.sym.bwtLen.toNat + s.sym.runLen.toNat + 1), sym.runLen := 0
      sym.runBit := if s.sym.runLen.toNat = 0 then s.sym.runBit else 1, pos := .nextSymbol
      mem := { s.mem with bwt := bwt, byteCount := byteCount } } := by
  have hpromote : (promote .litMtf s.litMtf (v.toNat - 1)).2 = r :: s.litMtf.eraseIdx (v.toNat - 1) := by
    rw [promote, hr]
  obtain ⟨bwt, byteCount, e⟩ := flushRun_eq s
  rw [literal_of_lt h, e, ← hpromote, BitVec.ofNat_add (s.sym.bwtLen.toNat + s.sym.runLen.toNat)]
  exact ⟨_, _, rfl⟩

/-- Settles O34: the flush, and behind it the literal with room and without. -/
theorem literalIsStoredBehindTheRun : Obligations.LiteralIsStoredBehindTheRun := by
  rintro s sym r r0 v v0 _ _ c c0 rfl rfl hcap hfit - - hr hv hr0 hv0 hc hc0
  have hrun := flushRun_stored_of_some hr0 hv0 hc0
  have hlen := hrun.bwtLen_toNat (by omega)
  have hcv := hrun.byteCount_of_some hc
  obtain ⟨bwt, byteCount, hflush⟩ := flushRun_eq s
  have hcap' : (flushRun s).cap.toNat = s.cap.toNat := congrArg BitVec.toNat (flushRun_frame s).cap
  rcases lt_or_ge (flushRun s).sym.bwtLen.toNat (flushRun s).cap.toNat with hroom | hfull
  · have hbyte : literalByte sym (flushRun s) = v := by rw [hflush]; exact literalByte_of_some hr hv
    have hlit : Stored v 1 (flushRun s) (literal sym (flushRun s)) := hbyte ▸ literal_stored hroom
    refine ⟨_, rfl, fun a ha ha0 => (hlit.byteCount_of_ne ha).trans (hrun.byteCount_of_ne ha0),
      fun hne => (hlit.byteCount_of_ne (toNat_ne_of_ne hne.symm)).trans (hrun.byteCount_self hc0),
      fun _ => ⟨fun a => ?_, ?_, ?_⟩, fun h => by omega⟩
    · rw [hlit.bwt, hrun.bwt, hlen]
      exact if_congr (by omega) rfl rfl
    · rw [hlit.byteCount_self hcv, BitVec.add_assoc, ← BitVec.ofNat_add]
    · obtain ⟨_, _, e⟩ := literal_flushRun_eq hr hroom
      rw [e]
  · rw [exec, execLit, literal_of_le hfull]
    refine ⟨_, rfl, fun a _ ha0 => hrun.byteCount_of_ne ha0, fun _ => hrun.byteCount_self hc0, fun h => by omega,
      fun _ => ⟨hrun.bwt, hcv, ?_⟩⟩
    rw [hflush]
    rfl

/-! ## EOB (R187, R188) -/

/-- With ORIG_PTR inside the buffer the block is closed. -/
theorem endDecode_of_lt {s : State} (h : s.regs.origPtr.toNat < s.sym.bwtLen.toNat) : endDecode s = { s with
    regs.bwtLenReg := s.sym.bwtLen, stage := .buildBucketArray, pos := .bucketBuild } := if_neg h.not_ge

/-- With ORIG_PTR outside it is in error, BWT_LEN written. -/
theorem endDecode_of_le {s : State} (h : s.sym.bwtLen.toNat ≤ s.regs.origPtr.toNat) : endDecode s =
    raise .corruptStream .origPtrRange { s with regs.bwtLenReg := s.sym.bwtLen } := if_pos h

/-- Settles O35: the flush, and behind it ORIG_PTR inside the buffer and outside. -/
theorem endOfBlockClosesTheBuffer : Obligations.EndOfBlockClosesTheBuffer := by
  rintro s r0 v0 _ _ c0 rfl rfl hcap hfit hr0 hv0 hc0
  have hrun := flushRun_stored_of_some hr0 hv0 hc0
  have hlen := hrun.bwtLen_toNat (by omega)
  have hcount := hrun.byteCount
  rw [memRead_of_some hc0] at hcount
  obtain ⟨bwt, byteCount, hflush⟩ := flushRun_eq s
  have hptr : (flushRun s).regs.origPtr.toNat = s.regs.origPtr.toNat := by rw [hflush]
  rcases lt_or_ge (flushRun s).regs.origPtr.toNat (flushRun s).sym.bwtLen.toNat with hin | hout
  · rw [exec, execEob, endDecode_of_lt hin]
    refine ⟨_, rfl, hrun.bwt, hcount, fun _ => ?_, fun h => by omega⟩
    rw [hflush]
  · rw [exec, execEob, endDecode_of_le hout]
    refine ⟨_, rfl, hrun.bwt, hcount, fun h => by omega, fun _ => ?_⟩
    rw [hflush]
    rfl

/-! ## The histogram (R190) -/

theorem bwtCount_le (s : State) (n : Nat) (v : Byte) : bwtCount s n v ≤ n :=
  (List.length_filter_le _ _).trans_eq List.length_range

theorem bwtCount_succ (s : State) (n : Nat) (v : Byte) :
    bwtCount s (n + 1) v = bwtCount s n v + if memRead? s.mem.bwt n = some v then 1 else 0 := by
  unfold bwtCount
  rw [List.range_succ, List.filter_append, List.length_append, List.filter_singleton]
  split <;> simp_all

theorem bwtCount_congr {s t : State} {n : Nat} (h : ∀ i < n, memRead? t.mem.bwt i = memRead? s.mem.bwt i) (v : Byte) :
    bwtCount t n v = bwtCount s n v :=
  congrArg List.length (List.filter_congr fun i hi => by rw [h i (List.mem_range.1 hi)])

/-- Of the bytes stored each is one more of b and none of any other. -/
theorem Stored.bwtCount_eq {b : Byte} {n : Nat} {s t : State} (h : Stored b n s t) (v : Byte) {k : Nat} (hk : k ≤ n) :
    bwtCount t (s.sym.bwtLen.toNat + k) v = bwtCount s s.sym.bwtLen.toNat v + if b = v then k else 0 := by
  induction k with
  | zero =>
    rw [ite_self]
    exact bwtCount_congr (fun i hi => (h.bwt i).trans (if_neg (by omega))) v
  | succ k ih =>
    have hread : memRead? t.mem.bwt (s.sym.bwtLen.toNat + k) = some b := (h.bwt _).trans (if_pos (by omega))
    rw [← Nat.add_assoc, bwtCount_succ, ih (by omega), hread]
    by_cases hb : b = v <;> simp [hb, Nat.add_assoc]

/-- Bytes stored and counted keep the histogram, in a buffer whose length fits its register. -/
theorem HistogramRight.stored {b : Byte} {n : Nat} {s t : State} (h : HistogramRight s) (hs : Stored b n s t)
    (hfit : s.sym.bwtLen.toNat + n < 2 ^ 20) : HistogramRight t := by
  obtain ⟨hwritten, hcount⟩ := h
  rw [HistogramRight, hs.bwtLen_toNat hfit]
  refine ⟨fun i hi => ?_, fun v => ?_⟩
  · rw [hs.bwt]
    split
    · rfl
    · exact hwritten i (by omega)
  · obtain ⟨c, hc, hv⟩ := hcount v
    have hle := bwtCount_le s s.sym.bwtLen.toNat v
    refine ⟨_, hs.byteCount_of_some hc, ?_⟩
    rw [BitVec.toNat_add, BitVec.toNat_ofNat, hv, hs.bwtCount_eq v le_rfl]
    by_cases hb : b = v
    · rw [if_pos hb, if_pos hb.symm]
      omega
    · rw [if_neg hb, if_neg (Ne.symm hb)]
      omega

/-! ## The buffer stays legal (R183, R187, R188, R190) -/

/-- The block's data while its symbols are decoded, wherever the core stands. -/
structure SymbolsLegal (s : State) : Prop where
  cap : s.cap.toNat ≤ 900000
  fits : s.sym.bwtLen.toNat + s.sym.runLen.toNat ≤ s.cap.toNat
  runBit : s.sym.runBit.toNat ≤ s.sym.runLen.toNat + 1
  histogram : HistogramRight s

/-- The block's data behind EOB, wherever the core stands. -/
structure BlockLegal (s : State) : Prop where
  cap : s.cap.toNat ≤ 900000
  fits : s.sym.bwtLen.toNat ≤ s.cap.toNat
  histogram : HistogramRight s
  origPtr : s.regs.origPtr.toNat < s.sym.bwtLen.toNat
  bwtLenReg : s.regs.bwtLenReg = s.sym.bwtLen

theorem BufferLegal.cap {s : State} (h : BufferLegal s) : s.cap.toNat ≤ 900000 := h.runs.1

theorem BufferLegal.symbols {s : State} (h : BufferLegal s) (hp : decodingSymbols s.pos = true) : SymbolsLegal s :=
  have ⟨hfits, hbit⟩ := h.runs.2 hp
  ⟨h.cap, hfits, hbit, h.histogram (.inl hp)⟩

theorem BufferLegal.block {s : State} (h : BufferLegal s) (hp : behindSymbols s.pos = true) : BlockLegal s :=
  have ⟨hptr, hreg⟩ := h.closed hp
  ⟨h.cap, h.fits hp, h.histogram (.inr hp), hptr, hreg⟩

/-- A position is not both. -/
theorem behindSymbols_of_decoding {p : Pos} (h : decodingSymbols p = true) : behindSymbols p = false := by
  cases p <;> first | rfl | cases h

theorem SymbolsLegal.buffer {s : State} (h : SymbolsLegal s) (hp : decodingSymbols s.pos = true) : BufferLegal s :=
  have hb : ¬ behindSymbols s.pos = true := by simp [behindSymbols_of_decoding hp]
  ⟨⟨h.cap, fun _ => ⟨h.fits, h.runBit⟩⟩, fun _ => h.histogram, fun e => absurd e hb, fun e => absurd e hb⟩

theorem BlockLegal.buffer {s : State} (h : BlockLegal s) (hp : behindSymbols s.pos = true) : BufferLegal s :=
  have hd : ¬ decodingSymbols s.pos = true := fun e => by simp [behindSymbols_of_decoding e] at hp
  ⟨⟨h.cap, fun e => absurd e hd⟩, fun _ => h.histogram, fun _ => h.fits, fun _ => ⟨h.origPtr, h.bwtLenReg⟩⟩

/-- Before the symbols, and with no block, only CAP counts. -/
theorem BufferLegal.elsewhere {s : State} (h : s.cap.toNat ≤ 900000)
    (hp : (decodingSymbols s.pos || behindSymbols s.pos) = false) : BufferLegal s := by
  obtain ⟨hd, hb⟩ := Bool.or_eq_false_iff.1 hp
  exact ⟨⟨h, by simp [hd]⟩, by simp [hd, hb], by simp [hb], by simp [hb]⟩

/-- An operation that branches keeps the buffer legal when both its branches do. -/
theorem BufferLegal.ite {c : Prop} [Decidable c] {x y : State} (hx : BufferLegal x) (hy : BufferLegal y) :
    BufferLegal (if c then x else y) := iteInduction (fun _ => hx) (fun _ => hy)

/-! ### Elements -/

/-- The entry to DECODE_MTF_RLE2: no byte and no run, and every count 0 (R180). -/
theorem enterDecode_symbols {s : State} (h : s.cap.toNat ≤ 900000) : SymbolsLegal (enterDecode s) where
  cap := h
  fits := Nat.zero_le _
  runBit := le_rfl
  histogram := ⟨nofun, fun v => ⟨0, memRead?_enterDecode_byteCount s v.isLt, rfl⟩⟩

section
variable {s : State} (h : SymbolsLegal s)
include h

/-- A run of at most 900000 and twice its RUN_BIT still add up in 32 bits, so the check behind them is exact. -/
theorem addRun_buffer {n : Word} (hn : n = s.sym.runBit ∨ n = s.sym.runBit <<< 1) : BufferLegal (addRun n s) := by
  obtain ⟨hcap, hfits, hbit, hhist⟩ := h
  have hdouble : (s.sym.runBit <<< 1).toNat = s.sym.runBit.toNat * 2 := by
    rw [shiftLeft_one_eq_mul, BitVec.toNat_mul]
    exact Nat.mod_eq_of_lt (by simp only [BitVec.toNat_ofNat]; omega)
  have hstep : s.sym.runBit.toNat ≤ n.toNat ∧ n.toNat ≤ s.sym.runBit.toNat * 2 := by
    rcases hn with rfl | rfl <;> omega
  have hsum : (s.sym.runLen + n).toNat = s.sym.runLen.toNat + n.toNat := by
    rw [BitVec.toNat_add]
    exact Nat.mod_eq_of_lt (by omega)
  rcases lt_or_ge s.cap.toNat (s.sym.bwtLen.toNat + (s.sym.runLen + n).toNat) with hlt | hle
  · rw [addRun_of_lt hlt]
    exact .elsewhere hcap rfl
  · rw [addRun_of_le hle]
    refine SymbolsLegal.buffer ⟨hcap, hle, ?_, hhist⟩ rfl
    show (s.sym.runBit <<< 1).toNat ≤ (s.sym.runLen + n).toNat + 1
    omega

/-- The flush moves the run into the buffer. -/
theorem flushRun_symbols : SymbolsLegal (flushRun s) ∧ (flushRun s).sym.runLen = 0 := by
  obtain ⟨hcap, hfits, hbit, hhist⟩ := h
  obtain ⟨c, hc, -⟩ := hhist.2 (runByte s)
  have hrun := flushRun_stored hc
  have hlen := hrun.bwtLen_toNat (by omega)
  have hhist' := hhist.stored hrun (by omega)
  obtain ⟨bwt, byteCount, e⟩ := flushRun_eq s
  have h0 : (flushRun s).sym.runLen = 0 := by rw [e]
  have hbit' : (flushRun s).sym.runBit = if s.sym.runLen.toNat = 0 then s.sym.runBit else 1 := by rw [e]
  have hcap' : (flushRun s).cap.toNat = s.cap.toNat := congrArg BitVec.toNat (flushRun_frame s).cap
  refine ⟨⟨hcap'.trans_le hcap, ?_, ?_, hhist'⟩, h0⟩
  · rw [hlen, hcap', h0]
    exact hfits
  · rw [hbit', h0]
    split
    · next hn => rw [hn] at hbit; exact hbit
    · exact le_rfl

theorem literal_buffer (h0 : s.sym.runLen = 0) (v : BitVec 9) : BufferLegal (literal v s) := by
  obtain ⟨hcap, -, hbit, hhist⟩ := h
  rcases lt_or_ge s.sym.bwtLen.toNat s.cap.toNat with hroom | hfull
  · have hlit : Stored (literalByte v s) 1 s (literal v s) := literal_stored hroom
    have hlen := hlit.bwtLen_toNat (by omega)
    have hhist' := hhist.stored hlit (by omega)
    rw [literal_of_lt hroom] at hlen hhist' ⊢
    refine SymbolsLegal.buffer ⟨hcap, ?_, hbit, hhist'⟩ rfl
    rw [hlen]
    simp only [h0]
    exact hroom
  · rw [literal_of_le hfull]
    exact .elsewhere hcap rfl

/-- ORIG_PTR lies inside a closed buffer (R188). -/
theorem endDecode_buffer : BufferLegal (endDecode s) := by
  obtain ⟨hcap, hfits, -, hhist⟩ := h
  rcases lt_or_ge s.regs.origPtr.toNat s.sym.bwtLen.toNat with hin | hout
  · rw [endDecode_of_lt hin]
    exact BlockLegal.buffer ⟨hcap, (Nat.le_add_right _ _).trans hfits, hhist, hin, rfl⟩ rfl
  · rw [endDecode_of_le hout]
    exact .elsewhere hcap rfl

end

theorem toRange_buffer {s : State} (h : s.cap.toNat ≤ 900000) (i : Nat) : BufferLegal (toRange i s) := by
  unfold toRange
  split
  · exact .elsewhere h rfl
  · exact .ite (.elsewhere h rfl) (.elsewhere h rfl)

section
variable {s : State} (h : BufferLegal s)
include h

/-- A codeword and the symbol classes stand where symbols are decoded; of the other elements only the last code length
goes there. -/
theorem element_buffer {i : Instr} {t : State} (hi : standsAt s.pos i = true) (e : exec i s = .next t) :
    BufferLegal t := by
  have hcap := h.cap
  replace hi := of_decide_eq_true hi
  cases i <;> first
    | cases hi
    | injection hi with hp
  case selectorMtf r =>
    simp only [exec, execSelectorMtf] at e
    split at e <;> injection e with e <;> subst e
    · exact .elsewhere hcap rfl
    · exact .ite (.elsewhere hcap rfl) (.elsewhere hcap rfl)
  all_goals injection e with e; subst e
  case usedRanges | usedSub =>
    refine toRange_buffer ?_ _
    exact hcap
  case randomised | nTables | nSelectors => exact .ite (.elsewhere hcap rfl) (.elsewhere hcap rfl)
  case clDeltaEnd =>
    refine .ite (.elsewhere hcap rfl) (.ite (.elsewhere hcap rfl) (SymbolsLegal.buffer (enterDecode_symbols ?_) rfl))
    exact (congrArg BitVec.toNat (huffBuildAll_frame _).cap).trans_le hcap
  case huffmanCodeword =>
    have hs : SymbolsLegal s := h.symbols (by rw [← hp]; rfl)
    exact .ite (SymbolsLegal.buffer { hs with } rfl) (.elsewhere hcap rfl)
  case runA => exact addRun_buffer (h.symbols (by rw [← hp]; rfl)) (.inl rfl)
  case runB => exact addRun_buffer (h.symbols (by rw [← hp]; rfl)) (.inr rfl)
  case lit v =>
    obtain ⟨hs, h0⟩ := flushRun_symbols (h.symbols (by rw [← hp]; rfl))
    exact literal_buffer hs h0 v
  case eob =>
    obtain ⟨hs, -⟩ := flushRun_symbols (h.symbols (by rw [← hp]; rfl))
    exact endDecode_buffer hs
  all_goals exact .elsewhere hcap rfl

/-! ### The other moves -/

/-- CAP is 100000 times a level of at most 9 (R165). -/
theorem checkBlockSize_buffer : BufferLegal (checkBlockSize s) := by
  unfold checkBlockSize
  split
  · next hl =>
    refine .elsewhere ?_ rfl
    have hcap : 100000 * s.bsLatch.toNat ≤ 900000 := Nat.mul_le_mul_left 100000 hl.2
    exact (Nat.mod_le _ _).trans hcap
  · exact .elsewhere h.cap rfl

/-- Every move of the core keeps the buffer legal: beside the elements only the BLOCKSIZE check writes what it is
about. -/
theorem CoreMove.buffer {t : State} (m : CoreMove s t) : BufferLegal t := by
  have behind {p : Pos} (hp : s.pos = p) (hb : behindSymbols p = true) : BlockLegal s := h.block (hp ▸ hb)
  cases m with
  | element slot n i _ _ _ _ _ hi he =>
    exact element_buffer (s := { consume n s with loop.elem := [] }) { h with } hi he
  | symbol i _ _ hp hi he => exact element_buffer h (standsAt_of_symbol hp hi) he
  | load | request | keep | readMore => exact { h with }
  | rest => exact h
  | checkCrc => exact .ite (.ite (.elsewhere h.cap rfl) (.elsewhere h.cap rfl)) (.elsewhere h.cap rfl)
  | blockEntry => exact checkBlockSize_buffer h
  | startSymbol _ hp =>
    have hs : SymbolsLegal s := h.symbols (by rw [hp]; rfl)
    exact .ite (.elsewhere h.cap rfl) (SymbolsLegal.buffer { hs with } rfl)
  | buckets _ hp | emitted _ hp | repeated _ hp => exact BlockLegal.buffer { behind hp rfl with } rfl
  | extract _ hp =>
    rcases extractTurn_cases s with ⟨-, e⟩ | ⟨-, -, e⟩ | ⟨-, -, e⟩ <;> rw [e] <;>
      exact BlockLegal.buffer { behind hp rfl with } rfl
  | repeatTurn _ hp =>
    rcases repeatTurn_cases s with ⟨-, e⟩ | ⟨n, -, e⟩ <;> rw [e] <;>
      exact BlockLegal.buffer { behind hp rfl with } rfl
  | doneCheck => exact .ite (.elsewhere h.cap rfl) (.elsewhere h.cap rfl)
  | endOfStream | codeLength | readDone | clearCrc => exact .elsewhere h.cap rfl

/-- An accepted command starts away from a block's data; a reset leaves none. -/
theorem CommandMove.buffer {w : Word} {t : State} (m : CommandMove w s t) : BufferLegal t := by
  cases m with
  | reject | clearError => exact { h with }
  | nop => exact h
  | softReset => exact .elsewhere (Nat.zero_le _) rfl
  | readBits | decodeBlock | checkStreamCrc | clearStreamCrc => exact .elsewhere h.cap rfl

end

/-- Settles O51: each kind of move of a step keeps the buffer legal. -/
theorem bufferLegalIsKept : Obligations.BufferLegalIsKept := fun _ _ hs e =>
  step_keeps (P := BufferLegal)
    (schedule := fun _ _ h => { h with })
    (core := fun s _ h _ m => CoreMove.buffer (s := { s with atCut := false }) { h with } m)
    (host := fun _ _ _ _ h => { h with })
    (command := fun _ _ _ h _ _ m => m.buffer h)
    (ctrl := fun _ _ h => { h with })
    (arg := fun _ _ h => { h with })
    (source := fun _ _ _ h _ _ => { h with })
    (sink := fun _ h _ => { h with })
    (assert := fun _ _ => .elsewhere (Nat.zero_le _) rfl)
    (release := fun _ h => { h with })
    hs e

end Sys2Proof.Machine

/-! Host commands and reset (spec/48_host_commands.md R215 to R223, spec/70_reset_and_hazards.md R271, R273,
spec/60_exceptions.md R254): each accepted command and the core's step behind it, the reset values, the interrupt. -/

namespace Sys2Proof.Machine

open Host (Outcome)

/-! ## The core's steps that read no element -/

/-- What the core does at a position that reads no element, where that is an operation on the state. -/
def internalStep : Pos → Option (State → State)
  | .readBits => some runReadBits
  | .checkStreamCrc => some runCheckStreamCrc
  | .clearStreamCrc => some runClearStreamCrc
  | .bucketBuild => some buildBuckets
  | .extract => some extractTurn
  | .emitted => some fun s => { finishEmit s with pos := .extract }
  | .repeatCopies => some repeatTurn
  | .repeated => some fun s => { finishEmit s with pos := .repeatCopies }
  | .doneCheck => some doneCheck
  | _ => none

/-- At such a position the core takes its operation. -/
theorem runPos_of_internalStep {s : State} {f : State → State} (h : internalStep s.pos = some f) :
    runPos s = .next (f s) := by
  cases hp : s.pos <;> rw [hp] at h <;> cases h
  all_goals simp only [runPos, dueSlot, runInternal, hp]

theorem coreStep_of_internalStep {s : State} {f : State → State} (ha : s.inAnswer = none)
    (h : internalStep s.pos = some f) : coreStep s = .next (f { s with atCut := false }) :=
  (coreStep_of_none ha).trans (runPos_of_internalStep h)

/-! ## Commands that take no core step (R217 to R219) -/

/-- Settles O1: NOP's meaning is the state itself. -/
theorem nopKeepsEverything : Obligations.NopKeepsEverything := fun _ => rfl

/-- Settles O2: the reset state's values, and what SOFT_RESET carries over. -/
theorem softResetKeepsOnlyCtrlAndArg : Obligations.SoftResetKeepsOnlyCtrlAndArg := fun s =>
  ⟨softReset s, rfl, softReset_atResetValues s, rfl, rfl, rfl, rfl⟩

/-- With no command running CLEAR_ERROR is accepted. -/
theorem exec_clearError_of_idle {s : State} (h : s.status.busy = false) : exec .clearError s = .next (clearError s) :=
  congrArg Outcome.next (if_neg (by simp [h]))

/-- Settles O3: by the acceptance. -/
theorem clearErrorReturnsToIdle : Obligations.ClearErrorReturnsToIdle := fun _ h => exec_clearError_of_idle h

/-! ## Acceptance of the others (R215, R220, R222, R223) -/

/-- A ready core accepts READ_BITS of 1 to 32 bits. -/
theorem exec_readBits_of_ready {s : State} {n : BitVec 8} (h : ready s = true) (hn : 1 ≤ n.toNat ∧ n.toNat ≤ 32) :
    exec (.readBits n) s = .next (accept .readBits .readBits { s with loop.readCount := n }) :=
  congrArg Outcome.next (if_pos (by simp [h, hn]))

theorem exec_checkStreamCrc_of_ready {s : State} (h : ready s = true) : exec .checkStreamCrc s = .next
    (accept .streamOp .checkStreamCrc { s with loop.argSample := s.regs.arg }) :=
  congrArg Outcome.next (if_pos h)

theorem exec_clearStreamCrc_of_ready {s : State} (h : ready s = true) : exec .clearStreamCrc s = .next
    (accept .streamOp .clearStreamCrc s) :=
  congrArg Outcome.next (if_pos h)

/-- Settles O5: by the acceptance of each. -/
theorem acceptedCommandsStart : Obligations.AcceptedCommandsStart := by
  intro s n hb hk h1 h32
  have hr : ready s = true := (ready_iff s).2 ⟨hb, hk⟩
  exact ⟨exec_readBits_of_ready hr ⟨h1, h32⟩, exec_checkStreamCrc_of_ready hr, exec_clearStreamCrc_of_ready hr⟩

/-! ## CHECK_STREAM_CRC and CLEAR_STREAM_CRC (R222, R223, R227) -/

/-- The step of an accepted CHECK_STREAM_CRC. -/
theorem coreStep_of_checkStreamCrc {s : State} (hp : s.pos = .checkStreamCrc) (ha : s.inAnswer = none) :
    coreStep s = .next (runCheckStreamCrc { s with atCut := false }) :=
  coreStep_of_internalStep ha (by rw [hp]; rfl)

/-- The step of an accepted CLEAR_STREAM_CRC. -/
theorem coreStep_of_clearStreamCrc {s : State} (hp : s.pos = .clearStreamCrc) (ha : s.inAnswer = none) :
    coreStep s = .next (runClearStreamCrc { s with atCut := false }) :=
  coreStep_of_internalStep ha (by rw [hp]; rfl)

theorem runCheckStreamCrc_of_eq {s : State} (h : s.loop.argSample = s.regs.streamCrc) :
    runCheckStreamCrc s = complete s := if_neg (not_not_intro h)

/-- A mismatch is flagged; STRICT says whether it is an error too. -/
theorem runCheckStreamCrc_of_ne {s : State} (h : s.loop.argSample ≠ s.regs.streamCrc) :
    runCheckStreamCrc s = if s.ctrl.strict then raise .streamCrcMismatch .none { s with status.scrcMismatch := true }
      else complete { s with status.scrcMismatch := true } := if_pos h

/-- CHECK_STREAM_CRC does not look at ARG behind its acceptance, which has sampled it (R227). -/
theorem runCheckStreamCrc_writeArg (v : Word) (s : State) :
    runCheckStreamCrc (writeArg v s) = writeArg v (runCheckStreamCrc s) := by
  by_cases h : s.loop.argSample = s.regs.streamCrc
  · rw [runCheckStreamCrc_of_eq h, runCheckStreamCrc_of_eq (s := writeArg v s) h]
    rfl
  · have hs : (writeArg v s).ctrl.strict = s.ctrl.strict := rfl
    rw [runCheckStreamCrc_of_ne h, runCheckStreamCrc_of_ne (s := writeArg v s) h, hs]
    cases s.ctrl.strict <;> rfl

/-- The state behind the acceptance of CHECK_STREAM_CRC. -/
def checkAccepted (s : State) : State := accept .streamOp .checkStreamCrc { s with loop.argSample := s.regs.arg }

/-- Settles O10: the acceptance samples ARG; behind it the sample matches or not, and STRICT is set or not. -/
theorem checkStreamCrcComparesArg : Obligations.CheckStreamCrcComparesArg := by
  intro s hb hk ha
  have hr : ready s = true := (ready_iff s).2 ⟨hb, hk⟩
  refine ⟨checkAccepted s, runCheckStreamCrc { checkAccepted s with atCut := false }, exec_checkStreamCrc_of_ready hr,
    rfl, rfl, fun v => ?_, fun he => ?_, fun hne hstrict => ?_, fun hne hstrict => ?_⟩
  · have hstep := coreStep_of_checkStreamCrc (s := writeArg v (checkAccepted s)) rfl ha
    exact hstep.trans (congrArg Outcome.next (runCheckStreamCrc_writeArg v { checkAccepted s with atCut := false }))
  · exact runCheckStreamCrc_of_eq he
  · exact (runCheckStreamCrc_of_ne hne).trans (if_neg (by simp [hstrict, checkAccepted]))
  · exact (runCheckStreamCrc_of_ne hne).trans (if_pos hstrict)

/-- Settles O11: the acceptance and the one step behind it. -/
theorem clearStreamCrcClears : Obligations.ClearStreamCrcClears := fun s hb hk ha =>
  have hr : ready s = true := (ready_iff s).2 ⟨hb, hk⟩
  ⟨_, exec_clearStreamCrc_of_ready hr, rfl, coreStep_of_clearStreamCrc rfl ha⟩

/-! ## The interrupt (spec/60_exceptions.md R254, R255) -/

/-- Settles O17: DONE behind a completion, ERR behind an error, neither behind CLEAR_ERROR. -/
theorem irqFollowsDoneAndErr : Obligations.IrqFollowsDoneAndErr := by
  intro s
  have hcomplete : irq (complete s) = s.ctrl.irqEn := Bool.and_true _
  have hraise (k : ErrKind) (c : Cause) (hk : k ≠ .none) : irq (raise k c s) = s.ctrl.irqEn := by
    have hflag : errFlag (raise k c s) = true := decide_eq_true hk
    simp [irq, hflag]
  have hclear : irq (clearError s) = false := Bool.and_false _
  exact ⟨rfl, hcomplete, hraise, fun hb => ⟨_, exec_clearError_of_idle hb, hclear⟩⟩

/-! ## The reset state (spec/70_reset_and_hazards.md R271) -/

/-- Settles O18: SOFT_RESET at the reset state leaves it, so it has the values SOFT_RESET gives. -/
theorem resetLeavesTheResetValues : Obligations.ResetLeavesTheResetValues :=
  have hvalues : AtResetValues State.reset := softReset_atResetValues State.reset
  ⟨hvalues, rfl, rfl, BitVec.not_allOnes, rfl⟩

/-- Settles O45: nothing runs at reset, BITQ and SYMMAP are empty, no memory is written and CAP is 0. -/
theorem invariantsHoldAtReset : Obligations.InvariantsHoldAtReset :=
  have hcontrol : ControlLegal State.reset := softReset_legal State.reset
  ⟨unspecified_canonical, hcontrol, bitqLegal_of_closed nofun rfl rfl (Nat.zero_le _), ⟨.refl _, .refl _⟩,
    .elsewhere .nil nofun, .elsewhere (Nat.zero_le _) rfl⟩

end Sys2Proof.Machine

/-! The step as a whole: it always happens (spec/48_host_commands.md R228, spec/60_exceptions.md R240), it runs what the
decoder gives (R12, R215, R275), and nothing of the hardware moves while reset is asserted (R270). -/

namespace Sys2Proof.Machine

open Host (Outcome)

/-! ## Every step happens -/

theorem offerCommand_next (w : Word) (s : State) : ∃ t, offerCommand w s = .next t := by
  unfold offerCommand
  split
  · exact exec_next _ _
  · exact ⟨_, rfl⟩

theorem hostWrite_next (addr width : Nat) (v : Word) (s : State) : ∃ t, hostWrite addr width v s = .next t := by
  unfold hostWrite
  split
  · split
    · exact offerCommand_next _ _
    · exact ⟨_, rfl⟩
  · exact ⟨_, rfl⟩

theorem hostAccess_next (a : Access) (s : State) : ∃ t, hostAccess a s = .next t := by
  cases a with
  | read addr width => exact ⟨_, rfl⟩
  | write addr width v => exact hostWrite_next addr width v s

theorem takeField_next (f : HostField) (s : State) : ∃ t, takeField f s = .next t := by
  unfold takeField
  dsimp only
  split
  · exact ⟨_, rfl⟩
  · exact ⟨_, rfl⟩
  all_goals
    split
    · exact exec_next _ _
    · exact ⟨_, rfl⟩

theorem hostProcedure_next (s : State) : ∃ t, hostProcedure s = .next t := by
  unfold hostProcedure
  cases s.host.phase with
  | issue | writeCtrl | issueDecode | writeArg | issueCheck => exact hostWrite_next _ _ _ _
  | take f => exact takeField_next f s
  | _ => exact ⟨_, rfl⟩

theorem runEvent_next (e : Event) (s : State) : ∃ t, runEvent e s = .next t := by
  cases e with
  | host a => exact hostAccess_next a s
  | hostProcedure => exact hostProcedure_next s
  | core =>
    rw [runEvent]
    split
    · exact coreStep_next s
    · exact ⟨_, rfl⟩
  | _ => exact ⟨_, rfl⟩

theorem runEager_next (s : State) : ∃ t, runEager s = .next t := by
  unfold runEager
  split
  · exact ⟨_, rfl⟩
  split
  · exact ⟨_, rfl⟩
  split
  · exact ⟨_, rfl⟩
  split
  · exact coreStep_next s
  · exact hostProcedure_next s

/-- Settles O52: whichever agent moves, its move answers a next state. -/
theorem everyStepAnswersNext : Obligations.EveryStepAnswersNext := by
  intro s
  unfold step
  split
  · exact coreStep_next s
  · unfold runNext
    split
    · exact runEvent_next _ _
    · exact runEager_next s

/-! ## Asserted reset (R270, R273; log 11) -/

/-- While reset is asserted the host offers no command and writes no register. -/
theorem HostMove.quiet_of_inReset {words : Word → Prop} {s t : State} (hres : s.inReset = true)
    (m : HostMove words s t) : ∃ h b f, t = { s with host := h, bus := b, freeCount := f } := by
  have released {P : Prop} (hr : s.inReset = false) : P := absurd (hres.symm.trans hr) (by decide)
  cases m with
  | quiet h b f => exact ⟨h, b, f, rfl⟩
  | command _ _ _ _ hr | ctrl _ _ _ _ hr | arg _ _ _ _ hr => exact released hr

/-- While reset stays asserted a step moves the host and the schedule only. -/
theorem step_of_inReset {s : State} (hres : s.inReset = true) (ha : s.schedule.head? ≠ some .resetAssert)
    (hl : s.schedule.head? ≠ some .resetRelease) :
    ∃ es h b f, step s = .next { s with schedule := es, host := h, bus := b, freeCount := f } := by
  have released {P : Prop} (hr : s.inReset = false) : P := absurd (hres.symm.trans hr) (by decide)
  obtain ⟨t, e⟩ := everyStepAnswersNext s
  rw [e]
  cases step_move e with
  | pass r => exact ⟨r, s.host, s.bus, s.freeCount, rfl⟩
  | core r _ hc =>
    obtain ⟨-, -, -, hr⟩ := (coreCanStep_iff s).1 hc
    exact released hr
  | access a r _ _ _ m | procedure r _ _ m =>
    obtain ⟨h, b, f, rfl⟩ := HostMove.quiet_of_inReset (s := { s with schedule := r }) hres m
    exact ⟨r, h, b, f, rfl⟩
  | source _ hr | sink _ hr => exact released hr
  | resetAssert r _ hs => exact absurd (congrArg List.head? hs) ha
  | resetRelease r _ hs => exact absurd (congrArg List.head? hs) hl

/-- While reset is asserted a legal read gives 0, and no free value is drawn. -/
theorem hostAccess_read_of_inReset {s : State} (hres : s.inReset = true) {a : Nat} (hl : legalAccess a 4 = true) :
    hostAccess (.read a 4) s = .next { s with bus := .data 0 } := by
  have hfree : readsFree (regAt a) s = false := by simp [readsFree, hres]
  simp [hostAccess, hostRead, hl, readValue, hres, hfree]

/-- Settles O19: the step and the reads while reset is asserted, and the values its assertion leaves. -/
theorem assertedResetStopsEverything : Obligations.AssertedResetStopsEverything := fun s =>
  ⟨step_of_inReset, fun hres a h4 hlt => hostAccess_read_of_inReset hres ((legalAccess_iff a 4).2 ⟨rfl, h4, hlt⟩),
    resetAssert_atResetValues s, rfl, rfl, rfl, rfl, rfl⟩

/-! ## The step runs the decoded instruction -/

/-- A word that decodes is its instruction to the core. -/
theorem offerCommand_of_ok {w : Word} {i : Instr} (h : decode .command (.word w) = .ok i) (s : State) :
    offerCommand w s = exec i s := by
  simp only [offerCommand, h]

/-- A whole element is run behind the consumption of its bits. -/
theorem fetch_of_ok {slot : Slot} {n : Nat} {s : State} {i : Instr} (hn : n ≤ s.bitq.length)
    (h : decode slot (.bits (s.loop.elem ++ s.bitq.take n)) = .ok i) :
    fetch slot n s = exec i { consume n s with loop.elem := [] } := by
  rw [fetch, if_neg hn.not_gt]
  simp only [h]

/-- The fetch is the core's step where an element is due. -/
theorem coreStep_of_dueSlot {s : State} {slot : Slot} {n : Nat} (ha : s.inAnswer = none)
    (hd : dueSlot s = some (slot, n)) : coreStep s = fetch slot n { s with atCut := false } := by
  have hd' : dueSlot { s with atCut := false } = some (slot, n) := hd
  rw [coreStep_of_none ha, runPos, hd']

/-- A decoded symbol value is acted on by the meaning of its class. -/
theorem coreStep_of_symbolReady {s : State} (hp : s.pos = .symbolReady) (ha : s.inAnswer = none) :
    coreStep s = exec (decodeSymbol s.used.toNat s.loop.symbol) { s with atCut := false } := by
  rw [coreStep_of_dueSlot_none ha (by simp only [dueSlot, hp])]
  simp only [runInternal, hp]

/-- The host's read of a register while it reads as its word. -/
theorem hostRead_word {s : State} {a : Nat} {r : Reg} (hres : s.inReset = false) (hl : legalAccess a 4 = true)
    (ha : regAt a = r) (hf : s.status.busy = false ∨ undefinedWhileBusy r = false) :
    hostRead a 4 s = { s with bus := .data (regWord s r) } :=
  Outcome.next.inj (hostAccess_read_word hres hl ha hf)

section
variable {f : HostField} {s : State} (hres : s.inReset = false) (hb : s.status.busy = false) (hhi : f ≠ .magicHi)
  (hpad : f ≠ .padding)
include hres hb hhi hpad

/-- A field that completes an element is that element's meaning behind the read of RESULT. -/
theorem takeField_of_ok {i : Instr}
    (h : decode (fieldCode s.host f s.regs.result).1 (.bits (fieldCode s.host f s.regs.result).2) = .ok i) :
    takeField f s = exec i { s with bus := .data s.regs.result } := by
  have hread : hostRead offResult 4 s = { s with bus := .data s.regs.result } := hostRead_word hres rfl rfl (.inl hb)
  cases f with
  | magicHi => exact absurd rfl hhi
  | padding => exact absurd rfl hpad
  | _ => simp only [takeField, hread, busWord, h]

/-- A field that is no element stops the procedure with the message of its line. -/
theorem takeField_of_error {r : DecodeReject}
    (h : decode (fieldCode s.host f s.regs.result).1 (.bits (fieldCode s.host f s.regs.result).2) = .error r) :
    takeField f s = .next { s with bus := .data s.regs.result, host.phase := .stopped (fieldStop f) } := by
  have hread : hostRead offResult 4 s = { s with bus := .data s.regs.result } := hostRead_word hres rfl rfl (.inl hb)
  cases f with
  | magicHi => exact absurd rfl hhi
  | padding => exact absurd rfl hpad
  | _ => simp only [takeField, hread, busWord, h]

end

/-- A host at a field takes it. -/
theorem hostProcedure_of_take {s : State} {f : HostField} (h : s.host.phase = .take f) :
    hostProcedure s = takeField f s := by
  simp only [hostProcedure, h]

/-- Settles O42: the host's write at its event, the fetch and the symbol inside a core step, the host's field at its
event. -/
theorem stepRunsTheDecodedInstruction : Obligations.StepRunsTheDecodedInstruction := by
  intro s i
  refine ⟨fun w es hq hres hs hd => ?_, fun slot n hin ha hdue hn hd => ?_, fun hin ha hp hd => ?_,
    fun f es hb hres hs hph hhi hpad hd => ?_⟩
  · rw [step_event hq hs, runEvent, hostAccess_write_cmd (s := { s with schedule := es }) hres]
    exact offerCommand_of_ok hd _
  · rw [step_eq_coreStep hin, coreStep_of_dueSlot ha hdue]
    exact fetch_of_ok (s := { s with atCut := false }) hn hd
  · obtain rfl : decodeSymbol s.used.toNat s.loop.symbol = i := Except.ok.inj hd
    rw [step_eq_coreStep hin, coreStep_of_symbolReady hp ha]
  · have hq : inCoreStep s = false := by simp [inCoreStep, coreCanStep, hb]
    rw [step_event hq hs, runEvent, hostProcedure_of_take (s := { s with schedule := es }) hph]
    exact takeField_of_ok (s := { s with schedule := es }) hres hb hhi hpad hd

end Sys2Proof.Machine

/-! The error record and the stream's accumulator (spec/60_exceptions.md R247, R253, spec/48_host_commands.md R225): of
all the moves of a step only the core's and a reset touch either, CLEAR_ERROR's clearing of the record aside. -/

namespace Sys2Proof.Machine

/-! ## What a move of the core does to the error record (R247) -/

/-- An error has been raised: its record names the stage it was raised in, ERROR is entered, and nothing runs. -/
structure Raised (s t : State) : Prop where
  kind : t.err.kind ≠ .none
  cause : t.err.kind ≠ .corruptStream → t.err.cause = .none
  errStage : t.err.stage = s.stage
  stage : t.stage = .error
  busy : t.status.busy = false
  done : t.status.done = false

/-- The error record stays, or an error has been raised. -/
def ErrKept (s t : State) : Prop := t.err = s.err ∨ Raised s t

theorem raise_raised {s u : State} {k : ErrKind} {c : Cause} (hk : k ≠ .none) (hc : k ≠ .corruptStream → c = .none)
    (hs : u.stage = s.stage) : Raised s (raise k c u) := ⟨hk, hc, hs, rfl, rfl, rfl⟩

/-- It is the record and the stage of the start that count. -/
theorem ErrKept.of_start {s u t : State} (h : ErrKept u t) (he : u.err = s.err) (hs : u.stage = s.stage) :
    ErrKept s t := by
  rcases h with h | h
  · exact .inl (h.trans he)
  · exact .inr { h with errStage := h.errStage.trans hs }

/-- A CorruptStream raised in s's stage, whatever its cause. -/
theorem errKept_corrupt {s u : State} (c : Cause) (hs : u.stage = s.stage) : ErrKept s (raise .corruptStream c u) :=
  .inr (raise_raised nofun (fun h => absurd rfl h) hs)

/-- An operation that branches keeps the record or raises when both its branches do. -/
theorem ErrKept.ite {s : State} {c : Prop} [Decidable c] {x y : State} (hx : ErrKept s x) (hy : ErrKept s y) :
    ErrKept s (if c then x else y) := iteInduction (fun _ => hx) (fun _ => hy)

theorem ElementEnd.errKept {s t : State} (h : ElementEnd s t) : ErrKept s t := by
  cases h with
  | goOn t hf _ _ => exact .inl hf.err
  | raised k c u _ hs hk =>
    rcases hk with rfl | ⟨rfl, rfl⟩
    · exact errKept_corrupt c hs
    · exact .inr (raise_raised nofun (fun _ => rfl) hs)

theorem CoreMove.errKept {s t : State} (h : CoreMove s t) : ErrKept s t := by
  cases h with
  | endOfStream => exact .inr (raise_raised nofun (fun _ => rfl) rfl)
  | element slot n i _ _ _ _ _ hst he =>
    have hend : ElementEnd { consume n s with loop.elem := [] } t := element_end hst he
    exact hend.errKept.of_start rfl rfl
  | symbol i _ _ hp hi he => exact (element_end (standsAt_of_symbol hp hi) he).errKept
  | checkCrc => exact .ite (.ite (.inr (raise_raised nofun (fun _ => rfl) rfl)) (.inl rfl)) (.inl rfl)
  | blockEntry => exact .ite (.inl rfl) (errKept_corrupt _ rfl)
  | codeLength => exact errKept_corrupt _ rfl
  | startSymbol => exact .ite (errKept_corrupt _ rfl) (.inl rfl)
  | extract => rcases extractTurn_cases s with ⟨-, e⟩ | ⟨-, -, e⟩ | ⟨-, -, e⟩ <;> rw [e] <;> exact .inl rfl
  | repeatTurn => rcases repeatTurn_cases s with ⟨-, e⟩ | ⟨n, -, e⟩ <;> rw [e] <;> exact .inl rfl
  | doneCheck => exact .ite (.inr (raise_raised nofun (fun _ => rfl) rfl)) (.inl rfl)
  | _ => exact .inl rfl

/-! ## What a move of the core does to STREAM_CRC and BLOCK_COUNT (R225) -/

/-- STREAM_CRC and BLOCK_COUNT both stay. -/
structure StreamStill (s t : State) : Prop where
  streamCrc : t.regs.streamCrc = s.regs.streamCrc
  blockCount : t.regs.blockCount = s.regs.blockCount

theorem StreamStill.ite {s : State} {c : Prop} [Decidable c] {x y : State} (hx : StreamStill s x)
    (hy : StreamStill s y) : StreamStill s (if c then x else y) := iteInduction (fun _ => hx) (fun _ => hy)

theorem ElementEnd.stream {s t : State} (h : ElementEnd s t) : StreamStill s t := by
  cases h with
  | goOn t hf _ _ | raised _ _ t hf _ _ => exact ⟨hf.streamCrc, hf.blockCount⟩

/-- A matching block has been folded into STREAM_CRC and counted (R207, R125). -/
structure BlockFolded (s t : State) : Prop where
  pos : s.pos = .doneCheck
  crc : ~~~s.crcAcc = s.regs.expectedCrc
  streamCrc : t.regs.streamCrc = s.regs.streamCrc.rotateLeft 1 ^^^ ~~~s.crcAcc
  blockCount : t.regs.blockCount = s.regs.blockCount + 1

/-- CLEAR_STREAM_CRC has cleared both (R223). -/
structure StreamCleared (s t : State) : Prop where
  pos : s.pos = .clearStreamCrc
  streamCrc : t.regs.streamCrc = 0
  blockCount : t.regs.blockCount = 0

/-- rotl1 is a rotation by one place (spec/00_scope.md R13). -/
theorem rotl1_eq_rotateLeft (x : Word) : rotl1 x = x.rotateLeft 1 := rfl

theorem CoreMove.stream {s t : State} (h : CoreMove s t) : StreamStill s t ∨ BlockFolded s t ∨ StreamCleared s t := by
  cases h with
  | element slot n i _ _ _ _ _ hst he =>
    have hend : ElementEnd { consume n s with loop.elem := [] } t := element_end hst he
    exact .inl { hend.stream with }
  | symbol i _ _ hp hi he => exact .inl (element_end (standsAt_of_symbol hp hi) he).stream
  | checkCrc => exact .inl (.ite (.ite ⟨rfl, rfl⟩ ⟨rfl, rfl⟩) ⟨rfl, rfl⟩)
  | clearCrc _ hp => exact .inr (.inr ⟨hp, rfl, rfl⟩)
  | blockEntry | startSymbol => exact .inl (.ite ⟨rfl, rfl⟩ ⟨rfl, rfl⟩)
  | extract =>
    rcases extractTurn_cases s with ⟨-, e⟩ | ⟨-, -, e⟩ | ⟨-, -, e⟩ <;> rw [e] <;> exact .inl ⟨rfl, rfl⟩
  | repeatTurn => rcases repeatTurn_cases s with ⟨-, e⟩ | ⟨n, -, e⟩ <;> rw [e] <;> exact .inl ⟨rfl, rfl⟩
  | doneCheck _ hp =>
    rcases doneCheck_cases s with ⟨-, e⟩ | ⟨hcrc, e⟩ <;> rw [e]
    · exact .inl ⟨rfl, rfl⟩
    · exact .inr (.inl ⟨hp, hcrc, congrArg (· ^^^ ~~~s.crcAcc) (rotl1_eq_rotateLeft _), rfl⟩)
  | _ => exact .inl ⟨rfl, rfl⟩

/-! ## The other moves -/

/-- The record of no error. -/
def noError : ErrReg := { kind := .none, cause := .none, stage := .idle }

/-- STREAM_CRC and BLOCK_COUNT stay, and the error record stays or is cleared. -/
structure OutsideFrame (s t : State) : Prop where
  stream : StreamStill s t
  err : t.err = s.err ∨ t.err = noError

/-- Of the command words only SOFT_RESET's does more: a command's own work is the core's. -/
theorem CommandMove.outside {w : Word} {s t : State} (h : CommandMove w s t) :
    OutsideFrame s t ∨ (w = 0x00000001 ∧ AtResetValues t) := by
  cases h with
  | softReset hw => exact .inr ⟨hw, softReset_atResetValues s⟩
  | clearError => exact .inl ⟨⟨rfl, rfl⟩, .inr rfl⟩
  | _ => exact .inl ⟨⟨rfl, rfl⟩, .inl rfl⟩

theorem HostMove.outside {words : Word → Prop} {s t : State} (h : HostMove words s t) :
    OutsideFrame s t ∨ (s.inReset = false ∧ words 0x00000001 ∧ AtResetValues t) := by
  cases h with
  | command h b w _ hr hw ho =>
    rcases (offerCommand_move ho).outside with hf | ⟨rfl, ht⟩
    · exact .inl ⟨{ hf.stream with }, hf.err⟩
    · exact .inr ⟨hr, hw, ht⟩
  | quiet | ctrl | arg => exact .inl ⟨⟨rfl, rfl⟩, .inl rfl⟩

/-- What a step does to the error record and the accumulator: what the core's move of a running command does, or a
reset, or nothing but a CLEAR_ERROR. -/
inductive RecordStep (s : State) : State → Prop where
  | outside (t : State) (h : OutsideFrame s t) : RecordStep s t
  | core (r : List Event) (t : State) (hc : coreCanStep s = true)
      (h : CoreMove { s with schedule := r, atCut := false } t) : RecordStep s t
  | reset (t : State) (hr : resetsNext s) (h : AtResetValues t) : RecordStep s t

theorem step_record {s t : State} (e : step s = .next t) : RecordStep s t := by
  cases step_move e with
  | pass | resetRelease => exact .outside _ ⟨⟨rfl, rfl⟩, .inl rfl⟩
  | core r _ hc h => exact .core r _ hc (coreStep_move h)
  | access a r _ hq hs h =>
    rcases h.outside with hf | ⟨hr, rfl, ht⟩
    · exact .outside _ ⟨{ hf.stream with }, hf.err⟩
    · exact .reset _ ⟨hq, .inr ⟨hr, congrArg List.head? hs⟩⟩ ht
  | procedure r _ _ h =>
    rcases h.outside with hf | ⟨-, hw, -⟩
    · exact .outside _ ⟨{ hf.stream with }, hf.err⟩
    · exact absurd rfl hw
  | source r =>
    rcases sourceAnswer_cases { s with schedule := r } with h | ⟨a, rest, -, -, h⟩ <;> rw [h] <;>
      exact .outside _ ⟨⟨rfl, rfl⟩, .inl rfl⟩
  | sink r =>
    rcases sinkAccept_cases { s with schedule := r } with h | ⟨-, h⟩ <;> rw [h] <;>
      exact .outside _ ⟨⟨rfl, rfl⟩, .inl rfl⟩
  | resetAssert r hq hs => exact .reset _ ⟨hq, .inl (congrArg List.head? hs)⟩ (resetAssert_atResetValues _)

/-! ## The statements -/

/-- Settles O56: an error appears by the core's move only, and the core moves for a running command only. -/
theorem errorEntryRecordsTheStage : Obligations.ErrorEntryRecordsTheStage := by
  intro s s' e hk hk'
  have none {P : Prop} (h : s'.err = s.err ∨ s'.err = noError) : P := by
    rcases h with h | h
    · exact absurd ((congrArg ErrReg.kind h).trans hk) hk'
    · exact absurd (congrArg ErrReg.kind h) hk'
  cases step_record e with
  | outside _ h => exact none h.err
  | reset _ _ h => exact none (.inr h.err)
  | core r _ hc h =>
    obtain ⟨hb, -⟩ := (coreCanStep_iff s).1 hc
    rcases h.errKept with h | h
    · exact none (.inl h)
    · exact ⟨hb, h.errStage, h.stage, h.busy, h.done, h.cause⟩

/-- Settles O57: with an error recorded no command runs, so the core does not move. -/
theorem errorsDoNotNest : Obligations.ErrorsDoNotNest := by
  intro s s' hs e hk
  cases step_record e with
  | outside _ h => exact h.err
  | reset _ _ h => exact .inr h.err
  | core r _ hc h => exact absurd (hs.running hc).kind hk

/-- Settles O60: by what a step does to the accumulator, and by what the core's move does. -/
theorem streamCrcMovesOnlySo : Obligations.StreamCrcMovesOnlySo := by
  intro s s' e
  cases step_record e with
  | outside _ h => exact .inl ⟨h.stream.streamCrc, h.stream.blockCount⟩
  | reset _ hr h => exact .inr (.inr (.inr ⟨hr, h⟩))
  | core r _ hc h =>
    obtain ⟨hb, -⟩ := (coreCanStep_iff s).1 hc
    rcases h.stream with h | h | h
    · exact .inl ⟨h.streamCrc, h.blockCount⟩
    · exact .inr (.inl ⟨hb, h.pos, h.crc, h.streamCrc, h.blockCount⟩)
    · exact .inr (.inr (.inl ⟨hb, h.pos, h.streamCrc, h.blockCount⟩))

end Sys2Proof.Machine

/-! The host's stream procedure (spec/70_reset_and_hazards.md R275, spec/30_encoding.md R94, R104): what the word read
for each field is as an element, and what each access of the procedure leaves. -/

namespace Sys2Proof.Machine

open Host (Outcome)

/-! ## The fields' words as elements (R94, R104) -/

theorem decode_streamMagic (v : Word) : decode .streamMagic (.bits (elementBits 24 v)) =
    if v = 0x425A68 then .ok .streamMagic else .error .wrongFraming := by
  have hnat : v.toNat = Config.streamMagic.toNat ↔ v = 0x425A68 := BitVec.toNat_inj (y := (0x425A68 : Word))
  exact if_congr ((elementBits_eq_iff (by decide) v Config.streamMagic).trans hnat) rfl rfl

/-- READ48's value is one of the two magics or no element. -/
theorem decode_blockOrEosMagic {a b : Word} {k : Nat} (hk : k = a.toNat <<< 24 ||| b.toNat) :
    decode .blockOrEosMagic (.bits (elementBits 48 (read48 a b))) =
      if k = 0x314159265359 then .ok .blockMagic
      else if k = 0x177245385090 then .ok .eosMagic else .error .wrongFraming := by
  have hblock := elementBits_eq_iff (by decide) (read48 a b) Config.blockMagic
  have heos := elementBits_eq_iff (by decide) (read48 a b) Config.eosMagic
  rw [read48_toNat, ← hk] at hblock heos
  exact if_congr hblock rfl (if_congr heos rfl rfl)

theorem decode_streamCrc (c : Word) : decode .streamCrc (.bits (bitsOf c)) = .ok (.streamCrc c) :=
  Laws.RoundTrip.streamCrc c .streamCrc rfl

/-- A level digit is '0' and its value. -/
theorem elementBits_levelDigit_iff (v : Word) (d : BitVec 4) :
    elementBits 8 v = bitsOf ((0x3 : BitVec 4) ++ d) ↔ v.toNat = 0x30 + d.toNat := by
  have hnat : ((0x3 : BitVec 4) ++ d).toNat = 0x30 + d.toNat := by
    rw [BitVec.toNat_append, ← Nat.shiftLeft_add_eq_or_of_lt d.isLt]
    rfl
  rw [← hnat]
  exact elementBits_eq_iff (by decide) v _

theorem decode_levelDigit {v : Word} {d : BitVec 4} (h : v.toNat = 0x30 + d.toNat) :
    decode .levelDigit (.bits (elementBits 8 v)) = .ok (.levelDigit d) := by
  rw [(elementBits_levelDigit_iff v d).2 h]
  exact Laws.RoundTrip.levelDigit d .levelDigit rfl

/-- Eight bits are those of two halves. -/
theorem bitsOf_halves (x : BitVec 8) : bitsOf x = bitsOf (x.extractLsb' 4 4) ++ bitsOf (x.extractLsb' 0 4) := by
  rw [← bitsOf_append, BitVec.extractLsb'_append_extractLsb'_eq_extractLsb' (by decide)]
  exact congrArg bitsOf BitVec.extractLsb'_eq_self.symm

/-- Any other word is no level digit. -/
theorem decode_levelDigit_ok {v : Word} {i : Instr} (h : decode .levelDigit (.bits (elementBits 8 v)) = .ok i) :
    ∃ d : BitVec 4, i = .levelDigit d ∧ v.toNat = 0x30 + d.toNat := by
  obtain ⟨⟨hlen, htake⟩, hi⟩ : ((elementBits 8 v).length = 8 ∧ (elementBits 8 v).take 4 = bitsOf (0x3 : BitVec 4))
      ∧ .levelDigit (fieldOf 4 ((elementBits 8 v).drop 4)) = i := by
    simp only [decode, decodeBits] at h
    split at h
    · next hc => exact ⟨hc, Except.ok.inj h⟩
    · cases h
  obtain ⟨x, hx⟩ : ∃ x : BitVec 8, elementBits 8 v = bitsOf x := by
    by_cases hv : v.toNat < 2 ^ 8
    · exact ⟨_, if_pos hv⟩
    · rw [elementBits, if_neg hv, length_bitsOf] at hlen
      cases hlen
  have hhalves : elementBits 8 v = bitsOf (x.extractLsb' 4 4) ++ bitsOf (x.extractLsb' 0 4) :=
    hx.trans (bitsOf_halves x)
  rw [hhalves, List.take_left' (length_bitsOf _)] at htake
  rw [hhalves, List.drop_left' (length_bitsOf _), fieldOf_bitsOf] at hi
  refine ⟨_, hi.symm, (elementBits_levelDigit_iff v _).1 ?_⟩
  rw [hhalves, htake, bitsOf_append]

/-! ## The meanings (R275) -/

theorem exec_levelDigit_of_legal {d : BitVec 4} (h : 1 ≤ d.toNat ∧ d.toNat ≤ 9) (s : State) :
    exec (.levelDigit d) s = .next { s with host.level := d, host.phase := .readCtrl } := if_pos h

theorem exec_levelDigit_of_illegal {d : BitVec 4} (h : ¬ (1 ≤ d.toNat ∧ d.toNat ≤ 9)) (s : State) :
    exec (.levelDigit d) s = .next { s with host.phase := .stopped .badLevel } := if_neg h

/-! ## The accesses (R275, R88) -/

section
variable {s : State} (hres : s.inReset = false)
include hres

theorem hostProcedure_readCtrl (h : s.host.phase = .readCtrl) : hostProcedure s = .next { s with
    bus := .data (ctrlWord s), host.ctrl := ctrlWord s, host.phase := .writeCtrl } := by
  have hread : hostRead offCtrl 4 s = { s with bus := .data (ctrlWord s) } := hostRead_word hres rfl rfl (.inr rfl)
  simp only [hostProcedure, h, readCtrl, hread, busWord]

/-- Outside reset the host's write of CTRL takes effect. -/
theorem hostWrite_ctrl (v : Word) : hostWrite offCtrl 4 v s = .next { writeCtrl v s with bus := .written } := by
  have hplain : writePlainReg .ctrl v s = writeCtrl v s := by simp [writePlainReg, hres]
  rw [← hplain]
  exact hostAccess_write_plain v s rfl rfl (by decide)

/-- Outside reset the host's write of ARG takes effect. -/
theorem hostWrite_arg (v : Word) : hostWrite offArg 4 v s = .next { writeArg v s with bus := .written } := by
  have hplain : writePlainReg .arg v s = writeArg v s := by simp [writePlainReg, hres]
  rw [← hplain]
  exact hostAccess_write_plain v s rfl rfl (by decide)

theorem hostProcedure_writeCtrl (h : s.host.phase = .writeCtrl) : hostProcedure s = .next { s with
    ctrl := { blockSize := s.host.level, strict := s.host.ctrl.getLsbD 4, irqEn := s.host.ctrl.getLsbD 5 }
    bus := .written, host.phase := .issue .magicHi } := by
  have hwrite := hostWrite_ctrl (s := { s with host.phase := .issue .magicHi }) hres (levelWord s.host)
  simp only [hostProcedure, h, hwrite]
  simp [writeCtrl]

theorem hostProcedure_writeArg (h : s.host.phase = .writeArg) : hostProcedure s = .next { s with
    regs.arg := s.host.crc, bus := .written, host.phase := .issueCheck } := by
  have hwrite := hostWrite_arg (s := { s with host.phase := .issueCheck }) hres s.host.crc
  simp only [hostProcedure, h, hwrite, writeArg]

variable (hb : s.status.busy = false)
include hb

theorem hostRead_result : hostRead offResult 4 s = { s with bus := .data s.regs.result } :=
  hostRead_word hres rfl rfl (.inl hb)

theorem hostRead_bitCount : hostRead offBitCount 4 s = { s with bus := .data s.regs.bitCount } :=
  hostRead_word hres rfl rfl (.inl hb)

theorem takeField_streamMagic : takeField .streamMagic s = .next { s with
    bus := .data s.regs.result
    host.phase := if s.regs.result = 0x425A68 then .issue .levelDigit else .stopped .badMagic } := by
  have hd := decode_streamMagic s.regs.result
  by_cases h : s.regs.result = 0x425A68
  · rw [if_pos h] at hd ⊢
    exact takeField_of_ok (f := .streamMagic) hres hb (by decide) (by decide) hd
  · rw [if_neg h] at hd ⊢
    exact takeField_of_error (f := .streamMagic) hres hb (by decide) (by decide) hd

theorem takeField_levelDigit_of_legal (h : 0x31 ≤ s.regs.result.toNat ∧ s.regs.result.toNat ≤ 0x39) :
    takeField .levelDigit s = .next { s with
      bus := .data s.regs.result, host.level := BitVec.ofNat 4 (s.regs.result.toNat - 0x30)
      host.phase := .readCtrl } := by
  have hd : (BitVec.ofNat 4 (s.regs.result.toNat - 0x30)).toNat = s.regs.result.toNat - 0x30 :=
    Nat.mod_eq_of_lt (by omega)
  rw [takeField_of_ok (f := .levelDigit) hres hb (by decide) (by decide)
    (decode_levelDigit (d := BitVec.ofNat 4 (s.regs.result.toNat - 0x30)) (by omega))]
  exact exec_levelDigit_of_legal (by omega) _

theorem takeField_levelDigit_of_illegal (h : ¬ (0x31 ≤ s.regs.result.toNat ∧ s.regs.result.toNat ≤ 0x39)) :
    takeField .levelDigit s = .next { s with bus := .data s.regs.result, host.phase := .stopped .badLevel } := by
  cases hd : decode .levelDigit (.bits (elementBits 8 s.regs.result)) with
  | error r => exact takeField_of_error (f := .levelDigit) hres hb (by decide) (by decide) hd
  | ok i =>
    obtain ⟨d, rfl, hv⟩ := decode_levelDigit_ok hd
    rw [takeField_of_ok (f := .levelDigit) hres hb (by decide) (by decide) hd]
    exact exec_levelDigit_of_illegal (by omega) _

theorem takeField_magicLo {k : Nat} (hk : k = s.host.hi.toNat <<< 24 ||| s.regs.result.toNat) :
    takeField .magicLo s = .next { s with
      bus := .data s.regs.result
      host.phase := if k = 0x177245385090 then .issue .streamCrc
        else if k = 0x314159265359 then .issueDecode else .stopped .badMagic } := by
  have hd := decode_blockOrEosMagic hk
  by_cases heos : k = 0x177245385090
  · rw [if_neg (by omega), if_pos heos] at hd
    rw [if_pos heos]
    exact takeField_of_ok (f := .magicLo) hres hb (by decide) (by decide) hd
  · rw [if_neg heos] at hd ⊢
    by_cases hblock : k = 0x314159265359
    · rw [if_pos hblock] at hd ⊢
      exact takeField_of_ok (f := .magicLo) hres hb (by decide) (by decide) hd
    · rw [if_neg hblock] at hd ⊢
      exact takeField_of_error (f := .magicLo) hres hb (by decide) (by decide) hd

theorem takeField_streamCrc : takeField .streamCrc s = .next { s with
    bus := .data s.regs.result, host.crc := s.regs.result, host.phase := .writeArg } :=
  takeField_of_ok (f := .streamCrc) hres hb (by decide) (by decide) (decode_streamCrc s.regs.result)

theorem takeField_magicHi : takeField .magicHi s = .next { s with
    bus := .data s.regs.result, host.hi := s.regs.result, host.phase := .issue .magicLo } := by
  simp only [takeField, hostRead_result hres hb, busWord]

theorem takeField_padding : takeField .padding s = .next { s with
    bus := .data s.regs.result, host.phase := .finished } := by
  simp only [takeField, hostRead_result hres hb]

theorem readBitCount_of_eq (h : s.regs.bitCount.toNat % 8 = 0) : readBitCount s = { s with
    bus := .data s.regs.bitCount, host.phase := .finished } := by
  simp only [readBitCount, hostRead_bitCount hres hb, busWord, h, if_true]

theorem readBitCount_of_ne (h : s.regs.bitCount.toNat % 8 ≠ 0) : readBitCount s = { s with
    bus := .data s.regs.bitCount, host.padBits := BitVec.ofNat 8 (8 - s.regs.bitCount.toNat % 8)
    host.phase := .issue .padding } := by
  simp only [readBitCount, hostRead_bitCount hres hb, busWord, h, if_false]

end

theorem hostProcedure_of_readBitCount {s : State} (h : s.host.phase = .readBitCount) :
    hostProcedure s = .next (readBitCount s) := by
  simp only [hostProcedure, h]

/-- Settles O20: each element by its meaning, each field by what its word is, each access by its register. -/
theorem framingElementsActAsTheProcedure : Obligations.FramingElementsActAsTheProcedure := by
  intro s d c hres
  refine ⟨rfl, rfl, rfl, fun hd => exec_levelDigit_of_legal hd s, fun hd => exec_levelDigit_of_illegal hd s,
    hostProcedure_readCtrl hres, hostProcedure_writeCtrl hres, fun hp hc => ?_, rfl, hostProcedure_writeArg hres,
    fun hb => ⟨fun hp => ?_, fun hp hv => ?_, fun hp hv => ?_, fun hp => ?_, fun k hk hp => ?_, fun hp => ?_,
      fun hp => ?_, ?_⟩⟩
  · refine ⟨_, hostProcedure_writeCtrl hres hp, ?_⟩
    simp [hc]
  · exact (hostProcedure_of_take hp).trans (takeField_streamMagic hres hb)
  · exact (hostProcedure_of_take hp).trans (takeField_levelDigit_of_legal hres hb hv)
  · exact (hostProcedure_of_take hp).trans (takeField_levelDigit_of_illegal hres hb hv)
  · exact (hostProcedure_of_take hp).trans (takeField_magicHi hres hb)
  · exact (hostProcedure_of_take hp).trans (takeField_magicLo hres hb hk)
  · exact (hostProcedure_of_take hp).trans (takeField_streamCrc hres hb)
  · exact (hostProcedure_of_take hp).trans (takeField_padding hres hb)
  · rintro r rfl hp
    rw [hostProcedure_of_readBitCount hp]
    exact ⟨fun h => congrArg Outcome.next (readBitCount_of_eq hres hb h),
      fun h => congrArg Outcome.next (readBitCount_of_ne hres hb h)⟩

end Sys2Proof.Machine

/-! Runs of a command under any schedule of the core, the source and the sink (spec/00_scope.md R10, R12; log 1): the
core moves on, a request is answered; and READ_BITS from its acceptance to its end (spec/48_host_commands.md R220,
spec/40_bitreader.md R111, R112). -/

namespace Sys2Proof.Machine

open Host (Outcome)

/-! ## Runs -/

/-- Some run leads from s to t. -/
def Reaches (s t : State) : Prop := ∃ k, core.run k s = .next t

theorem Reaches.trans {s t u : State} (h : Reaches s t) (h' : Reaches t u) : Reaches s u := by
  obtain ⟨j, hj⟩ := h
  obtain ⟨k, hk⟩ := h'
  exact ⟨j + k, (run_add j k hj).trans hk⟩

/-- A command runs with no port transaction open, and only the core and the ports are scheduled. -/
structure CoreFree (s : State) : Prop extends PortsClosed s where
  busy : s.status.busy = true
  notReset : s.inReset = false
  events : portEvents s.schedule

/-- The state inside a core step, behind the events that have passed. -/
def inside (r : List Event) (s : State) : State := { s with atCut := false, schedule := r }

/-- A free core takes the step at its position, whatever is scheduled. -/
theorem CoreFree.moves {s : State} (h : CoreFree s) :
    ∃ r, r <:+ s.schedule ∧ ∀ t, runPos (inside r s) = .next t → Reaches s t := by
  have hc : coreCanStep s = true := (coreCanStep_iff s).2 ⟨h.busy, h.inWait, h.outWait, h.notReset⟩
  obtain ⟨k, r, hr, e⟩ := run_core hc h.events
  exact ⟨r, hr, fun t ht => ⟨k, e.trans ((coreStep_of_none (s := { s with schedule := r }) h.inAnswer).trans ht)⟩⟩

/-- What the core finds of an answer to its request (spec/20_memory.md R73). -/
def answered (a : Answer) (src : List Answer) (r : List Event) (s : State) : State :=
  { s with status.inWait := false, status.inEos := decide (a = .eos), inAnswer := some a, source := src,
           atCut := false, schedule := r }

/-- A core that asks for a byte gets the source's next answer and uses it. -/
theorem CoreFree.asks {s : State} (h : CoreFree s) (hreq : ∀ r, runPos (inside r s) = .next (requestByte (inside r s)))
    {a : Answer} {src : List Answer} (hsrc : s.source = a :: src) :
    ∃ r, r <:+ s.schedule ∧ Reaches s (useAnswer a (answered a src r s)) := by
  obtain ⟨r, hr, hmove⟩ := h.moves
  have hasked : Reaches s (requestByte (inside r s)) := hmove _ (hreq r)
  obtain ⟨j, q, hq, hj⟩ := run_source (s := requestByte (inside r s)) h.busy rfl h.outWait h.notReset
    (h.events.suffix hr)
  have hgiven : sourceAnswer { requestByte (inside r s) with schedule := q } =
      { answered a src q s with atCut := true } := by
    simp [sourceAnswer, inside, answered, requestByte, hsrc]
  have hevents : portEvents q := (h.events.suffix hr).suffix hq
  obtain ⟨k, p, hp, hk⟩ := run_core (s := { answered a src q s with atCut := true })
    ((coreCanStep_iff _).2 ⟨h.busy, rfl, h.outWait, h.notReset⟩) hevents
  have hused : Reaches { answered a src q s with atCut := true } (useAnswer a (answered a src p s)) :=
    ⟨k, hk.trans (coreStep_of_some rfl)⟩
  exact ⟨p, hp.trans (hq.trans hr), hasked.trans (.trans ⟨j, hj.trans (congrArg _ hgiven)⟩ hused)⟩

/-! ## READ_BITS behind its acceptance (R111, R112, R115) -/

/-- The core stands at a READ_BITS. -/
structure ReadingBits (s : State) : Prop extends CoreFree s where
  pos : s.pos = .readBits

theorem runPos_of_readBits {s : State} (h : s.pos = .readBits) : runPos s = .next (runReadBits s) :=
  runPos_of_internalStep (by rw [h]; rfl)

theorem runReadBits_of_lt {s : State} (h : s.bitq.length < s.loop.readCount.toNat) :
    runReadBits s = requestByte s := if_pos h

theorem runReadBits_of_le {s : State} (h : s.loop.readCount.toNat ≤ s.bitq.length) :
    runReadBits s = complete { consume s.loop.readCount.toNat s with
      regs.result := BitVec.ofNat 32 (valOf (s.bitq.take s.loop.readCount.toNat)) } := if_neg h.not_gt

/-- With too few bits the source's next answer is used. -/
theorem ReadingBits.asks {s : State} (h : ReadingBits s) (hl : s.bitq.length < s.loop.readCount.toNat) {a : Answer}
    {src : List Answer} (hsrc : s.source = a :: src) :
    ∃ r, r <:+ s.schedule ∧ Reaches s (useAnswer a (answered a src r s)) :=
  h.toCoreFree.asks (fun r => (runPos_of_readBits (s := inside r s) h.pos).trans (congrArg _ (runReadBits_of_lt hl)))
    hsrc

/-- The state that has loaded a byte. -/
def byteLoaded (b : Byte) (src : List Answer) (r : List Event) (s : State) : State :=
  { s with bitq := s.bitq ++ bitsOf b, source := src, status.inEos := false, atCut := false, schedule := r }

theorem length_bitq_byteLoaded (b : Byte) (src : List Answer) (r : List Event) (s : State) :
    (byteLoaded b src r s).bitq.length = s.bitq.length + 8 := by
  simp [byteLoaded]

theorem readCount_byteLoaded (b : Byte) (src : List Answer) (r : List Event) (s : State) :
    (byteLoaded b src r s).loop.readCount = s.loop.readCount := rfl

/-- A byte answered is loaded. -/
theorem ReadingBits.loads {s : State} (h : ReadingBits s) (hl : s.bitq.length < s.loop.readCount.toNat) {b : Byte}
    {src : List Answer} (hsrc : s.source = .data b :: src) :
    ∃ r, r <:+ s.schedule ∧ Reaches s (byteLoaded b src r s) ∧ ReadingBits (byteLoaded b src r s) := by
  obtain ⟨r, hr, hreach⟩ := h.asks hl hsrc
  have hload : useAnswer (.data b) (answered (.data b) src r s) = byteLoaded b src r s := by
    simp [useAnswer, loadByte, answered, byteLoaded, h.inWait, h.inAnswer]
  exact ⟨r, hr, hload ▸ hreach, { h with events := h.events.suffix hr }⟩

/-- The state behind a whole READ_BITS that has taken `bytes`. -/
def fieldRead (bytes : List Byte) (rest : List Answer) (r : List Event) (s : State) : State :=
  { s with
    regs.result := BitVec.ofNat 32 (valOf ((s.bitq ++ bytes.flatMap bitsOf).take s.loop.readCount.toNat))
    regs.bitCount := s.regs.bitCount + BitVec.ofNat 32 s.loop.readCount.toNat
    bitq := (s.bitq ++ bytes.flatMap bitsOf).drop s.loop.readCount.toNat, source := rest, stage := .idle
    status.busy := false, status.done := true, status.inEos := if bytes = [] then s.status.inEos else false
    pos := .rest, atCut := false, schedule := r }

theorem fieldRead_byteLoaded (b : Byte) (bytes : List Byte) (src rest : List Answer) (q r : List Event) (s : State) :
    fieldRead bytes rest r (byteLoaded b src q s) = fieldRead (b :: bytes) rest r s := by
  simp [fieldRead, byteLoaded]

/-- A READ_BITS takes the bytes it needs, one by one, and then its bits. -/
theorem ReadingBits.field (bytes : List Byte) {rest : List Answer} : ∀ {s : State}, ReadingBits s →
    s.source = bytes.map Answer.data ++ rest → s.loop.readCount.toNat ≤ s.bitq.length + 8 * bytes.length →
    (bytes = [] ∨ s.bitq.length + 8 * (bytes.length - 1) < s.loop.readCount.toNat) →
    ∃ r, r <:+ s.schedule ∧ Reaches s (fieldRead bytes rest r s) := by
  induction bytes with
  | nil =>
    rintro s h rfl hle -
    obtain ⟨r, hr, hmove⟩ := h.moves
    refine ⟨r, hr, hmove _ ?_⟩
    rw [runPos_of_readBits (s := inside r s) h.pos, runReadBits_of_le (s := inside r s) hle]
    simp [fieldRead, inside, complete, consume]
  | cons b bytes ih =>
    intro s h hsrc hle hlt
    rw [List.length_cons] at hle
    replace hlt : s.bitq.length + 8 * bytes.length < s.loop.readCount.toNat := hlt.resolve_left (by simp)
    obtain ⟨q, hq, hreach, hread⟩ := h.loads (src := bytes.map Answer.data ++ rest) (by omega) hsrc
    have hneeded : bytes = [] ∨ s.bitq.length + 8 + 8 * (bytes.length - 1) < s.loop.readCount.toNat := by
      cases bytes with
      | nil => exact .inl rfl
      | cons c cs => exact .inr (by simp only [List.length_cons] at hlt ⊢; omega)
    obtain ⟨r, hr, hfield⟩ := ih hread rfl (by rw [length_bitq_byteLoaded, readCount_byteLoaded]; omega)
      (by rw [length_bitq_byteLoaded, readCount_byteLoaded]; exact hneeded)
    exact ⟨r, hr.trans hq, hreach.trans (fieldRead_byteLoaded .. ▸ hfield)⟩

/-- The state behind a READ_BITS that has failed at the end of the source, `bytes` loaded before it. -/
def readFailed (bytes : List Byte) (rest : List Answer) (r : List Event) (s : State) : State :=
  { s with
    bitq := s.bitq ++ bytes.flatMap bitsOf, source := rest, stage := .error
    err := { kind := .endOfStream, cause := .none, stage := s.stage }
    status.busy := false, status.done := false, status.inEos := true, pos := .rest, atCut := false, schedule := r }

theorem readFailed_byteLoaded (b : Byte) (bytes : List Byte) (src rest : List Answer) (q r : List Event) (s : State) :
    readFailed bytes rest r (byteLoaded b src q s) = readFailed (b :: bytes) rest r s := by
  simp [readFailed, byteLoaded]

/-- A READ_BITS for which the source ends too early loads the bytes there are and raises EndOfStream. -/
theorem ReadingBits.fails (bytes : List Byte) {rest : List Answer} : ∀ {s : State}, ReadingBits s →
    s.source = bytes.map Answer.data ++ .eos :: rest → s.bitq.length + 8 * bytes.length < s.loop.readCount.toNat →
    ∃ r, r <:+ s.schedule ∧ Reaches s (readFailed bytes rest r s) := by
  induction bytes with
  | nil =>
    intro s h hsrc hlt
    obtain ⟨r, hr, hreach⟩ := h.asks hlt hsrc
    have hraise : useAnswer .eos (answered .eos rest r s) = readFailed [] rest r s := by
      simp [useAnswer, raise, answered, readFailed, h.inWait, h.inAnswer]
    exact ⟨r, hr, hraise ▸ hreach⟩
  | cons b bytes ih =>
    intro s h hsrc hlt
    rw [List.length_cons] at hlt
    obtain ⟨q, hq, hreach, hread⟩ := h.loads (src := bytes.map Answer.data ++ .eos :: rest) (by omega) hsrc
    obtain ⟨r, hr, hfail⟩ := ih hread rfl (by rw [length_bitq_byteLoaded, readCount_byteLoaded]; omega)
    exact ⟨r, hr.trans hq, hreach.trans (readFailed_byteLoaded .. ▸ hfail)⟩

/-! ## READ_BITS from its acceptance (R220) -/

/-- The state behind the acceptance of READ_BITS n. -/
def readAccepted (n : BitVec 8) (s : State) : State := accept .readBits .readBits { s with loop.readCount := n }

theorem readAccepted_reading {s : State} (n : BitVec 8) (hi : s.status.inWait = false) (ho : s.status.outWait = false)
    (ha : s.inAnswer = none) (hres : s.inReset = false) (hp : portEvents s.schedule) :
    ReadingBits (readAccepted n s) where
  inWait := hi
  outWait := ho
  inAnswer := ha
  busy := rfl
  notReset := hres
  events := hp
  pos := rfl

/-- Settles O7: the acceptance, and the read behind it. -/
theorem readBitsDeliversTheField : Obligations.ReadBitsDeliversTheField := by
  intro n bytes rest s hb hk hi ho ha hres hp h1 h32 hsrc hle hlt
  have hacc := exec_readBits_of_ready ((ready_iff s).2 ⟨hb, hk⟩) ⟨h1, h32⟩
  obtain ⟨r, hr, k, hrun⟩ := (readAccepted_reading n hi ho ha hres hp).field bytes hsrc hle hlt
  refine ⟨_, k, r, hacc, hr, hrun.trans (congrArg (Outcome.next (σ := State)) ?_)⟩
  simp only [fieldRead, readAccepted, accept, hb]

/-- Settles O8: the acceptance, and the failed read behind it. -/
theorem truncatedReadBitsRaisesEndOfStream : Obligations.TruncatedReadBitsRaisesEndOfStream := by
  intro n bytes rest s hb hk hi ho ha hres hp h1 h32 hsrc hlt
  have hacc := exec_readBits_of_ready ((ready_iff s).2 ⟨hb, hk⟩) ⟨h1, h32⟩
  obtain ⟨r, hr, k, hrun⟩ := (readAccepted_reading n hi ho ha hres hp).fails bytes hsrc hlt
  refine ⟨_, k, r, hacc, hr, hrun.trans (congrArg (Outcome.next (σ := State)) ?_)⟩
  simp [readFailed, readAccepted, accept, hb]

end Sys2Proof.Machine

/-! The emission of a block (spec/47_bwt_inverse.md R199 to R208): each turn of EMIT_RLE1's loop with the sink's
acceptance behind it, the whole loop, and DONE_CHECK. -/

namespace Sys2Proof.Machine

open Host (Outcome)

/-! ## What a part of the emission delivers (R202) -/

/-- The state s with those fields of t that the emission may change. -/
def emissionFrame (s t : State) : State :=
  { s with sink := t.sink, schedule := t.schedule, crcAcc := t.crcAcc, regs := t.regs, emit := t.emit, pos := t.pos,
           stage := t.stage, loop := t.loop, outHold := t.outHold, atCut := t.atCut }

/-- From s to t the bytes `out` are delivered, folded into the CRC and counted, and nothing else but the emission's own
fields changes. -/
structure Delivers (out : List Byte) (s t : State) : Prop where
  sink : t.sink = s.sink ++ out
  crcAcc : t.crcAcc = out.foldl crcStep s.crcAcc
  regs : t.regs = { s.regs with outCount := s.regs.outCount + BitVec.ofNat 32 out.length }
  schedule : t.schedule <:+ s.schedule
  frame : t = emissionFrame s t

theorem Delivers.trans {out out' : List Byte} {s t u : State} (h : Delivers out s t) (h' : Delivers out' t u) :
    Delivers (out ++ out') s u where
  sink := by rw [h'.sink, h.sink, List.append_assoc]
  crcAcc := by rw [h'.crcAcc, h.crcAcc, List.foldl_append]
  regs := by rw [h'.regs, h.regs, List.length_append, BitVec.ofNat_add, BitVec.add_assoc]
  schedule := h'.schedule.trans h.schedule
  frame := calc u
    _ = emissionFrame t u := h'.frame
    _ = emissionFrame (emissionFrame s t) u := congrArg (emissionFrame · u) h.frame

/-- With no byte delivered the CRC and the registers stay. -/
theorem delivers_nil {s t : State} (hsink : t.sink = s.sink) (hcrc : t.crcAcc = s.crcAcc) (hregs : t.regs = s.regs)
    (hsch : t.schedule <:+ s.schedule) (hframe : t = emissionFrame s t) : Delivers [] s t where
  sink := hsink.trans (List.append_nil _).symm
  crcAcc := hcrc
  regs := hregs.trans (by simp)
  schedule := hsch
  frame := hframe

section
variable {out : List Byte} {s t : State} (h : Delivers out s t)
include h

theorem Delivers.mem : t.mem = s.mem := (congrArg State.mem h.frame).trans rfl

theorem Delivers.sym : t.sym = s.sym := (congrArg State.sym h.frame).trans rfl

theorem Delivers.status : t.status = s.status := (congrArg State.status h.frame).trans rfl

/-- The emission leaves the core free. -/
theorem Delivers.free (hs : CoreFree s) : CoreFree t where
  inWait := h.status ▸ hs.inWait
  outWait := h.status ▸ hs.outWait
  inAnswer := (congrArg State.inAnswer h.frame).trans hs.inAnswer
  busy := h.status ▸ hs.busy
  notReset := (congrArg State.inReset h.frame).trans hs.notReset
  events := hs.events.suffix h.schedule

end

/-- A run from s to t that delivers `out`. -/
structure Emits (out : List Byte) (s t : State) : Prop extends Delivers out s t where
  reaches : Reaches s t

theorem Reaches.emits {out : List Byte} {s t : State} (h : Reaches s t) (hd : Delivers out s t) : Emits out s t :=
  ⟨hd, h⟩

theorem Emits.trans {out out' : List Byte} {s t u : State} (h : Emits out s t) (h' : Emits out' t u) :
    Emits (out ++ out') s u :=
  ⟨h.toDelivers.trans h'.toDelivers, h.reaches.trans h'.reaches⟩

/-! ## One byte through the sink (R75, R202) -/

/-- The state in which the sink has taken the byte x. -/
def byteTaken (x : Byte) (r : List Event) (w : State) : State :=
  { w with loop.emitByte := x, outHold := x, sink := w.sink ++ [x], atCut := true, schedule := r }

/-- The state in which the core has folded it in and counted it, and stands at p. -/
def byteEmitted (x : Byte) (p : Pos) (r : List Event) (w : State) : State :=
  { finishEmit (inside r (byteTaken x r w)) with pos := p }

theorem byteEmitted_delivers (x : Byte) (p : Pos) {r : List Event} {w : State} (hr : r <:+ w.schedule) :
    Delivers [x] w (byteEmitted x p r w) := ⟨rfl, rfl, rfl, hr, rfl⟩

/-- With the port closed before, the sink's acceptance of an offer leaves it closed. -/
theorem sinkAccept_emitByte {x : Byte} {w : State} (ho : w.status.outWait = false) (r : List Event) :
    sinkAccept { emitByte x w with schedule := r } = byteTaken x r w := by
  simp [sinkAccept, emitByte, offerByte, byteTaken]
  rw [← ho]

/-- A byte offered at a position where the core goes on to p is delivered. -/
theorem CoreFree.delivers {s w : State} {x : Byte} {p : Pos} (hs : CoreFree s) (hreach : Reaches s (emitByte x w))
    (hw : Delivers [] s w)
    (hp : ∀ u : State, u.pos = w.pos → runPos u = .next { finishEmit u with pos := p }) :
    ∃ r, Emits [x] s (byteEmitted x p r w) := by
  have hfree : CoreFree w := hw.free hs
  obtain ⟨k, q, hq, haccept⟩ := run_sink (s := emitByte x w) hfree.busy rfl hfree.inWait hfree.notReset hfree.events
  rw [sinkAccept_emitByte hfree.outWait] at haccept
  have htaken : CoreFree (byteTaken x q w) := { hfree with events := hfree.events.suffix hq }
  obtain ⟨r, hr, hmove⟩ := htaken.moves
  have hcount : Reaches (byteTaken x q w) (byteEmitted x p r w) := hmove _ (hp (inside r (byteTaken x q w)) rfl)
  exact ⟨r, hw.trans (byteEmitted_delivers x p (hr.trans hq)), hreach.trans (.trans ⟨k, haccept⟩ hcount)⟩

/-! ## The turns of the loop (R199 to R201) -/

theorem runPos_of_extract {s : State} (h : s.pos = .extract) : runPos s = .next (extractTurn s) :=
  runPos_of_internalStep (by rw [h]; rfl)

theorem runPos_of_emitted {s : State} (h : s.pos = .emitted) :
    runPos s = .next { finishEmit s with pos := .extract } :=
  runPos_of_internalStep (by rw [h]; rfl)

theorem runPos_of_repeatCopies {s : State} (h : s.pos = .repeatCopies) : runPos s = .next (repeatTurn s) :=
  runPos_of_internalStep (by rw [h]; rfl)

theorem runPos_of_repeated {s : State} (h : s.pos = .repeated) :
    runPos s = .next { finishEmit s with pos := .repeatCopies } :=
  runPos_of_internalStep (by rw [h]; rfl)

/-- The byte that the next extraction gives, and the entry it goes on to. -/
def nextByte (s : State) : Byte := s.emit.ptr.extractLsb' 0 8
def nextPtr (s : State) : Word := memRead .bucket s.mem.bucket (s.emit.ptr >>> 8).toNat

/-- A free core reaches what the operation at its position makes of it. -/
theorem CoreFree.reaches {s : State} (h : CoreFree s) {f : State → State}
    (hf : ∀ r, runPos (inside r s) = .next (f (inside r s))) :
    ∃ r, r <:+ s.schedule ∧ Reaches s (f (inside r s)) := by
  obtain ⟨r, hr, hmove⟩ := h.moves
  exact ⟨r, hr, hmove _ (hf r)⟩

/-- Behind bwtLen extractions the loop ends in DONE_CHECK. -/
theorem CoreFree.ends {s : State} (h : CoreFree s) (hp : s.pos = .extract)
    (hle : s.sym.bwtLen.toNat ≤ s.emit.extracted.toNat) :
    ∃ t, Emits [] s t ∧ t.emit = s.emit ∧ t.pos = .doneCheck ∧ t.stage = .doneCheck := by
  obtain ⟨r, hr, hreach⟩ := h.reaches fun r => runPos_of_extract (s := inside r s) hp
  have hend : extractTurn (inside r s) = { inside r s with stage := .doneCheck, pos := .doneCheck } :=
    if_neg hle.not_gt
  rw [hend] at hreach
  exact ⟨_, hreach.emits (delivers_nil rfl rfl rfl hr rfl), rfl, rfl, rfl⟩

/-- Behind four equal bytes the extraction gives a count, and nothing is delivered. -/
theorem CoreFree.extractsCount {s : State} (h : CoreFree s) (hp : s.pos = .extract)
    (hlt : s.emit.extracted.toNat < s.sym.bwtLen.toNat) (h4 : s.emit.rleRun = 4) :
    ∃ t, Emits [] s t ∧ t.pos = .repeatCopies ∧ t.loop.copies = (nextByte s).toNat
      ∧ t.emit = { s.emit with ptr := nextPtr s, extracted := s.emit.extracted + 1 } := by
  obtain ⟨r, hr, hreach⟩ := h.reaches fun r => runPos_of_extract (s := inside r s) hp
  rcases extractTurn_cases (inside r s) with ⟨hle, -⟩ | ⟨-, -, hturn⟩ | ⟨-, hne, -⟩
  · exact absurd hlt hle.not_gt
  · rw [hturn] at hreach
    exact ⟨_, hreach.emits (delivers_nil rfl rfl rfl hr rfl), rfl, rfl, rfl⟩
  · exact absurd h4 hne

/-- Any other extraction delivers its byte. -/
theorem CoreFree.extractsByte {s : State} (h : CoreFree s) (hp : s.pos = .extract)
    (hlt : s.emit.extracted.toNat < s.sym.bwtLen.toNat) (h4 : s.emit.rleRun ≠ 4) :
    ∃ t, Emits [nextByte s] s t ∧ t.pos = .extract
      ∧ t.emit = { ptr := nextPtr s, extracted := s.emit.extracted + 1
                   rleRun := nextRun s.emit.rleRun s.emit.rleLast (nextByte s), rleLast := nextByte s } := by
  obtain ⟨r, hr, hreach⟩ := h.reaches fun r => runPos_of_extract (s := inside r s) hp
  rcases extractTurn_cases (inside r s) with ⟨hle, -⟩ | ⟨-, he, -⟩ | ⟨-, -, hturn⟩
  · exact absurd hlt hle.not_gt
  · exact absurd he h4
  · rw [hturn] at hreach
    obtain ⟨q, hemits⟩ := h.delivers hreach (delivers_nil rfl rfl rfl hr rfl)
      (fun u hu => runPos_of_emitted (s := u) hu)
    exact ⟨_, hemits, rfl, rfl⟩

/-- The end of a repeat. -/
theorem CoreFree.endsRepeat {s : State} (h : CoreFree s) (hp : s.pos = .repeatCopies) (h0 : s.loop.copies = 0) :
    ∃ t, Emits [] s t ∧ t.pos = .extract ∧ t.emit = { s.emit with rleRun := 0 } := by
  obtain ⟨r, hr, hreach⟩ := h.reaches fun r => runPos_of_repeatCopies (s := inside r s) hp
  rcases repeatTurn_cases (inside r s) with ⟨-, hturn⟩ | ⟨n, hn, -⟩
  · rw [hturn] at hreach
    exact ⟨_, hreach.emits (delivers_nil rfl rfl rfl hr rfl), rfl, rfl⟩
  · exact absurd (h0.symm.trans hn) nofun

/-- One copy of a repeat. -/
theorem CoreFree.copies {s : State} (h : CoreFree s) (hp : s.pos = .repeatCopies) {n : Nat}
    (hn : s.loop.copies = n + 1) :
    ∃ t, Emits [s.emit.rleLast] s t ∧ t.pos = .repeatCopies ∧ t.emit = s.emit ∧ t.loop.copies = n := by
  obtain ⟨r, hr, hreach⟩ := h.reaches fun r => runPos_of_repeatCopies (s := inside r s) hp
  rcases repeatTurn_cases (inside r s) with ⟨h0, -⟩ | ⟨m, hm, hturn⟩
  · exact absurd (hn.symm.trans h0) nofun
  · rw [hturn] at hreach
    obtain ⟨q, hemits⟩ := h.delivers hreach (delivers_nil rfl rfl rfl hr rfl)
      (fun u hu => runPos_of_repeated (s := u) hu)
    exact ⟨_, hemits, rfl, rfl, Nat.succ.inj (hm.symm.trans hn)⟩

/-- A repeat delivers its copies and ends with an empty run (R201). -/
theorem CoreFree.repeats (n : Nat) : ∀ {s : State}, CoreFree s → s.pos = .repeatCopies → s.loop.copies = n →
    ∃ t, Emits (List.replicate n s.emit.rleLast) s t ∧ t.pos = .extract ∧ t.emit = { s.emit with rleRun := 0 } := by
  induction n with
  | zero => exact fun h hp h0 => h.endsRepeat hp h0
  | succ n ih =>
    intro s h hp hn
    obtain ⟨t, hcopy, htpos, htemit, htn⟩ := h.copies hp hn
    obtain ⟨u, hrest, hupos, huemit⟩ := ih (hcopy.free h) htpos htn
    rw [htemit] at hrest huemit
    exact ⟨u, hcopy.trans hrest, hupos, huemit⟩

/-! ## The whole loop (R199 to R203) -/

/-- Behind a count the expansion goes on with an empty run. -/
theorem expandRle1_count (b : Byte) (bs : List Byte) (last : Byte) :
    expandRle1 (b :: bs) 4 last = List.replicate b.toNat last ++ expandRle1 bs 0 last := rfl

theorem toNat_ne_four {run : BitVec 3} (h : run ≠ 4) : run.toNat ≠ 4 := fun e => h (BitVec.eq_of_toNat_eq e)

/-- Any other byte is expanded to itself and moves the run state. -/
theorem expandRle1_byte {run : BitVec 3} (h : run.toNat ≤ 4) (h4 : run ≠ 4) (b : Byte) (bs : List Byte) (last : Byte) :
    (nextRun run last b).toNat ≤ 4
      ∧ expandRle1 (b :: bs) run.toNat last = b :: expandRle1 bs (nextRun run last b).toNat b := by
  have hne : run.toNat ≠ 4 := toNat_ne_four h4
  by_cases hc : run ≠ 0 ∧ b = last
  · obtain ⟨h0, rfl⟩ := hc
    have h0' : run.toNat ≠ 0 := fun e => h0 (BitVec.eq_of_toNat_eq e)
    have hnext : (nextRun run b b).toNat = run.toNat + 1 := by
      rw [nextRun, if_pos ⟨h0, rfl⟩, BitVec.toNat_add]
      exact Nat.mod_eq_of_lt (by show run.toNat + 1 < 8; omega)
    rw [hnext, expandRle1, if_neg hne, if_pos ⟨h0', rfl⟩]
    exact ⟨by omega, rfl⟩
  · have hnext : nextRun run last b = 1 := if_neg hc
    have hc' : ¬ (run.toNat ≠ 0 ∧ b = last) := fun ⟨h0, hb⟩ => hc ⟨fun e => h0 (congrArg BitVec.toNat e), hb⟩
    rw [hnext, expandRle1, if_neg hne, if_neg hc']
    exact ⟨by decide, rfl⟩

/-- The loop delivers the expansion of the n extractions that are left. -/
theorem CoreFree.emission (n : Nat) : ∀ {s : State}, CoreFree s → s.pos = .extract → s.emit.rleRun.toNat ≤ 4 →
    s.emit.extracted.toNat + n = s.sym.bwtLen.toNat →
    ∃ t, Emits (expandRle1 (walk s.mem.bucket n s.emit.ptr) s.emit.rleRun.toNat s.emit.rleLast) s t
      ∧ t.emit.extracted = s.sym.bwtLen ∧ t.pos = .doneCheck ∧ t.stage = .doneCheck := by
  induction n with
  | zero =>
    intro s h hp _ hn
    obtain ⟨t, hend, hemit, hpos, hstage⟩ := h.ends hp (by omega)
    refine ⟨t, hend, ?_, hpos, hstage⟩
    rw [hemit]
    exact BitVec.eq_of_toNat_eq hn
  | succ n ih =>
    intro s h hp hrun hn
    have hlt : s.emit.extracted.toNat < s.sym.bwtLen.toNat := by omega
    have hext : (s.emit.extracted + 1).toNat + n = s.sym.bwtLen.toNat := by
      rw [BitVec.toNat_add]
      have := s.sym.bwtLen.isLt
      show (s.emit.extracted.toNat + 1) % 2 ^ 20 + n = _
      omega
    have hwalk : walk s.mem.bucket (n + 1) s.emit.ptr = nextByte s :: walk s.mem.bucket n (nextPtr s) := rfl
    rw [hwalk]
    by_cases h4 : s.emit.rleRun = 4
    · obtain ⟨t, hcount, htpos, htcopies, htemit⟩ := h.extractsCount hp hlt h4
      obtain ⟨u, hcopies, hupos, huemit⟩ := (hcount.free h).repeats _ htpos htcopies
      have hto := hcount.trans hcopies
      rw [htemit] at huemit hto
      obtain ⟨v, hrest, hfin⟩ := ih (hto.free h) hupos (by rw [huemit]; exact Nat.zero_le _)
        (by rw [huemit, hto.sym]; exact hext)
      rw [hto.mem, huemit] at hrest
      rw [hto.sym] at hfin
      rw [h4]
      exact ⟨v, hto.trans hrest, hfin⟩
    · obtain ⟨hle, hexpand⟩ := expandRle1_byte hrun h4 (nextByte s) (walk s.mem.bucket n (nextPtr s)) s.emit.rleLast
      obtain ⟨t, hbyte, htpos, htemit⟩ := h.extractsByte hp hlt h4
      obtain ⟨v, hrest, hfin⟩ := ih (hbyte.free h) htpos (by rw [htemit]; exact hle)
        (by rw [htemit, hbyte.sym]; exact hext)
      rw [hbyte.mem, htemit] at hrest
      rw [hbyte.sym] at hfin
      rw [hexpand]
      exact ⟨v, hbyte.trans hrest, hfin⟩

/-- Settles O40: the loop from its head, with the extractions that are left. -/
theorem emissionDeliversTheExpansion : Obligations.EmissionDeliversTheExpansion := by
  rintro s out hp - hb hi ho ha hres hev hrun hle rfl
  have hfree : CoreFree s := ⟨⟨hi, ho, ha⟩, hb, hres, hev⟩
  obtain ⟨t, h, hext, hpos, hstage⟩ := hfree.emission (s.sym.bwtLen.toNat - s.emit.extracted.toNat) hp hrun (by omega)
  obtain ⟨k, hk⟩ := h.reaches
  exact ⟨k, t, hk, h.sink, h.crcAcc, h.regs, hext, hpos, hstage, h.schedule, h.frame⟩

/-! ## DONE_CHECK (R206 to R208) -/

theorem coreStep_of_doneCheck {s : State} (hp : s.pos = .doneCheck) (ha : s.inAnswer = none) :
    coreStep s = .next (doneCheck { s with atCut := false }) :=
  coreStep_of_internalStep ha (by rw [hp]; rfl)

theorem doneCheck_of_eq {s : State} (h : ~~~s.crcAcc = s.regs.expectedCrc) : doneCheck s = complete { s with
    regs.streamCrc := s.regs.streamCrc.rotateLeft 1 ^^^ ~~~s.crcAcc, regs.blockCount := s.regs.blockCount + 1 } := by
  rw [← rotl1_eq_rotateLeft]
  exact if_neg (not_not_intro h)

theorem doneCheck_of_ne {s : State} (h : ~~~s.crcAcc ≠ s.regs.expectedCrc) :
    doneCheck s = raise .blockCrcMismatch .none s := if_pos h

/-- Settles O41: the block's CRC matches or not. -/
theorem doneCheckComparesTheCrc : Obligations.DoneCheckComparesTheCrc := by
  intro s hp ha
  rw [coreStep_of_doneCheck hp ha]
  exact ⟨fun h => congrArg Outcome.next (doneCheck_of_eq (s := { s with atCut := false }) h),
    fun h => congrArg Outcome.next (doneCheck_of_ne (s := { s with atCut := false }) h)⟩

end Sys2Proof.Machine

/-! BUILD_BUCKET_ARRAY (spec/47_bwt_inverse.md R195 to R198): the counting sort of the BWT buffer's indexes by their
bytes, and what the fill leaves in CHARBASE and BUCKET behind each index. -/

namespace Sys2Proof.Machine

/-! ## The sorted indexes (R195 to R197) -/

/-- The indexes below n at which the buffer holds the byte v, in order. -/
def indexesOf (bwt : Mem Byte) (n : Nat) (v : Byte) : List Nat :=
  (List.range n).filter fun i => decide (memRead? bwt i = some v)

theorem sortedIndexes_eq (bwt : Mem Byte) (n : Nat) :
    sortedIndexes bwt n = (List.range 256).flatMap fun v => indexesOf bwt n (BitVec.ofNat 8 v) := rfl

theorem length_indexesOf (s : State) (n : Nat) (v : Byte) : (indexesOf s.mem.bwt n v).length = bwtCount s n v := rfl

theorem mem_indexesOf {bwt : Mem Byte} {n i : Nat} {v : Byte} :
    i ∈ indexesOf bwt n v ↔ i < n ∧ memRead? bwt i = some v := by
  rw [indexesOf, List.mem_filter, List.mem_range, decide_eq_true_eq]

theorem mem_sortedIndexes {bwt : Mem Byte} {n i : Nat} :
    i ∈ sortedIndexes bwt n ↔ i < n ∧ ∃ v, memRead? bwt i = some v := by
  simp only [sortedIndexes_eq, List.mem_flatMap, mem_indexesOf, List.mem_range]
  constructor
  · rintro ⟨v, -, hi, hv⟩
    exact ⟨hi, _, hv⟩
  · rintro ⟨hi, v, hv⟩
    exact ⟨v.toNat, v.isLt, hi, by rw [BitVec.ofNat_toNat, BitVec.setWidth_eq, hv]⟩

theorem nodup_sortedIndexes (bwt : Mem Byte) (n : Nat) : (sortedIndexes bwt n).Nodup := by
  rw [sortedIndexes_eq, List.nodup_flatMap]
  refine ⟨fun v _ => List.nodup_range.filter _, List.pairwise_lt_range.imp_of_mem fun {v w} hv hw hlt i hi hj => ?_⟩
  have hvw : BitVec.ofNat 8 v = BitVec.ofNat 8 w :=
    Option.some.inj ((mem_indexesOf.1 hi).2.symm.trans (mem_indexesOf.1 hj).2)
  have hnat := congrArg BitVec.toNat hvw
  rw [BitVec.toNat_ofNat, BitVec.toNat_ofNat, Nat.mod_eq_of_lt (List.mem_range.1 hv),
    Nat.mod_eq_of_lt (List.mem_range.1 hw)] at hnat
  omega

/-- In a buffer written throughout the sorted indexes are all its indexes. -/
theorem sortedIndexes_perm {bwt : Mem Byte} {n : Nat} (h : ∀ i < n, (memRead? bwt i).isSome) :
    (sortedIndexes bwt n).Perm (List.range n) := by
  refine (List.perm_ext_iff_of_nodup (nodup_sortedIndexes bwt n) List.nodup_range).2 fun i => ?_
  rw [mem_sortedIndexes, List.mem_range, and_iff_left_iff_imp]
  exact fun hi => Option.isSome_iff_exists.1 (h i hi)

/-- How many of the first n bytes are below v. -/
def bucketStart (bwt : Mem Byte) (n v : Nat) : Nat :=
  ((List.range v).flatMap fun w => indexesOf bwt n (BitVec.ofNat 8 w)).length

theorem bucketStart_succ (s : State) (n v : Nat) :
    bucketStart s.mem.bwt n (v + 1) = bucketStart s.mem.bwt n v + bwtCount s n (BitVec.ofNat 8 v) := by
  simp [bucketStart, List.range_succ, length_indexesOf]

/-- Where the next index with the byte v goes, behind the first j indexes. -/
def nextPlace (s : State) (j : Nat) (v : Byte) : Nat :=
  bucketStart s.mem.bwt s.sym.bwtLen.toNat v.toNat + bwtCount s j v

/-- An index stands in the sorted order behind the smaller bytes and the equal bytes before it. -/
theorem sortedIndexes_nextPlace {s : State} {j : Nat} {v : Byte} (hj : j < s.sym.bwtLen.toNat)
    (hv : memRead? s.mem.bwt j = some v) :
    (sortedIndexes s.mem.bwt s.sym.bwtLen.toNat)[nextPlace s j v]? = some j := by
  have hrank : (indexesOf s.mem.bwt s.sym.bwtLen.toNat v)[bwtCount s j v]? = some j := by
    rw [indexesOf, range_split hj, List.filter_append, List.filter_cons_of_pos (by simp [hv]), ← length_indexesOf,
      indexesOf, List.getElem?_append_right le_rfl, Nat.sub_self]
    rfl
  have hlt : bwtCount s j v < (indexesOf s.mem.bwt s.sym.bwtLen.toNat v).length :=
    (List.getElem?_eq_some_iff.1 hrank).1
  have hbyte : BitVec.ofNat 8 v.toNat = v := by rw [BitVec.ofNat_toNat, BitVec.setWidth_eq]
  rw [sortedIndexes_eq, range_split v.isLt, List.flatMap_append, List.flatMap_cons, hbyte, nextPlace, bucketStart,
    List.getElem?_append_right (Nat.le_add_right _ _), Nat.add_sub_cancel_left, List.getElem?_append_left hlt, hrank]

/-- The index j takes the next place of its byte's bucket. -/
theorem nextPlace_succ {s : State} {j : Nat} {v : Byte} (hv : memRead? s.mem.bwt j = some v) :
    nextPlace s (j + 1) v = nextPlace s j v + 1 := by
  simp [nextPlace, bwtCount_succ, hv, Nat.add_assoc]

/-- It takes none of another byte's. -/
theorem nextPlace_succ_of_ne {s : State} {j : Nat} {v w : Byte} (hv : memRead? s.mem.bwt j = some v) (hw : w ≠ v) :
    nextPlace s (j + 1) w = nextPlace s j w := by
  simp [nextPlace, bwtCount_succ, hv, Ne.symm hw]

/-! ## CHARBASE before the fill (R195) -/

theorem length_prefixSums (cs : List (BitVec 20)) (acc : BitVec 20) : (prefixSums cs acc).length = cs.length := by
  induction cs generalizing acc with
  | nil => rfl
  | cons c cs ih => simp [prefixSums, ih]

theorem prefixSums_getElem? (cs : List (BitVec 20)) (acc : BitVec 20) {k : Nat} (hk : k < cs.length) :
    (prefixSums cs acc)[k]? = some (acc + BitVec.ofNat 20 ((cs.take k).map BitVec.toNat).sum) := by
  induction cs generalizing acc k with
  | nil => cases hk
  | cons c cs ih =>
    cases k with
    | zero => simp [prefixSums]
    | succ k => simp [prefixSums, ih (acc + c) (Nat.lt_of_succ_lt_succ hk), BitVec.ofNat_add, BitVec.add_assoc]

/-- CHARBASE[v] starts as the number of bytes below v. -/
theorem charBases_getElem? {s : State} (h : HistogramRight s) (v : Byte) :
    (charBases s)[v.toNat]? = some (BitVec.ofNat 20 (bucketStart s.mem.bwt s.sym.bwtLen.toNat v.toNat)) := by
  have hsum : ∀ k ≤ 256, ((List.range k).map fun w => (memRead .byteCount s.mem.byteCount w).toNat).sum =
      bucketStart s.mem.bwt s.sym.bwtLen.toNat k := by
    intro k hk
    induction k with
    | zero => rfl
    | succ k ih =>
      obtain ⟨c, hc, hcount⟩ := h.2 (BitVec.ofNat 8 k)
      rw [BitVec.toNat_ofNat, Nat.mod_eq_of_lt hk] at hc
      rw [List.range_succ, List.map_append, List.sum_append, ih (by omega), bucketStart_succ, ← hcount]
      simp [memRead_of_some hc]
  have hlen : v.toNat < ((List.range 256).map fun w => memRead .byteCount s.mem.byteCount w).length := by
    simpa using v.isLt
  rw [charBases, prefixSums_getElem? _ _ hlen, ← List.map_take, List.take_range, Nat.min_eq_left v.isLt.le,
    List.map_map, ← hsum _ v.isLt.le, zero_add]
  rfl

/-! ## The fill (R196) -/

/-- CHARBASE and BUCKET behind the fill of the first j indexes: CHARBASE[v] is the next place of v's bucket, the entries
of these indexes stand at their places, and behind the buffer BUCKET is as before. -/
structure Filled (s : State) (j : Nat) (m : Mem (BitVec 20) × Mem Word) : Prop where
  charBase : ∀ v : Byte, memRead? m.1 v.toNat = some (BitVec.ofNat 20 (nextPlace s j v))
  bucket : ∀ k i v, (sortedIndexes s.mem.bwt s.sym.bwtLen.toNat)[k]? = some i → i < j → memRead? s.mem.bwt i = some v →
    memRead? m.2 k = some (bucketEntry i v)
  behind : ∀ k, s.sym.bwtLen.toNat ≤ k → memRead? m.2 k = memRead? s.mem.bucket k

/-- One iteration moves the byte's CHARBASE on and stores the entry at the place it held. -/
theorem fillStep_eq {s : State} {m : Mem (BitVec 20) × Mem Word} {j k : Nat} {v : Byte}
    (hv : memRead? s.mem.bwt j = some v) (hk : k < 2 ^ 20) (hbase : memRead? m.1 v.toNat = some (BitVec.ofNat 20 k)) :
    fillStep s.mem.bwt m j = (memWrite m.1 v.toNat (BitVec.ofNat 20 (k + 1)), memWrite m.2 k (bucketEntry j v)) := by
  have hkNat : (BitVec.ofNat 20 k).toNat = k := Nat.mod_eq_of_lt hk
  simp only [fillStep, memRead_of_some hv, memRead_of_some hbase, hkNat, BitVec.ofNat_add]
  rfl

section
variable {s : State} (h : HistogramRight s)
include h

theorem filled_zero : Filled s 0 (memWriteList s.mem.charBase 0 (charBases s), s.mem.bucket) where
  charBase v := by
    have hlen : v.toNat < 0 + (charBases s).length := by simpa [charBases, length_prefixSums] using v.isLt
    rw [memRead?_memWriteList, if_pos ⟨Nat.zero_le _, hlen⟩]
    exact charBases_getElem? h v
  bucket _ _ _ _ hi := absurd hi (Nat.not_lt_zero _)
  behind _ _ := rfl

/-- A place inside the sorted order is one of the buffer's. -/
theorem nextPlace_lt {j : Nat} {v : Byte} (hj : j < s.sym.bwtLen.toNat) (hv : memRead? s.mem.bwt j = some v) :
    nextPlace s j v < s.sym.bwtLen.toNat := by
  rw [← List.length_range (n := s.sym.bwtLen.toNat), ← (sortedIndexes_perm h.1).length_eq]
  exact (List.getElem?_eq_some_iff.1 (sortedIndexes_nextPlace hj hv)).1

theorem Filled.step {j : Nat} {m : Mem (BitVec 20) × Mem Word} (hm : Filled s j m) (hj : j < s.sym.bwtLen.toNat) :
    Filled s (j + 1) (fillStep s.mem.bwt m j) := by
  obtain ⟨v, hv⟩ := Option.isSome_iff_exists.1 (h.1 j hj)
  have hplace := sortedIndexes_nextPlace hj hv
  have hlt : nextPlace s j v < s.sym.bwtLen.toNat := nextPlace_lt h hj hv
  rw [fillStep_eq hv (hlt.trans s.sym.bwtLen.isLt) (hm.charBase v)]
  refine ⟨fun w => ?_, fun k i w hi hij hw => ?_, fun k hk => ?_⟩
  · rw [memRead?_memWrite_eq]
    by_cases hwv : w = v
    · rw [if_pos (congrArg BitVec.toNat hwv), hwv, nextPlace_succ hv]
    · rw [if_neg (toNat_ne_of_ne hwv), nextPlace_succ_of_ne hv hwv]
      exact hm.charBase w
  · rw [memRead?_memWrite_eq]
    by_cases hk : k = nextPlace s j v
    · obtain rfl : i = j := Option.some.inj (hi.symm.trans (hk ▸ hplace))
      obtain rfl : w = v := Option.some.inj (hw.symm.trans hv)
      exact if_pos hk
    · have hne : i ≠ j := by
        rintro rfl
        have hlen := (List.getElem?_eq_some_iff.1 hi).1
        exact hk ((List.getElem?_inj hlen (nodup_sortedIndexes _ _)).1 (hi.trans hplace.symm))
      rw [if_neg hk]
      exact hm.bucket k i w hi (by omega) hw
  · rw [memRead?_memWrite_eq, if_neg (by omega)]
    exact hm.behind k hk

theorem filled_fillBuckets : Filled s s.sym.bwtLen.toNat (fillBuckets s) := by
  have go : ∀ j ≤ s.sym.bwtLen.toNat, Filled s j ((List.range j).foldl (fillStep s.mem.bwt)
      (memWriteList s.mem.charBase 0 (charBases s), s.mem.bucket)) := by
    intro j hj
    induction j with
    | zero => exact filled_zero h
    | succ j ih =>
      rw [List.range_succ, List.foldl_append]
      exact (ih (by omega)).step h hj
  exact go _ le_rfl

end

/-! ## The stage (R195 to R198) -/

/-- A bucket entry is its index and its byte. -/
theorem bucketEntry_eq (i : Nat) (v : Byte) : bucketEntry i v = BitVec.ofNat 32 (256 * i + v.toNat) := by
  apply BitVec.eq_of_toNat_eq
  rw [bucketEntry, BitVec.toNat_append, ← Nat.shiftLeft_add_eq_or_of_lt v.isLt, Nat.shiftLeft_eq, BitVec.toNat_ofNat,
    BitVec.toNat_ofNat]
  have := v.isLt
  omega

theorem coreStep_of_bucketBuild {s : State} (hp : s.pos = .bucketBuild) (ha : s.inAnswer = none) :
    coreStep s = .next (buildBuckets { s with atCut := false }) :=
  coreStep_of_internalStep ha (by rw [hp]; rfl)

/-- Settles O39: the fill of all the indexes, and the entry at ORIG_PTR, which lies inside the buffer. -/
theorem bucketsAreTheSortedBlock : Obligations.BucketsAreTheSortedBlock := by
  intro s hp ha hlegal
  have hblock : BlockLegal s := hlegal.block (by rw [hp]; rfl)
  have hfilled : Filled s s.sym.bwtLen.toNat (fillBuckets s) := filled_fillBuckets hblock.histogram
  have hperm := sortedIndexes_perm hblock.histogram.1
  have hentry : ∀ k < s.sym.bwtLen.toNat, ∃ i v, (sortedIndexes s.mem.bwt s.sym.bwtLen.toNat)[k]? = some i
      ∧ memRead? s.mem.bwt i = some v
      ∧ memRead? (fillBuckets s).2 k = some (BitVec.ofNat 32 (256 * i + v.toNat)) := by
    intro k hk
    have hlen : k < (sortedIndexes s.mem.bwt s.sym.bwtLen.toNat).length := by
      rwa [hperm.length_eq, List.length_range]
    obtain ⟨hi, v, hv⟩ := mem_sortedIndexes.1 (List.getElem_mem hlen)
    have hsome := List.getElem?_eq_getElem hlen
    exact ⟨_, v, hsome, hv, bucketEntry_eq _ v ▸ hfilled.bucket k _ v hsome hi hv⟩
  obtain ⟨i, v, -, -, hptr⟩ := hentry _ hblock.origPtr
  exact ⟨_, coreStep_of_bucketBuild hp ha, hentry, hperm, hfilled.behind,
    hptr.trans (congrArg some (memRead_of_some hptr).symm), rfl⟩

end Sys2Proof.Machine
